-- ==== Sys2Proof/Word.lean ====
section
/-! DEFINITION. The bit-vector types of FCPN: the 32-bit bus word (R32, R72), the byte of a message buffer (R52, R53), and the two block widths (R7). -/

namespace Sys2Proof

/-- A host bus word, a register as the host sees it, a command word (R32, R100). -/
abbrev Word := BitVec 32

/-- One byte of a message buffer (R52, R53). -/
abbrev Byte := BitVec 8

/-- A toy block, TOY_BLOCK_W = 8 (R7). -/
abbrev Block := BitVec 8

/-- Half of a toy block, HALF_W = 4 (R7). -/
abbrev Half := BitVec 4

/-- A toy subkey, SUBKEY_W = 8 (R7). -/
abbrev Subkey := BitVec 8

/-- The toy key, TOY_KEY_W = 10 (R7). -/
abbrev ToyKey := BitVec 10

/-- A production block or key, EXT_BLOCK_W = EXT_KEY_W = 128 (R7). -/
abbrev ExtBlock := BitVec 128

end Sys2Proof
end

