-- ==== Sys2Proof/Syntax.lean ====
section
/-! DEFINITION. The command set (R103: 22 commands, one constructor each) and the host's bus accesses (R72, R110). -/

namespace Sys2Proof

/-- PRIM, the block primitive a buffer command drives (R101): `toy` is PRIM = 0 (the suffix .T of R111),
`ext` is PRIM = 1 (.X). -/
inductive Prim where
  | toy
  | ext
  deriving DecidableEq, Repr

/-- The commands of R103, in the table's order. A command that takes PRIM carries it; no command has another
operand, since every operand sits in a fixed register or buffer (R102). -/
inductive Instr where
  | permIp
  | permIpinv
  | permEp
  | permP4
  | sbox0
  | sbox1
  | roundF
  | keysched
  | toyEnc
  | toyDec
  | pad (p : Prim)
  | unpadLen
  | unpadScan (p : Prim)
  | xfer
  | ecbEnc (p : Prim)
  | ecbDec (p : Prim)
  | cbcEnc (p : Prim)
  | cbcDec (p : Prim)
  | cfbEnc (p : Prim)
  | cfbDec (p : Prim)
  | ctrEnc (p : Prim)
  | ctrDec (p : Prim)
  deriving DecidableEq, Repr

/-- What a host access does (R72, R110): `rd` or `wr` with its data. -/
inductive AccessKind where
  | read
  | write (data : Word)
  deriving DecidableEq, Repr

/-- One host bus access (R72): a 14-bit byte address (R70), the access's width in bits, and its kind. Only a
width of 32 at an aligned address is served (R73). -/
structure Access where
  addr : BitVec 14
  width : Nat
  kind : AccessKind
  deriving DecidableEq, Repr

/-- Whose move is next (R80): the host makes an access, or the core performs the latched command. -/
inductive Turn where
  | host (a : Access)
  | core
  deriving DecidableEq, Repr

end Sys2Proof
end

