-- ==== Sys2Proof/Decode.lean ====
section
/-! DEFINITION. The decoder of R104 over the opcode map of R103, total over all 2^32 words, and after it the encoder from the same map. -/

namespace Sys2Proof

/-- Why a word is Illegal (R104, R105). The core reports each of them as IllegalCommand (R264). -/
inductive IllegalWord where
  /-- A bit of [31:10] or [7:6] is set. -/
  | reservedBitSet
  /-- No row of R103 has this OP with this DIR. -/
  | noSuchCommand
  /-- PRIM = 1 on a command that does not take PRIM. -/
  | primNotTaken
  deriving DecidableEq, Repr

/-- A row of R103: OP, DIR, and the command for each PRIM the row takes (`ext` is none where PRIM must be 0). -/
structure CommandRow where
  op : BitVec 6
  dir : Bool
  toy : Instr
  ext : Option Instr
  deriving DecidableEq, Repr

/-- The rows whose PRIM must be 0 (R103). -/
def plainRows : List CommandRow :=
  [⟨0x01, false, .permIp, none⟩,
   ⟨0x02, false, .permIpinv, none⟩,
   ⟨0x03, false, .permEp, none⟩,
   ⟨0x04, false, .permP4, none⟩,
   ⟨0x05, false, .sbox0, none⟩,
   ⟨0x06, false, .sbox1, none⟩,
   ⟨0x07, false, .roundF, none⟩,
   ⟨0x08, false, .keysched, none⟩,
   ⟨0x09, false, .toyEnc, none⟩,
   ⟨0x09, true, .toyDec, none⟩,
   ⟨0x0B, false, .unpadLen, none⟩,
   ⟨0x0D, false, .xfer, none⟩]

/-- The rows that take PRIM (R103). -/
def primRows : List CommandRow :=
  [⟨0x0A, false, .pad .toy, some (.pad .ext)⟩,
   ⟨0x0C, false, .unpadScan .toy, some (.unpadScan .ext)⟩,
   ⟨0x10, false, .ecbEnc .toy, some (.ecbEnc .ext)⟩,
   ⟨0x10, true, .ecbDec .toy, some (.ecbDec .ext)⟩,
   ⟨0x11, false, .cbcEnc .toy, some (.cbcEnc .ext)⟩,
   ⟨0x11, true, .cbcDec .toy, some (.cbcDec .ext)⟩,
   ⟨0x12, false, .cfbEnc .toy, some (.cfbEnc .ext)⟩,
   ⟨0x12, true, .cfbDec .toy, some (.cfbDec .ext)⟩,
   ⟨0x13, false, .ctrEnc .toy, some (.ctrEnc .ext)⟩,
   ⟨0x13, true, .ctrDec .toy, some (.ctrDec .ext)⟩]

/-- The opcode map of R103. -/
def commandRows : List CommandRow := plainRows ++ primRows

/-- R104: the command a latched word encodes, or why it encodes none. -/
def decode (w : BitVec 32) : Except IllegalWord Instr :=
  if w.extractLsb' 10 22 != 0 || w.extractLsb' 6 2 != 0 then
    .error .reservedBitSet
  else
    match commandRows.find? (fun r => r.op == w.extractLsb' 0 6 && r.dir == w.getLsbD 8) with
    | none => .error .noSuchCommand
    | some r =>
      if w.getLsbD 9 then
        match r.ext with
        | some i => .ok i
        | none => .error .primNotTaken
      else .ok r.toy

/-- The command word's fields put together (R100): 22 zero bits, PRIM, DIR, 00, OP. -/
def commandWord (op : BitVec 6) (dir prim : Bool) : BitVec 32 :=
  0#22 ++ BitVec.ofBool prim ++ BitVec.ofBool dir ++ 0#2 ++ op

/-- PRIM as a bit (R101). -/
def Prim.bit : Prim → Bool
  | .toy => false
  | .ext => true

/-- The word of a command (R103, R111). -/
def encode : Instr → BitVec 32
  | .permIp => commandWord 0x01 false false
  | .permIpinv => commandWord 0x02 false false
  | .permEp => commandWord 0x03 false false
  | .permP4 => commandWord 0x04 false false
  | .sbox0 => commandWord 0x05 false false
  | .sbox1 => commandWord 0x06 false false
  | .roundF => commandWord 0x07 false false
  | .keysched => commandWord 0x08 false false
  | .toyEnc => commandWord 0x09 false false
  | .toyDec => commandWord 0x09 true false
  | .pad p => commandWord 0x0A false p.bit
  | .unpadLen => commandWord 0x0B false false
  | .unpadScan p => commandWord 0x0C false p.bit
  | .xfer => commandWord 0x0D false false
  | .ecbEnc p => commandWord 0x10 false p.bit
  | .ecbDec p => commandWord 0x10 true p.bit
  | .cbcEnc p => commandWord 0x11 false p.bit
  | .cbcDec p => commandWord 0x11 true p.bit
  | .cfbEnc p => commandWord 0x12 false p.bit
  | .cfbDec p => commandWord 0x12 true p.bit
  | .ctrEnc p => commandWord 0x13 false p.bit
  | .ctrDec p => commandWord 0x13 true p.bit

/-- The command this decoder reads from a table row's `nbits` bits `w` (R107: a command is one 32-bit word). -/
def decodeTableWord (nbits w : Nat) : Option Instr :=
  (decode (BitVec.ofNat 32 (w % 2 ^ nbits))).toOption

end Sys2Proof
end

