-- ==== Sys2Proof/Config.lean ====
section
/-! DEFINITION. The configuration of one FCPN (R7, R31): the constant tables TBL, the key schedule KS, EXT_PRESENT and MSG_CAP as plain data, and the parts of it that have no value in the spec: the production primitive (D4) and what a result register reads as while BUSY (U1), each an opaque constant. -/

namespace Sys2Proof

/-- The constant tables `TBL` (R54, D2). A permutation table lists input positions, one per output
position (R12); an S-box lists four rows of four entries. Entries are plain numbers, so that a malformed
table, which R293 must detect, can be written down. -/
structure Tables where
  ip : List Nat
  ipinv : List Nat
  ep : List Nat
  p4 : List Nat
  s0 : List (List Nat)
  s1 : List (List Nat)
  deriving DecidableEq, Repr

/-- The key schedule `KS` (R170, D3): a function from the 1024 keys to the pair of subkeys, as plain data. `standard`
is the spec's default (R171); any other function is the list of its values, K1 and K2 by key (log entry 4). -/
inductive KeySchedule where
  | standard
  | listed (values : Vector (Subkey × Subkey) 1024)
  deriving DecidableEq, Repr

/-- The parameters a model takes (R7, R31) that are plain data. The external primitive is `Config.extEnc` and
`Config.extDec`. -/
structure Config where
  /-- `TBL`, the constant tables (D2). -/
  tbl : Tables
  /-- `KS`, the key schedule (D3). -/
  ks : KeySchedule
  /-- `EXT_PRESENT` (D4), read by the host in CFG[0] (R35). -/
  extPresent : Bool
  /-- `MSG_CAP` (D5), the bytes of each buffer, read by the host in CFG[28:16] (R35). -/
  msgCap : Nat
  deriving DecidableEq, Repr

/-- The production primitive's `encrypt_block(key, block)`, an opaque port (D4, U6). Nothing is assumed of it. -/
opaque Config.extEnc : ExtBlock → ExtBlock → ExtBlock

/-- The production primitive's `decrypt_block(key, block)` (D4, U6). Nothing is assumed of it. -/
opaque Config.extDec : ExtBlock → ExtBlock → ExtBlock

/-- The value of the n-th host read of DOUT, SUBKEYS, LEN_OUT or OUT_BUF made while BUSY: a free draw per
read (R81, U1). -/
opaque Config.freeRead : Nat → Word

end Sys2Proof
end

