-- ==== Sys2Proof/Machine/Bits.lean ====
section
/-! DEFINITION. Bit and byte helpers: positions counted from the most significant bit (R9), the permutation primitive (R130), and the packing of bytes into blocks (R74 to R76, R223). -/

namespace Sys2Proof.Machine

/-- R130: position i of the output is position T[i] of the input; the output width is the table's length. -/
def permute {w : Nat} (n : Nat) (x : BitVec w) (t : List Nat) : BitVec n :=
  BitVec.ofNat n (t.foldl (fun acc p => 2 * acc + (x.getMsbD p).toNat) 0)

/-- R10: the n most significant bits. -/
def lead {w : Nat} (n : Nat) (v : BitVec w) : BitVec n := v.extractLsb' (w - n) n

/-- A bus word as an operand of `n` bits: none where a bit above the operand's width is set (R42, R267). -/
def narrow (n : Nat) (v : Word) : Option (BitVec n) :=
  if v >>> n = 0 then some (v.setWidth n) else none

/-- A list cut into `count` pieces of `size`, in order. -/
def chunks {α : Type} (size : Nat) : Nat → List α → List (List α)
  | 0, _ => []
  | count + 1, l => l.take size :: chunks size count (l.drop size)

/-- A block from its bytes, the first byte most significant (R76). -/
def fromBytes (w : Nat) (bs : List Byte) : BitVec w :=
  BitVec.ofNat w (bs.foldl (fun acc b => 256 * acc + b.toNat) 0)

/-- The bytes of a block, byte k being bits [w-1-8k : w-8-8k] (R223). -/
def toBytes {w : Nat} (v : BitVec w) : List Byte :=
  (List.range (w / 8)).map fun k => v.extractLsb' (w - 8 - 8 * k) 8

/-- The blocks of `w` bits of a message (R223). -/
def blocksOf (w : Nat) (m : List Byte) : List (BitVec w) :=
  (chunks (w / 8) (m.length / (w / 8)) m).map (fromBytes w)

/-- The message of a list of blocks (R223). -/
def bytesOf {w : Nat} (bs : List (BitVec w)) : List Byte := bs.flatMap toBytes

/-- The 4-bit segments of a message, a byte's bits [7:4] first (R228, D26). -/
def nibblesOf (m : List Byte) : List (BitVec 4) :=
  m.flatMap fun b => [b.extractLsb' 4 4, b.extractLsb' 0 4]

/-- The message of a list of 4-bit segments, packed back the same way (R228). -/
def bytesOfNibbles : List (BitVec 4) → List Byte
  | hi :: lo :: rest => (hi ++ lo) :: bytesOfNibbles rest
  | _ => []

end Sys2Proof.Machine
end

