-- ==== Sys2Proof/Machine/Tables.lean ====
section
/-! DEFINITION. The default configuration (R131, R151, D5) and the table check the core makes at every reset (R293). -/

namespace Sys2Proof.Machine

/-- The default `TBL` of R131 and R151. -/
def defaultTables : Tables where
  ip := [1, 5, 2, 0, 3, 7, 4, 6]
  ipinv := [3, 0, 2, 4, 6, 1, 7, 5]
  ep := [3, 0, 1, 2, 1, 2, 3, 0]
  p4 := [1, 3, 2, 0]
  s0 := [[1, 0, 3, 2], [3, 2, 1, 0], [0, 2, 1, 3], [3, 1, 3, 2]]
  s1 := [[0, 1, 2, 3], [2, 0, 1, 3], [3, 0, 1, 0], [2, 1, 0, 3]]

/-- The default configuration of 95_test_vectors.md section 0: the default `TBL` and `KS`, EXT_PRESENT = 1 and
MSG_CAP = 4096. -/
def defaultConfig : Config where
  tbl := defaultTables
  ks := .standard
  extPresent := true
  msgCap := 4096

/-- R293: a permutation table has its declared length and every entry in range. -/
def shapeOk (t : List Nat) (win n : Nat) : Bool :=
  t.length == n && t.all fun p => decide (p < win)

/-- R293: an S-box has 4 rows of 4 entries, every entry below 4. -/
def sboxOk (t : List (List Nat)) : Bool :=
  t.length == 4 && t.all fun r => r.length == 4 && r.all fun e => decide (e < 4)

/-- R293: `check(TBL)`. -/
def tablesOk (t : Tables) : Bool :=
  shapeOk t.ip 8 8 && shapeOk t.ipinv 8 8 && shapeOk t.ep 4 8 && shapeOk t.p4 4 4
    && sboxOk t.s0 && sboxOk t.s1

end Sys2Proof.Machine
end

