-- ==== Sys2Proof/Machine/State.lean ====
section
/-! DEFINITION. The state of FCPN (R32 to R58) as plain data, the ways a step can stop, and the state after reset (R290 to R293). -/

namespace Sys2Proof.Machine

/-- `phase` (R39), what STATUS.BUSY reads. -/
inductive Phase where
  | idle
  | busy
  deriving DecidableEq, Repr

/-- The errors a command can end with (R260). -/
inductive ErrorKind where
  /-- R261. -/
  | invalidInputLength
  /-- R262. -/
  | invalidTableConfiguration
  /-- R263. -/
  | ambiguousPaddingRemoval
  /-- R264. -/
  | illegalCommand
  /-- R265. -/
  | primitiveAbsent
  /-- R266. -/
  | capacityExceeded
  /-- R267. -/
  | illegalOperand
  deriving DecidableEq, Repr

/-- The fields of STATUS but for BUSY, which is `phase` (R41, R58). -/
structure Status where
  done : Bool
  err : Bool
  errCode : BitVec 4
  stickyErr : Bool
  werr : Bool
  fault : Bool
  deriving DecidableEq, Repr

/-- The four words of KEY_EXT or IV_EXT, word 0 the most significant (R50, R51, R75), or their marks. -/
structure Quad (α : Type) where
  w0 : α
  w1 : α
  w2 : α
  w3 : α
  deriving DecidableEq, Repr

/-- The data that hold an unspecified value until they are written (R56): what a "written" mark is kept of. -/
inductive Datum where
  | din
  | din2
  | dout
  | keyToy
  | ivToy
  | keyExt (j : Fin 4)
  | ivExt (j : Fin 4)
  /-- A byte of IN_BUF or OUT_BUF, by its address in the host space (R71). -/
  | byte (addr : Nat)
  deriving DecidableEq, Repr

/-- The written marks of the data registers (R56). The mark of a buffer byte is its entry in `State.mem`. -/
structure Written where
  din : Bool
  din2 : Bool
  dout : Bool
  keyToy : Bool
  ivToy : Bool
  keyExt : Quad Bool
  ivExt : Quad Bool
  deriving DecidableEq, Repr

/-- Why a step stops with a fault. -/
inductive Fault where
  /-- R268, R86: a read of state no write has reached since reset. A step stops with it where a buffer command
  or a host read of a buffer word reads a byte nothing has written (log entry 3); it names the first unwritten read,
  which may be a register's. SAFE: the hardware goes on with some unspecified value there. An unwritten data register
  stops no step: the read is recorded in `State.modelFault` and the run goes on (log entry 2). `modelStep` stops at
  either, as R268 has a model do. -/
  | unwrittenRead (x : Datum)
  deriving DecidableEq, Repr

/-- Why a step has no meaning. -/
inductive Refusal where
  /-- The instruction of this mnemonic has no meaning yet; raised by an arm of `exec` only. SAFE. No arm raises
  it: every command of R103 has its meaning. -/
  | notModelled (mnemonic : String)
  deriving DecidableEq, Repr

/-- What the host port answers to an access (R73, R269, R313). -/
inductive Response where
  | busError
  | written
  | data (v : Word)
  deriving DecidableEq, Repr

/-- IN_BUF and OUT_BUF (R52, R53) as cells of the host space (R71): address and byte. An address with no cell is a
byte nothing has written since reset (R56), and reads as no value. -/
abbrev Memory := List Host.Cell

/-- The canonical form of a memory: addresses strictly rising. -/
abbrev Memory.wf (m : Memory) : Prop := m.Pairwise fun a b => a.1 < b.1

/-- The state of the block and of its host port (R58, and the model's own fields at the end). CTRL and ID have no
storage: they read as constants (R34, R36). CHAIN and the block index exist only inside a command's one step
(R55, R58), so they are arguments of the mode functions and no fields. -/
structure State where
  /-- R39. -/
  phase : Phase
  /-- The command word latched by the last accepted CMD write, what CMD reads (R37, R39). -/
  latched : Word
  /-- R41. -/
  status : Status
  /-- R42. -/
  din : Word
  /-- R43. -/
  din2 : Word
  /-- R44. -/
  dout : Word
  /-- R45. -/
  keyToy : ToyKey
  /-- R46. -/
  ivToy : Block
  /-- SKVALID, K1, K2 (R47). -/
  subkeys : BitVec 17
  /-- R48. -/
  lenIn : BitVec 13
  /-- R49. -/
  lenOut : BitVec 13
  /-- R50. -/
  keyExt : Quad Word
  /-- R51. -/
  ivExt : Quad Word
  /-- R52, R53. -/
  mem : Memory
  /-- R56. -/
  written : Written
  /-- R58, R268: the first read of unwritten state, of a register (`step`) or of a byte as well (`modelStep`); nothing
  clears it. -/
  modelFault : Option Fault
  /-- R31, R54, R35: the configuration. No step changes it (log entry 1). -/
  config : Config
  /-- The model's own: the moves of host and core still to come (R80; log entry 5). -/
  turns : List Turn
  /-- The model's own: what the host port answered to the last access (R313; log entry 6). -/
  response : Option Response
  /-- The model's own: how many free values host reads have drawn while BUSY (R81; log entry 7). -/
  draws : Nat
  deriving DecidableEq, Repr

/-- The outcome of a command or of a step. -/
abbrev Result := Host.Outcome State Fault Refusal

/-- Every mark of R56 cleared. -/
def Written.none : Written where
  din := false
  din2 := false
  dout := false
  keyToy := false
  ivToy := false
  keyExt := ⟨false, false, false, false⟩
  ivExt := ⟨false, false, false, false⟩

/-- The state a reset leaves under a configuration: R291, R292 and the check of R293. The data registers, whose
reset value R292 leaves unspecified, hold zero (log entry 2), with their marks cleared. -/
def State.resetFor (c : Config) : State where
  phase := .idle
  latched := 0
  status := { done := false, err := false, errCode := 0, stickyErr := false, werr := false, fault := !tablesOk c.tbl }
  din := 0
  din2 := 0
  dout := 0
  keyToy := 0
  ivToy := 0
  subkeys := 0
  lenIn := 0
  lenOut := 0
  keyExt := ⟨0, 0, 0, 0⟩
  ivExt := ⟨0, 0, 0, 0⟩
  mem := []
  written := .none
  modelFault := .none
  config := c
  turns := []
  response := .none
  draws := 0

/-- The state after power-on reset (R290) with the default configuration. -/
def State.reset : State := State.resetFor defaultConfig

end Sys2Proof.Machine
end

