-- ==== Sys2Proof/Machine/Flags.lean ====
section
/-! DEFINITION. STATUS, FCPN's only flags (R40, R41; the data path has none): the word the host reads, the write-1-to-clear write, and the update at each event that sets or clears a field. -/

namespace Sys2Proof.Machine

/-- ERRCODE of an error (R260). -/
def ErrorKind.code : ErrorKind → BitVec 4
  | .invalidInputLength => 1
  | .invalidTableConfiguration => 2
  | .ambiguousPaddingRemoval => 3
  | .illegalCommand => 4
  | .primitiveAbsent => 5
  | .capacityExceeded => 6
  | .illegalOperand => 7

/-- STATUS.BUSY (R39, R41). -/
def Phase.busyBit : Phase → Bool
  | .idle => false
  | .busy => true

/-- STATUS as the host reads it (R41): FAULT [10], WERR [9], STICKY_ERR [8], ERRCODE [7:4], 0 [3], ERR [2],
DONE [1], BUSY [0]. -/
def statusWord (p : Phase) (t : Status) : Word :=
  0#21 ++ BitVec.ofBool t.fault ++ BitVec.ofBool t.werr ++ BitVec.ofBool t.stickyErr ++ t.errCode ++ 0#1
    ++ BitVec.ofBool t.err ++ BitVec.ofBool t.done ++ BitVec.ofBool p.busyBit

/-- A host write to STATUS (R40): a 1 in bit 8 clears STICKY_ERR, a 1 in bit 9 clears WERR. -/
def Status.clear (v : Word) (t : Status) : Status :=
  { t with stickyErr := t.stickyErr && !v.getLsbD 8, werr := t.werr && !v.getLsbD 9 }

/-- An accepted CMD write clears DONE, ERR and ERRCODE (R41, R272). -/
def Status.accepted (t : Status) : Status := { t with done := false, err := false, errCode := 0 }

/-- A command that succeeds (R271, `ok()`). -/
def Status.succeeded (t : Status) : Status := { t with done := true, err := false, errCode := 0 }

/-- A command that fails with error E (R271, `raise E`). -/
def Status.failed (e : ErrorKind) (t : Status) : Status :=
  { t with done := true, err := true, errCode := e.code, stickyErr := true }

/-- A host write dropped while BUSY (R274). -/
def Status.dropped (t : Status) : Status := { t with werr := true }

end Sys2Proof.Machine
end

