-- ==== Sys2Proof/Machine/Ops.lean ====
section
/-! DEFINITION. The named operations over memory and registers: bytes of the buffers, written marks, the two endings of a command (R271: `raise` is how FCPN takes an exception), the common checks (R270), the CMD latch, reset, and whose move is next. -/

namespace Sys2Proof.Machine

/-! ## Buffer bytes -/

/-- The first address of IN_BUF (R71). -/
def inBase : Nat := 0x1000

/-- The first address of OUT_BUF (R71). -/
def outBase : Nat := 0x2000

/-- The byte at an address; none where nothing has written it (R56). -/
def Memory.read : Memory → Nat → Option Byte
  | [], _ => none
  | c :: m, a => if c.1 = a then some c.2 else Memory.read m a

/-- A byte stored at an address, keeping the canonical form. -/
def Memory.write : Memory → Nat → Byte → Memory
  | [], a, b => [(a, b)]
  | c :: m, a, b =>
    if a < c.1 then (a, b) :: c :: m
    else if a = c.1 then (a, b) :: m
    else c :: Memory.write m a b

/-- `n` bytes from an address on, in order; the first address nothing has written where there is one (R86). -/
def Memory.readBytes (m : Memory) : Nat → Nat → Except Nat (List Byte)
  | _, 0 => .ok []
  | a, n + 1 =>
    match m.read a with
    | none => .error a
    | some b =>
      match Memory.readBytes m (a + 1) n with
      | .error x => .error x
      | .ok bs => .ok (b :: bs)

/-- Bytes stored from an address on (R87). -/
def Memory.writeBytes (m : Memory) : Nat → List Byte → Memory
  | _, [] => m
  | a, b :: bs => Memory.writeBytes (m.write a b) (a + 1) bs

/-! ## Four-word registers and marks -/

/-- Word j of a four-word register (R75). -/
def Quad.get {α : Type} (q : Quad α) (j : Fin 4) : α :=
  match j with
  | 0 => q.w0
  | 1 => q.w1
  | 2 => q.w2
  | 3 => q.w3

/-- Word j of a four-word register replaced (R75). -/
def Quad.set {α : Type} (q : Quad α) (j : Fin 4) (x : α) : Quad α :=
  match j with
  | 0 => { q with w0 := x }
  | 1 => { q with w1 := x }
  | 2 => { q with w2 := x }
  | 3 => { q with w3 := x }

/-- The 128-bit value of a four-word register: `w0 ++ w1 ++ w2 ++ w3` (R50, R75). -/
def Quad.value (q : Quad Word) : ExtBlock := q.w0 ++ q.w1 ++ q.w2 ++ q.w3

/-- The written mark of a datum (R56). -/
def State.isWritten (s : State) : Datum → Bool
  | .din => s.written.din
  | .din2 => s.written.din2
  | .dout => s.written.dout
  | .keyToy => s.written.keyToy
  | .ivToy => s.written.ivToy
  | .keyExt j => s.written.keyExt.get j
  | .ivExt j => s.written.ivExt.get j
  | .byte a => (s.mem.read a).isSome

/-- A read of a datum: the first read of an unwritten one is recorded in `modelFault` (R58, R268), where nothing
clears it. The run goes on with the value the register holds (log entry 2). -/
def State.noteRead (x : Datum) (s : State) : State :=
  if s.isWritten x || s.modelFault.isSome then s else { s with modelFault := some (.unwrittenRead x) }

/-- The fault of a read of a byte nothing has written (R86, R268). The first unwritten read is the one a fault names,
so one already recorded comes before the byte. -/
def State.unwrittenByte (s : State) (a : Nat) : Fault := s.modelFault.getD (.unwrittenRead (.byte a))

/-- A read of all four words of KEY_EXT (R50). -/
def State.noteKeyExt (s : State) : State :=
  (((s.noteRead (.keyExt 0)).noteRead (.keyExt 1)).noteRead (.keyExt 2)).noteRead (.keyExt 3)

/-- A read of all four words of IV_EXT (R51). -/
def State.noteIvExt (s : State) : State :=
  (((s.noteRead (.ivExt 0)).noteRead (.ivExt 1)).noteRead (.ivExt 2)).noteRead (.ivExt 3)

/-! ## What a command writes -/

/-- DOUT written with a result of any width, zero-extended (R44). -/
def State.setDout {w : Nat} (v : BitVec w) (s : State) : State :=
  { s with dout := v.setWidth 32, written := { s.written with dout := true } }

/-- SUBKEYS written: SKVALID = 1, K1, K2 (R47, R173). -/
def State.setSubkeys (k : Subkey × Subkey) (s : State) : State :=
  { s with subkeys := 1#1 ++ k.1 ++ k.2 }

/-- The output of a buffer command: its bytes in OUT_BUF from byte 0 on, and their number in LEN_OUT (R87). -/
def State.emit (out : List Byte) (s : State) : State :=
  { s with mem := s.mem.writeBytes outBase out, lenOut := BitVec.ofNat 13 out.length }

/-- What XFER writes: the bytes in IN_BUF from byte 0 on, and their number in LEN_IN (R204). -/
def State.load (m : List Byte) (n : BitVec 13) (s : State) : State :=
  { s with mem := s.mem.writeBytes inBase m, lenIn := n }

/-! ## The two endings of a command (R271) -/

/-- `ok()` (R271). -/
def State.ok (s : State) : State := { s with phase := .idle, status := s.status.succeeded }

/-- `raise E` (R271), FCPN's one exception entry: every raise of a command's pseudocode comes before its first
write, so there is nothing to discard, and only STATUS is written. Nothing is saved and control goes nowhere (R272). -/
def State.raise (e : ErrorKind) (s : State) : State := { s with phase := .idle, status := s.status.failed e }

/-- The command succeeds. -/
def State.succeed (s : State) : Result := .next s.ok

/-- The command fails with error E. -/
def State.fail (e : ErrorKind) (s : State) : Result := .next (s.raise e)

/-! ## The common checks (R270) -/

/-- R270 items 1 and 3 before a command's own body: FAULT, then PRIM = 1 with no external primitive. -/
def command (p : Prim) (s : State) (body : State → Result) : Result :=
  if s.status.fault then s.fail .invalidTableConfiguration
  else if p = .ext ∧ s.config.extPresent = false then s.fail .primitiveAbsent
  else body s

/-- R270 items 1 and 2 for a latched word that encodes no command. -/
def illegalCommand (s : State) : Result :=
  if s.status.fault then s.fail .invalidTableConfiguration else s.fail .illegalCommand

/-! ## The command latch, reset, and whose move is next -/

/-- An accepted CMD write (R37, R39, R41): the word is latched, BUSY is set, and the last command's outcome is
cleared. It stands where another machine returns from an exception (R272). -/
def State.acceptCommand (w : Word) (s : State) : State :=
  { s with latched := w, phase := .busy, status := s.status.accepted }

/-- The command the latched word encodes (R84, R104): FCPN's whole instruction fetch. -/
def State.fetch (s : State) : Except IllegalWord Instr := decode s.latched

/-- A soft reset (R290, R294): the state a power-on reset leaves, but for the configuration and the model fault.
The moves still to come, the last response and the number of draws are the model's own and stay. -/
def State.softReset (s : State) : State :=
  { State.resetFor s.config with
    modelFault := s.modelFault, turns := s.turns, response := s.response, draws := s.draws }

/-- What the next step does (R80). -/
inductive Move where
  /-- The core performs the latched command. -/
  | core
  /-- The host makes an access. -/
  | host (a : Access)
  /-- Nothing is latched and no access is to come. -/
  | rest
  deriving DecidableEq, Repr

/-- The move a turn stands for: a core turn performs a latched command, and is nothing while Idle (R80 item 3). -/
def State.coreMove (s : State) : Move :=
  match s.phase with
  | .busy => .core
  | .idle => .rest

/-- The next move, and the state without its turn. With no turn left the host has made its last access: the core's
step is then the one event still to come where a command is latched, and an Idle block rests, its run ended (R314). -/
def State.nextMove (s : State) : Move × State :=
  match s.turns with
  | [] => (s.coreMove, s)
  | .core :: rest => (s.coreMove, { s with turns := rest })
  | .host a :: rest => (.host a, { s with turns := rest })

/-- A free value for a host read made while BUSY (R81, U1). -/
def State.draw (s : State) : Word × State := (Config.freeRead s.draws, { s with draws := s.draws + 1 })

end Sys2Proof.Machine
end

