-- ==== Sys2Proof/Machine/Bus.lean ====
section
/-! DEFINITION. The host port: the register map (R32), what a host read returns and what a host write does, Idle and BUSY (R72 to R81). -/

namespace Sys2Proof.Machine

/-- What an address of the host space names (R32, R71). -/
inductive Loc where
  | id
  | cfg
  | ctrl
  | status
  | cmd
  | din
  | din2
  | dout
  | keyToy
  | ivToy
  | subkeys
  | lenIn
  | lenOut
  | keyExt (j : Fin 4)
  | ivExt (j : Fin 4)
  /-- The word of IN_BUF whose first byte is byte `i`. -/
  | inBuf (i : Nat)
  /-- The word of OUT_BUF whose first byte is byte `i`. -/
  | outBuf (i : Nat)
  | reserved
  deriving DecidableEq, Repr

/-- The register map (R32). -/
def registerMap : List (Nat × Loc) :=
  [(0x000, .id), (0x004, .cfg), (0x008, .ctrl), (0x00C, .status), (0x010, .cmd), (0x014, .din), (0x018, .din2),
   (0x01C, .dout), (0x020, .keyToy), (0x024, .ivToy), (0x028, .subkeys), (0x02C, .lenIn), (0x030, .lenOut),
   (0x040, .keyExt 0), (0x044, .keyExt 1), (0x048, .keyExt 2), (0x04C, .keyExt 3),
   (0x050, .ivExt 0), (0x054, .ivExt 1), (0x058, .ivExt 2), (0x05C, .ivExt 3)]

/-- The address map (R33, R71): a register, a buffer word below MSG_CAP, or reserved. -/
def locate (cap a : Nat) : Loc :=
  match registerMap.lookup a with
  | some l => l
  | none =>
    if inBase ≤ a ∧ a < inBase + cap then .inBuf (a - inBase)
    else if outBase ≤ a ∧ a < outBase + cap then .outBuf (a - outBase)
    else .reserved

/-- The ID constant (R34). -/
def idWord : Word := 0x46435031#32

/-- CFG as the host reads it (R35): MSG_CAP in [28:16], EXT_PRESENT in [0]. -/
def cfgWord (c : Config) : Word := 0#3 ++ BitVec.ofNat 13 c.msgCap ++ 0#15 ++ BitVec.ofBool c.extPresent

/-- The 32-bit word of four buffer bytes, the lowest address in bits [31:24] (R74). -/
def readWord (s : State) (a : Nat) : Except Fault Word :=
  match s.mem.readBytes a 4 with
  | .error x => .error (s.unwrittenByte x)
  | .ok bs => .ok (fromBytes 32 bs)

/-- A host read's value and state: a result register or an OUT_BUF word reads as a free value while BUSY (R81), and
any other location as what it holds. A read of an unwritten data register is recorded (R268). -/
def hostRead (l : Loc) (s : State) : Except Fault (Word × State) :=
  match l with
  | .id => .ok (idWord, s)
  | .cfg => .ok (cfgWord s.config, s)
  | .ctrl => .ok (0, s)
  | .status => .ok (statusWord s.phase s.status, s)
  | .cmd => .ok (s.latched, s)
  | .din => .ok (s.din, s.noteRead .din)
  | .din2 => .ok (s.din2, s.noteRead .din2)
  | .dout => if s.phase = .busy then .ok s.draw else .ok (s.dout, s.noteRead .dout)
  | .keyToy => .ok (s.keyToy.setWidth 32, s.noteRead .keyToy)
  | .ivToy => .ok (s.ivToy.setWidth 32, s.noteRead .ivToy)
  | .subkeys => if s.phase = .busy then .ok s.draw else .ok (s.subkeys.setWidth 32, s)
  | .lenIn => .ok (s.lenIn.setWidth 32, s)
  | .lenOut => if s.phase = .busy then .ok s.draw else .ok (s.lenOut.setWidth 32, s)
  | .keyExt j => .ok (s.keyExt.get j, s.noteRead (.keyExt j))
  | .ivExt j => .ok (s.ivExt.get j, s.noteRead (.ivExt j))
  | .inBuf i => (readWord s (inBase + i)).map fun v => (v, s)
  | .outBuf i => if s.phase = .busy then .ok s.draw else (readWord s (outBase + i)).map fun v => (v, s)
  | .reserved => .ok (0, s)

/-- A host write while Idle to any location but CTRL and STATUS (R37, R42 to R53): stored and marked written, or
ignored where the location is read-only or reserved. A KEY_TOY write clears SKVALID (R174). -/
def writeIdle (l : Loc) (v : Word) (s : State) : State :=
  match l with
  | .cmd => s.acceptCommand v
  | .din => { s with din := v, written := { s.written with din := true } }
  | .din2 => { s with din2 := v, written := { s.written with din2 := true } }
  | .keyToy =>
    { s with
      keyToy := v.setWidth 10
      written := { s.written with keyToy := true }
      subkeys := 0#1 ++ s.subkeys.extractLsb' 0 16 }
  | .ivToy => { s with ivToy := v.setWidth 8, written := { s.written with ivToy := true } }
  | .lenIn => { s with lenIn := v.setWidth 13 }
  | .keyExt j =>
    { s with keyExt := s.keyExt.set j v, written := { s.written with keyExt := s.written.keyExt.set j true } }
  | .ivExt j =>
    { s with ivExt := s.ivExt.set j v, written := { s.written with ivExt := s.written.ivExt.set j true } }
  | .inBuf i => { s with mem := s.mem.writeBytes (inBase + i) (toBytes v) }
  | .id => s
  | .cfg => s
  | .ctrl => s
  | .status => s
  | .dout => s
  | .subkeys => s
  | .lenOut => s
  | .outBuf _ => s
  | .reserved => s

/-- A host write: CTRL and STATUS are written at any time (R36, R40); any other write is dropped while BUSY, and
sets WERR (R81, R274). -/
def hostWrite (l : Loc) (v : Word) (s : State) : State :=
  if l = .ctrl then (if v.getLsbD 0 then s.softReset else s)
  else if l = .status then { s with status := s.status.clear v }
  else if s.phase = .busy then { s with status := s.status.dropped }
  else writeIdle l v s

/-- One host access (R72): a bus error, with no other effect, unless it is 32 bits wide and aligned (R73). -/
def hostAccess (a : Access) (s : State) : Result :=
  if a.width ≠ 32 ∨ a.addr.extractLsb' 0 2 ≠ 0 then .next { s with response := some .busError }
  else
    match a.kind with
    | .read =>
      match hostRead (locate s.config.msgCap a.addr.toNat) s with
      | .error f => .fault f
      | .ok (v, s') => .next { s' with response := some (.data v) }
    | .write v => .next { hostWrite (locate s.config.msgCap a.addr.toNat) v s with response := some .written }

end Sys2Proof.Machine
end

