-- ==== Sys2Proof/Machine/Operands.lean ====
section
/-! DEFINITION. Every operand form of R102: a right-aligned operand of DIN or DIN2, a key and an IV of either primitive, a length, and a message in IN_BUF. -/

namespace Sys2Proof.Machine

/-- Operand A of a component command (R42): the low `n` bits of DIN, or IllegalOperand (R267). -/
def withDin (n : Nat) (s : State) (body : BitVec n → State → Result) : Result :=
  let s := s.noteRead .din
  match narrow n s.din with
  | none => s.fail .illegalOperand
  | some x => body x s

/-- Operands A and B of ROUND_F (R161): both are read before either is checked. -/
def withDinDin2 (n m : Nat) (s : State) (body : BitVec n → BitVec m → State → Result) : Result :=
  let s := (s.noteRead .din).noteRead .din2
  match narrow n s.din, narrow m s.din2 with
  | some x, some y => body x y s
  | _, _ => s.fail .illegalOperand

/-- B, the block size of a primitive in bytes (R101). -/
def Prim.blockBytes : Prim → Nat
  | .toy => 1
  | .ext => 16

/-- The message unit of CFB in bytes (R222). -/
def Prim.segmentUnit : Prim → Nat
  | .toy => 1
  | .ext => 8

/-- LEN_IN as a message length: CapacityExceeded where it is above MSG_CAP (R222, R266). -/
def withLength (s : State) (body : Nat → State → Result) : Result :=
  if s.lenIn.toNat > s.config.msgCap then s.fail .capacityExceeded else body s.lenIn.toNat s

/-- The first `n` bytes from `base` on, or the fault of R86 at the first that nothing has written. -/
def withBytes (base n : Nat) (s : State) (body : List Byte → Result) : Result :=
  match s.mem.readBytes base n with
  | .error a => .fault (s.unwrittenByte a)
  | .ok m => body m

/-- A read of the key register of a primitive (R220). -/
def State.noteKey (p : Prim) (s : State) : State :=
  match p with
  | .toy => s.noteRead .keyToy
  | .ext => s.noteKeyExt

/-- A read of the IV register of a primitive (R101). -/
def State.noteIv (p : Prim) (s : State) : State :=
  match p with
  | .toy => s.noteRead .ivToy
  | .ext => s.noteIvExt

end Sys2Proof.Machine
end

