-- ==== Sys2Proof/Machine/KeySchedule.lean ====
section
/-! DEFINITION. The key schedule KS (R170), its default (R171), and KEYSCHED (R173). -/

namespace Sys2Proof.Machine

/-- P10 (R171). -/
def p10 : List Nat := [2, 4, 1, 6, 3, 9, 0, 8, 7, 5]

/-- P8 (R171). -/
def p8 : List Nat := [5, 2, 6, 3, 7, 4, 9, 8]

/-- R171: a 5-bit value rotated left by n. -/
def rol5 (x : BitVec 5) (n : Nat) : BitVec 5 := (x <<< n) ||| (x >>> (5 - n))

/-- The default `KS` (R171): the subkeys K1 and K2 of a key. -/
def standardSchedule (key : ToyKey) : Subkey × Subkey :=
  let p : BitVec 10 := permute 10 key p10
  let l1 := rol5 (p.extractLsb' 5 5) 1
  let r1 := rol5 (p.extractLsb' 0 5) 1
  let l2 := rol5 l1 2
  let r2 := rol5 r1 2
  (permute 8 (l1 ++ r1) p8, permute 8 (l2 ++ r2) p8)

/-- `KS` (R170): the subkeys K1 and K2 of a key under a configuration's schedule. -/
def ks (schedule : KeySchedule) (key : ToyKey) : Subkey × Subkey :=
  match schedule with
  | .standard => standardSchedule key
  | .listed values => values[key.toNat]

/-- KEYSCHED (R173): SUBKEYS, and K1 ++ K2 in DOUT. -/
def execKeysched (s : State) : Result :=
  command .toy s fun s =>
    let s := s.noteRead .keyToy
    let k := ks s.config.ks s.keyToy
    ((s.setSubkeys k).setDout (k.1 ++ k.2)).succeed

end Sys2Proof.Machine
end

