-- ==== Sys2Proof/Machine/Substitution.lean ====
section
/-! DEFINITION. The substitution primitive (R150) and the S-box commands (R152, R153). -/

namespace Sys2Proof.Machine

/-- R150: the entry at row 2*n<0> + n<3> and column 2*n<1> + n<2>. -/
def substitute (n : Half) (box : List (List Nat)) : BitVec 2 :=
  let row := 2 * (n.getMsbD 0).toNat + (n.getMsbD 3).toNat
  let col := 2 * (n.getMsbD 1).toNat + (n.getMsbD 2).toNat
  BitVec.ofNat 2 ((box.getD row []).getD col 0)

/-- SBOX0 (R152). -/
def execSbox0 (s : State) : Result :=
  command .toy s fun s => withDin 4 s fun n s => (s.setDout (substitute n s.config.tbl.s0)).succeed

/-- SBOX1 (R153). -/
def execSbox1 (s : State) : Result :=
  command .toy s fun s => withDin 4 s fun n s => (s.setDout (substitute n s.config.tbl.s1)).succeed

end Sys2Proof.Machine
end

