-- ==== Sys2Proof/Machine/RoundFunction.lean ====
section
/-! DEFINITION. The Feistel round function (R160) and ROUND_F (R161). -/

namespace Sys2Proof.Machine

/-- F (R160): expand, mix the subkey, substitute each half, compact. -/
def roundF (t : Tables) (h : Half) (k : Subkey) : Half :=
  let e : BitVec 8 := permute 8 h t.ep ^^^ k
  let a := substitute (e.extractLsb' 4 4) t.s0
  let b := substitute (e.extractLsb' 0 4) t.s1
  permute 4 (a ++ b) t.p4

/-- ROUND_F (R161). -/
def execRoundF (s : State) : Result :=
  command .toy s fun s => withDinDin2 4 8 s fun h k s => (s.setDout (roundF s.config.tbl h k)).succeed

end Sys2Proof.Machine
end

