-- ==== Sys2Proof/Machine/ToyCipher.lean ====
section
/-! DEFINITION. The toy block cipher (R180, R181) and its commands (R182, R183). -/

namespace Sys2Proof.Machine

/-- R180: two Feistel rounds between IP and IPINV, with the half-swap after round 1 only. -/
def feistel (t : Tables) (p : Block) (ka kb : Subkey) : Block :=
  let x : BitVec 8 := permute 8 p t.ip
  let l0 : Half := x.extractLsb' 4 4
  let r0 : Half := x.extractLsb' 0 4
  let l1 := r0
  let r1 := l0 ^^^ roundF t r0 ka
  let l2 := l1 ^^^ roundF t r1 kb
  let r2 := r1
  permute 8 (l2 ++ r2) t.ipinv

/-- E (R180), under a configuration's TBL and KS. -/
def toyEncrypt (c : Config) (key : ToyKey) (p : Block) : Block := feistel c.tbl p (ks c.ks key).1 (ks c.ks key).2

/-- D (R181): the subkeys in the other order. -/
def toyDecrypt (c : Config) (key : ToyKey) (b : Block) : Block := feistel c.tbl b (ks c.ks key).2 (ks c.ks key).1

/-- TOY_ENC (R182). -/
def execToyEnc (s : State) : Result :=
  command .toy s fun s => withDin 8 s fun p s =>
    let s := s.noteRead .keyToy
    (s.setDout (toyEncrypt s.config s.keyToy p)).succeed

/-- TOY_DEC (R183). -/
def execToyDec (s : State) : Result :=
  command .toy s fun s => withDin 8 s fun c s =>
    let s := s.noteRead .keyToy
    (s.setDout (toyDecrypt s.config s.keyToy c)).succeed

/-- The constraint R172 puts on TBL and KS together: E gives the three values the source fixes (R185). No command checks
it. -/
def goldenVector (c : Config) : Bool :=
  toyEncrypt c 0b0111111101#10 0b00000000#8 = 0b00111001#8 ∧
  toyEncrypt c 0b0111111101#10 0b00000001#8 = 0b01001101#8 ∧
  toyEncrypt c 0b0111111101#10 0b00000010#8 = 0b00110110#8

end Sys2Proof.Machine
end

