-- ==== Sys2Proof/Machine/Modes.lean ====
section
/-! DEFINITION. The modes of operation (R220 to R232): each a function that threads CHAIN over the blocks or segments, and the commands that run them over either primitive. -/

namespace Sys2Proof.Machine

/-! ## The modes over a list of blocks or segments -/

/-- ECB (R224, R225): each block on its own. -/
def ecb {w : Nat} (f : BitVec w → BitVec w) (xs : List (BitVec w)) : List (BitVec w) := xs.map f

/-- CBC encryption (R226). -/
def cbcEncrypt {w : Nat} (enc : BitVec w → BitVec w) : BitVec w → List (BitVec w) → List (BitVec w)
  | _, [] => []
  | chain, x :: xs => enc (x ^^^ chain) :: cbcEncrypt enc (enc (x ^^^ chain)) xs

/-- CBC decryption (R227). -/
def cbcDecrypt {w : Nat} (dec : BitVec w → BitVec w) : BitVec w → List (BitVec w) → List (BitVec w)
  | _, [] => []
  | chain, x :: xs => (dec x ^^^ chain) :: cbcDecrypt dec x xs

/-- The feedback register after the ciphertext segment c (R228): the leading bits go, c is appended at the end. -/
def feedback {w s : Nat} (fr : BitVec w) (c : BitVec s) : BitVec w := (fr <<< s) ||| c.setWidth w

/-- CFB encryption (R228, R229): the output segment is fed back. -/
def cfbEncrypt {w s : Nat} (enc : BitVec w → BitVec w) : BitVec w → List (BitVec s) → List (BitVec s)
  | _, [] => []
  | fr, x :: xs => (x ^^^ lead s (enc fr)) :: cfbEncrypt enc (feedback fr (x ^^^ lead s (enc fr))) xs

/-- CFB decryption (R228, R230): the input segment is fed back. -/
def cfbDecrypt {w s : Nat} (enc : BitVec w → BitVec w) : BitVec w → List (BitVec s) → List (BitVec s)
  | _, [] => []
  | fr, x :: xs => (x ^^^ lead s (enc fr)) :: cfbDecrypt enc (feedback fr x) xs

/-- CTR, both directions (R231, R232): the counter goes up by 1 modulo 2^w. -/
def ctr {w : Nat} (enc : BitVec w → BitVec w) : BitVec w → List (BitVec w) → List (BitVec w)
  | _, [] => []
  | count, x :: xs => (x ^^^ enc count) :: ctr enc (count + 1) xs

/-! ## The commands -/

/-- A block primitive under its key, with the IV or counter seed of a command (R220). -/
structure Engine (w : Nat) where
  enc : BitVec w → BitVec w
  dec : BitVec w → BitVec w
  iv : BitVec w

/-- PRIM = 0 (R101, R220). -/
def State.toyEngine (s : State) : Engine 8 where
  enc := toyEncrypt s.config s.keyToy
  dec := toyDecrypt s.config s.keyToy
  iv := s.ivToy

/-- PRIM = 1 (R101, R220). -/
def State.extEngine (s : State) : Engine 128 where
  enc := Config.extEnc s.keyExt.value
  dec := Config.extDec s.keyExt.value
  iv := s.ivExt.value

/-- A mode command (R221, R222): the length checks, the key and (but for ECB) the IV read, the message read and
transformed, the result written. -/
def modeCommand (p : Prim) (messageUnit : Nat) (usesIv : Bool) (toy : Engine 8 → List Byte → List Byte)
    (ext : Engine 128 → List Byte → List Byte) (s : State) : Result :=
  command p s fun s => withLength s fun n s =>
    if n % messageUnit ≠ 0 then s.fail .invalidInputLength
    else
      let s := if usesIv then (s.noteKey p).noteIv p else s.noteKey p
      withBytes inBase n s fun m =>
        match p with
        | .toy => (s.emit (toy s.toyEngine m)).succeed
        | .ext => (s.emit (ext s.extEngine m)).succeed

/-- A mode over whole blocks: ECB, CBC, CTR (R223). -/
def blockMode (p : Prim) (usesIv : Bool) (f : (w : Nat) → Engine w → List (BitVec w) → List (BitVec w))
    (s : State) : Result :=
  modeCommand p (Prim.blockBytes p) usesIv (fun e m => bytesOf (f 8 e (blocksOf 8 m)))
    (fun e m => bytesOf (f 128 e (blocksOf 128 m))) s

/-- CFB (R228): 4-bit segments for the toy primitive, 64-bit segments for the external one. -/
def segmentMode (p : Prim) (f : (w k : Nat) → Engine w → List (BitVec k) → List (BitVec k)) (s : State) : Result :=
  modeCommand p (Prim.segmentUnit p) true (fun e m => bytesOfNibbles (f 8 4 e (nibblesOf m)))
    (fun e m => bytesOf (f 128 64 e (blocksOf 64 m))) s

/-- ECB_ENC (R224). -/
def execEcbEnc (p : Prim) (s : State) : Result := blockMode p false (fun _ e xs => ecb e.enc xs) s

/-- ECB_DEC (R225). -/
def execEcbDec (p : Prim) (s : State) : Result := blockMode p false (fun _ e xs => ecb e.dec xs) s

/-- CBC_ENC (R226). -/
def execCbcEnc (p : Prim) (s : State) : Result := blockMode p true (fun _ e xs => cbcEncrypt e.enc e.iv xs) s

/-- CBC_DEC (R227). -/
def execCbcDec (p : Prim) (s : State) : Result := blockMode p true (fun _ e xs => cbcDecrypt e.dec e.iv xs) s

/-- CFB_ENC (R229). -/
def execCfbEnc (p : Prim) (s : State) : Result := segmentMode p (fun _ _ e xs => cfbEncrypt e.enc e.iv xs) s

/-- CFB_DEC (R230). -/
def execCfbDec (p : Prim) (s : State) : Result := segmentMode p (fun _ _ e xs => cfbDecrypt e.enc e.iv xs) s

/-- CTR_ENC (R231). -/
def execCtrEnc (p : Prim) (s : State) : Result := blockMode p true (fun _ e xs => ctr e.enc e.iv xs) s

/-- CTR_DEC (R232). -/
def execCtrDec (p : Prim) (s : State) : Result := blockMode p true (fun _ e xs => ctr e.enc e.iv xs) s

end Sys2Proof.Machine
end

