-- ==== Sys2Proof/Machine/Padding.lean ====
section
/-! DEFINITION. Padding and its removal (R200 to R203), and XFER (R204). -/

namespace Sys2Proof.Machine

/-- The number of 0x00 bytes after the 0x80 marker (R200). -/
def padZeros (blockBytes n : Nat) : Nat := blockBytes - 1 - n % blockBytes

/-- `pad` (R200): the marker is always appended. -/
def pad (blockBytes : Nat) (m : List Byte) : List Byte :=
  m ++ 0x80#8 :: List.replicate (padZeros blockBytes m.length) 0x00#8

/-- PAD (R201). -/
def execPad (p : Prim) (s : State) : Result :=
  command p s fun s => withLength s fun n s =>
    if n + (Prim.blockBytes p - n % Prim.blockBytes p) > s.config.msgCap then s.fail .capacityExceeded
    else withBytes inBase n s fun m => (s.emit (pad (Prim.blockBytes p) m)).succeed

/-- UNPAD_LEN (R202): the whole of DIN is the original length. -/
def execUnpadLen (s : State) : Result :=
  command .toy s fun s => withLength s fun n s =>
    let s := s.noteRead .din
    if s.din.toNat > n then s.fail .invalidInputLength
    else withBytes inBase s.din.toNat s fun m => (s.emit m).succeed

/-- The scan of R203 over the `k` bytes from address `lo` on, from the last one down: the number of bytes before
the marker, none where a byte other than 0x00 and 0x80 comes first or no byte is left, and the address of a byte
nothing has written where the scan meets one. -/
def scanMarker (m : Memory) (lo : Nat) : Nat → Except Nat (Option Nat)
  | 0 => .ok none
  | k + 1 =>
    match m.read (lo + k) with
    | none => .error (lo + k)
    | some b => if b = 0x00#8 then scanMarker m lo k else if b = 0x80#8 then .ok (some k) else .ok none

/-- UNPAD_SCAN (R203): the scan looks at the last block only, the copy at the bytes before the marker. -/
def execUnpadScan (p : Prim) (s : State) : Result :=
  command p s fun s => withLength s fun n s =>
    if n = 0 ∨ n % Prim.blockBytes p ≠ 0 then s.fail .invalidInputLength
    else
      match scanMarker s.mem (inBase + (n - Prim.blockBytes p)) (Prim.blockBytes p) with
      | .error a => .fault (s.unwrittenByte a)
      | .ok none => s.fail .ambiguousPaddingRemoval
      | .ok (some k) => withBytes inBase (n - Prim.blockBytes p + k) s fun m => (s.emit m).succeed

/-- XFER (R204). -/
def execXfer (s : State) : Result :=
  command .toy s fun s => withBytes outBase s.lenOut.toNat s fun m => (s.load m s.lenOut).succeed

end Sys2Proof.Machine
end

