-- ==== Sys2Proof/Machine/Permutation.lean ====
section
/-! DEFINITION. The permutation commands (R134 to R137) over the primitive of R130. -/

namespace Sys2Proof.Machine

/-- PERM_IP (R134). -/
def execPermIp (s : State) : Result :=
  command .toy s fun s => withDin 8 s fun x s => (s.setDout (permute 8 x s.config.tbl.ip)).succeed

/-- PERM_IPINV (R135). -/
def execPermIpinv (s : State) : Result :=
  command .toy s fun s => withDin 8 s fun x s => (s.setDout (permute 8 x s.config.tbl.ipinv)).succeed

/-- PERM_EP (R136), 4 to 8 bits. -/
def execPermEp (s : State) : Result :=
  command .toy s fun s => withDin 4 s fun h s => (s.setDout (permute 8 h s.config.tbl.ep)).succeed

/-- PERM_P4 (R137), 4 to 4 bits. -/
def execPermP4 (s : State) : Result :=
  command .toy s fun s => withDin 4 s fun h s => (s.setDout (permute 4 h s.config.tbl.p4)).succeed

end Sys2Proof.Machine
end

