-- ==== Sys2Proof/Machine/Dispatch.lean ====
section
/-! DEFINITION. One arm per command: the meaning of each. -/

namespace Sys2Proof.Machine

def exec (i : Instr) (s : State) : Host.Outcome State Fault Refusal :=
  match i with
  | .permIp => Sys2Proof.Machine.execPermIp s
  | .permIpinv => Sys2Proof.Machine.execPermIpinv s
  | .permEp => Sys2Proof.Machine.execPermEp s
  | .permP4 => Sys2Proof.Machine.execPermP4 s
  | .sbox0 => Sys2Proof.Machine.execSbox0 s
  | .sbox1 => Sys2Proof.Machine.execSbox1 s
  | .roundF => Sys2Proof.Machine.execRoundF s
  | .keysched => Sys2Proof.Machine.execKeysched s
  | .toyEnc => Sys2Proof.Machine.execToyEnc s
  | .toyDec => Sys2Proof.Machine.execToyDec s
  | .pad p => Sys2Proof.Machine.execPad p s
  | .unpadLen => Sys2Proof.Machine.execUnpadLen s
  | .unpadScan p => Sys2Proof.Machine.execUnpadScan p s
  | .xfer => Sys2Proof.Machine.execXfer s
  | .ecbEnc p => Sys2Proof.Machine.execEcbEnc p s
  | .ecbDec p => Sys2Proof.Machine.execEcbDec p s
  | .cbcEnc p => Sys2Proof.Machine.execCbcEnc p s
  | .cbcDec p => Sys2Proof.Machine.execCbcDec p s
  | .cfbEnc p => Sys2Proof.Machine.execCfbEnc p s
  | .cfbDec p => Sys2Proof.Machine.execCfbDec p s
  | .ctrEnc p => Sys2Proof.Machine.execCtrEnc p s
  | .ctrDec p => Sys2Proof.Machine.execCtrDec p s

end Sys2Proof.Machine
end

