-- ==== Sys2Proof/Machine/Step.lean ====
section
/-! DEFINITION. One step of the block and its host (R80): the core performs the latched command whole, or the host makes one access. -/

namespace Sys2Proof.Machine

/-- The core's step for the latched command (R270). -/
def coreStep (s : State) : Host.Outcome State Fault Refusal :=
  match s.fetch with
  | .error _ => illegalCommand s
  | .ok i => exec i s

/-- One event of the total order of R80. -/
def step (s : State) : Host.Outcome State Fault Refusal :=
  match s.nextMove with
  | (.core, t) => coreStep t
  | (.host a, t) => hostAccess a t
  | (.rest, t) => .next t

/-- `s` with the command word `w` accepted at CMD (R37, R84) and the core's turn next, so that the next step performs
exactly that command. -/
def State.withFetchWord (s : State) (nbits w : Nat) : State :=
  { s.acceptCommand (BitVec.ofNat 32 (w % 2 ^ nbits)) with turns := .core :: s.turns }

end Sys2Proof.Machine
end

