-- ==== Sys2Proof/Machine/Execution.lean ====
section
/-! DEFINITION. Runs: the step that a recorded model fault stops (R268), where a run ends (R314), and executions without end with the fairness assumed of them (R312). -/

namespace Sys2Proof.Machine

/-! ## Runs that a model fault ends (R268, R314) -/

/-- One step as R268 has a model make it: a step that reads unwritten state, register or byte, stops with the fault
recorded and nothing else written, and a faulted model makes no further step. -/
def modelStep (s : State) : State :=
  match s.modelFault with
  | some _ => s
  | none =>
    match step s with
    | .next t =>
      match t.modelFault with
      | some f => { s with modelFault := some f }
      | none => t
    | .fault f => { s with modelFault := some f }
    | .refused _ => s

/-- `n` such steps. -/
def modelRun : Nat → State → State
  | 0, s => s
  | n + 1, s => modelRun n (modelStep s)

/-- A run has ended (R314): the host has made its last access, the block is Idle, and no model fault is set. -/
def State.ended (s : State) : Prop := s.turns = [] ∧ s.phase = .idle ∧ s.modelFault = none

/-- The run of the host program in `s.turns` ends, with observation `t` (R314). -/
def State.runEnds (s t : State) : Prop := ∃ n, modelRun n s = t ∧ t.ended

/-! ## Executions (R80, R312) -/

/-- The state in which `e` is the event that happens next, ahead of any other turn. -/
def State.withTurn (e : Turn) (s : State) : State := { s with turns := e :: s.turns }

/-- An execution: states and events without end, each event a step (R80). The host's accesses and the core's turns
come in any order, and the host may make accesses for ever; a run that has ended goes on with idle core turns. -/
def isExecution (state : Nat → State) (event : Nat → Turn) : Prop :=
  ∀ n, step ((state n).withTurn (event n)) = .next (state (n + 1))

/-- Weak fairness of the core step (R312), an assumption on executions: if the phase stays Busy, the core step
eventually happens. -/
def weaklyFair (state : Nat → State) (event : Nat → Turn) : Prop :=
  ∀ n, (∀ m, n ≤ m → (state m).phase = .busy) → ∃ m, n ≤ m ∧ event m = .core

end Sys2Proof.Machine
end

