-- ==== Sys2Proof/Machine/Reads.lean ====
section
/-! DEFINITION. The data a step reads, in order, as the pseudocode of each command and the map of host reads give them (R58, R86, R268). No step consults them: claims say of `exec`, `hostAccess` and `step` that these are the data they read. -/

namespace Sys2Proof.Machine

/-- `n` buffer bytes from an address on, in order. -/
def bytesFrom (a : Nat) : Nat → List Datum
  | 0 => []
  | n + 1 => .byte a :: bytesFrom (a + 1) n

/-- The key of a primitive (R220), word 0 first (log entry 15). -/
def keyData : Prim → List Datum
  | .toy => [.keyToy]
  | .ext => [.keyExt 0, .keyExt 1, .keyExt 2, .keyExt 3]

/-- The IV of a primitive (R101), word 0 first (log entry 15). -/
def ivData : Prim → List Datum
  | .toy => [.ivToy]
  | .ext => [.ivExt 0, .ivExt 1, .ivExt 2, .ivExt 3]

/-- The reads of a command after the common checks (R270 items 1 and 3), which read no datum. -/
def checkedReads (p : Prim) (s : State) (l : List Datum) : List Datum :=
  if s.status.fault ∨ (p = .ext ∧ s.config.extPresent = false) then [] else l

/-- The reads of a buffer command after those checks and LEN_IN ≤ MSG_CAP (R86). -/
def bufferReads (p : Prim) (s : State) (l : List Datum) : List Datum :=
  checkedReads p s (if s.lenIn.toNat > s.config.msgCap then [] else l)

/-- The reads of a mode command (R220, R222): after the length check its key, its IV where it has one, its message. -/
def modeReads (p : Prim) (messageUnit : Nat) (iv : List Datum) (s : State) : List Datum :=
  bufferReads p s
    (if s.lenIn.toNat % messageUnit ≠ 0 then [] else keyData p ++ iv ++ bytesFrom inBase s.lenIn.toNat)

/-- The reads of TOY_ENC and TOY_DEC (R182, R183): DIN, and KEY_TOY where DIN fits. -/
def toyReads (s : State) : List Datum :=
  checkedReads .toy s (if s.din.extractLsb' 8 24 = 0 then [.din, .keyToy] else [.din])

/-- The reads of UNPAD_SCAN (R203) over the `k` bytes from address `lo` on: from the last one down while they are 0x00,
and, where the byte after that is 0x80, every byte of IN_BUF before it. -/
def scanReads (m : Memory) (lo : Nat) : Nat → List Datum
  | 0 => []
  | k + 1 => .byte (lo + k) ::
    if m.read (lo + k) = some 0x00#8 then scanReads m lo k
    else if m.read (lo + k) = some 0x80#8 then bytesFrom inBase (lo + k - inBase)
    else []

/-- The data a command reads (R86, R102), in the order of its pseudocode. -/
def commandReads (i : Instr) (s : State) : List Datum :=
  match i with
  | .permIp => checkedReads .toy s [.din]
  | .permIpinv => checkedReads .toy s [.din]
  | .permEp => checkedReads .toy s [.din]
  | .permP4 => checkedReads .toy s [.din]
  | .sbox0 => checkedReads .toy s [.din]
  | .sbox1 => checkedReads .toy s [.din]
  | .roundF => checkedReads .toy s [.din, .din2]
  | .keysched => checkedReads .toy s [.keyToy]
  | .toyEnc => toyReads s
  | .toyDec => toyReads s
  | .pad p => bufferReads p s
      (if s.lenIn.toNat + (Prim.blockBytes p - s.lenIn.toNat % Prim.blockBytes p) > s.config.msgCap then []
       else bytesFrom inBase s.lenIn.toNat)
  | .unpadLen => bufferReads .toy s
      (.din :: if s.din.toNat > s.lenIn.toNat then [] else bytesFrom inBase s.din.toNat)
  | .unpadScan p => bufferReads p s
      (if s.lenIn.toNat = 0 ∨ s.lenIn.toNat % Prim.blockBytes p ≠ 0 then []
       else scanReads s.mem (inBase + (s.lenIn.toNat - Prim.blockBytes p)) (Prim.blockBytes p))
  | .xfer => checkedReads .toy s (bytesFrom outBase s.lenOut.toNat)
  | .ecbEnc p => modeReads p (Prim.blockBytes p) [] s
  | .ecbDec p => modeReads p (Prim.blockBytes p) [] s
  | .cbcEnc p => modeReads p (Prim.blockBytes p) (ivData p) s
  | .cbcDec p => modeReads p (Prim.blockBytes p) (ivData p) s
  | .cfbEnc p => modeReads p (Prim.segmentUnit p) (ivData p) s
  | .cfbDec p => modeReads p (Prim.segmentUnit p) (ivData p) s
  | .ctrEnc p => modeReads p (Prim.blockBytes p) (ivData p) s
  | .ctrDec p => modeReads p (Prim.blockBytes p) (ivData p) s

/-- The data a host read of a location reads (R58, R268). A result read while BUSY answers a free value and reads none
(R81, log entry 7). -/
def locReads (l : Loc) (s : State) : List Datum :=
  match l with
  | .din => [.din]
  | .din2 => [.din2]
  | .dout => if s.phase = .busy then [] else [.dout]
  | .keyToy => [.keyToy]
  | .ivToy => [.ivToy]
  | .keyExt j => [.keyExt j]
  | .ivExt j => [.ivExt j]
  | .inBuf i => bytesFrom (inBase + i) 4
  | .outBuf i => if s.phase = .busy then [] else bytesFrom (outBase + i) 4
  | .id => []
  | .cfg => []
  | .ctrl => []
  | .status => []
  | .cmd => []
  | .subkeys => []
  | .lenIn => []
  | .lenOut => []
  | .reserved => []

/-- The data a host access reads: none where it is a bus error or a write. -/
def accessReads (a : Access) (s : State) : List Datum :=
  if a.width = 32 ∧ a.addr.extractLsb' 0 2 = 0 ∧ a.kind = .read then
    locReads (locate s.config.msgCap a.addr.toNat) s
  else []

/-- The data the next step reads. -/
def State.stepReads (s : State) : List Datum :=
  match s.nextMove with
  | (.core, t) =>
    match t.fetch with
    | .error _ => []
    | .ok i => commandReads i t
  | (.host a, t) => accessReads a t
  | (.rest, _) => []

/-- The first unwritten datum of a list (R56, R268). -/
def State.firstUnwritten (s : State) (l : List Datum) : Option Datum := l.find? fun x => !s.isWritten x

end Sys2Proof.Machine
end

