-- ==== Sys2Proof/WellFormed.lean ====
section
/-! DEFINITION. The checks a command word, a configuration and a host access must pass. Every term of `Instr` is a command by construction (R102: no free operand fields), so the checks on commands are stated where ill-formed ones can be written: on the 32-bit command word, from R105's own listing and not from the decoder. -/

namespace Sys2Proof

/-- The OP field of a command word (R100). -/
def wordOp (w : Word) : Nat := w.toNat % 64

/-- R100, R105: bits [31:10] and [7:6] are clear. -/
def wordReservedClear (w : Word) : Bool := w.toNat / 1024 == 0 && w.toNat / 64 % 4 == 0

/-- R105: OP is assigned, that is not in 0x00, 0x0E, 0x0F, 0x14..0x3F. -/
def wordOpAssigned (w : Word) : Bool :=
  wordOp w != 0x00 && wordOp w != 0x0E && wordOp w != 0x0F && decide (wordOp w < 0x14)

/-- R105: DIR = 1 only where OP is none of 0x01..0x08, 0x0A..0x0D. -/
def wordDirAllowed (w : Word) : Bool :=
  !w.getLsbD 8 || !((0x01 ≤ wordOp w && wordOp w ≤ 0x08) || (0x0A ≤ wordOp w && wordOp w ≤ 0x0D))

/-- R105: PRIM = 1 only where OP is none of 0x01..0x09, 0x0B, 0x0D. -/
def wordPrimAllowed (w : Word) : Bool :=
  !w.getLsbD 9 || !((0x01 ≤ wordOp w && wordOp w ≤ 0x09) || wordOp w == 0x0B || wordOp w == 0x0D)

/-- A command word R105 does not list as illegal. -/
def wordWellFormed (w : Word) : Bool :=
  wordReservedClear w && wordOpAssigned w && wordDirAllowed w && wordPrimAllowed w

/-- D5: 16 ≤ MSG_CAP ≤ 4096 and MSG_CAP is a multiple of 16. -/
def Config.capWellFormed (c : Config) : Bool :=
  decide (16 ≤ c.msgCap) && decide (c.msgCap ≤ 4096) && c.msgCap % 16 == 0

/-- A host access the block serves (R72, R73): 32 bits wide at an address with bits [1:0] = 00. -/
def Access.wellFormed (a : Access) : Bool := a.width == 32 && a.addr.toNat % 4 == 0

end Sys2Proof
end

