-- ==== Sys2Proof/Safety.lean ====
section
/-! DEFINITION. The terms claims are stated in: what a buffer holds, what a command that stores leaves, when the common checks pass, and the invariant of a run. A run is SAFE in the spec's sense (R268, R314) while no step faults and `modelFault` is none, that is while it is a run of `modelStep`. -/

namespace Sys2Proof

/-- The PRIM of a command (R101): `toy` for a command that does not take PRIM (R103). -/
def Instr.prim : Instr → Prim
  | .permIp => .toy
  | .permIpinv => .toy
  | .permEp => .toy
  | .permP4 => .toy
  | .sbox0 => .toy
  | .sbox1 => .toy
  | .roundF => .toy
  | .keysched => .toy
  | .toyEnc => .toy
  | .toyDec => .toy
  | .pad p => p
  | .unpadLen => .toy
  | .unpadScan p => p
  | .xfer => .toy
  | .ecbEnc p => p
  | .ecbDec p => p
  | .cbcEnc p => p
  | .cbcDec p => p
  | .cfbEnc p => p
  | .cfbDec p => p
  | .ctrEnc p => p
  | .ctrDec p => p

/-- The component commands: the only ones that write DOUT (R44). -/
def Instr.writesDout (i : Instr) : Prop :=
  i ∈ [.permIp, .permIpinv, .permEp, .permP4, .sbox0, .sbox1, .roundF, .keysched, .toyEnc, .toyDec]

/-- The mode commands over a primitive (R220 to R232). -/
def Instr.isMode (i : Instr) : Prop :=
  ∃ p, i ∈ [.ecbEnc p, .ecbDec p, .cbcEnc p, .cbcDec p, .cfbEnc p, .cfbDec p, .ctrEnc p, .ctrDec p]

/-- The buffer commands that write OUT_BUF (R102): padding, its removal, and the modes. -/
def Instr.writesOut (i : Instr) : Prop := (∃ p, i ∈ [.pad p, .unpadLen, .unpadScan p]) ∨ i.isMode

namespace Machine

/-- The bytes `bs` stand at `base`, `base + 1`, and so on. -/
def Memory.holds (m : Memory) (base : Nat) (bs : List Byte) : Prop :=
  ∀ k (h : k < bs.length), m.read (base + k) = some bs[k]

/-- `m'` is `m` with the bytes `bs` stored from `base` on, and every other byte as before, written or not (R87). -/
def Memory.stored (m m' : Memory) (base : Nat) (bs : List Byte) : Prop :=
  ∀ a, m'.read a = if base ≤ a ∧ a < base + bs.length then bs[a - base]? else m.read a

/-- The message of LEN_IN bytes in IN_BUF is `m`, every byte of it written. -/
def State.hasMessage (s : State) (m : List Byte) : Prop :=
  m.length = s.lenIn.toNat ∧ s.mem.holds inBase m

/-- The common checks of R270 pass for a command with this PRIM. -/
def State.ready (s : State) (p : Prim) : Prop :=
  s.status.fault = false ∧ (p = .ext → s.config.extPresent = true)

/-- `r` is the next state of `s` after a buffer command that succeeded with output `out` (R87, R271). -/
def State.emits (s : State) (out : List Byte) (r : Result) : Prop :=
  ∃ m, s.mem.stored m outBase out ∧
    r = .next { s with
      mem := m, lenOut := BitVec.ofNat 13 out.length, phase := .idle, status := s.status.succeeded }

/-- `s` after a component command that succeeded with result `v` (R44, R271). -/
def State.answered (s : State) (v : Word) : State :=
  { s with
    dout := v
    written := { s.written with dout := true }
    phase := .idle
    status := { s.status with done := true, err := false, errCode := 0 } }

/-- The cases in which R261 says a command raises InvalidInputLength. -/
def lengthInvalid (s : State) : Instr → Prop
  | .ecbEnc p => s.lenIn.toNat % Prim.blockBytes p ≠ 0
  | .ecbDec p => s.lenIn.toNat % Prim.blockBytes p ≠ 0
  | .cbcEnc p => s.lenIn.toNat % Prim.blockBytes p ≠ 0
  | .cbcDec p => s.lenIn.toNat % Prim.blockBytes p ≠ 0
  | .ctrEnc p => s.lenIn.toNat % Prim.blockBytes p ≠ 0
  | .ctrDec p => s.lenIn.toNat % Prim.blockBytes p ≠ 0
  | .cfbEnc p => p = .ext ∧ s.lenIn.toNat % 8 ≠ 0
  | .cfbDec p => p = .ext ∧ s.lenIn.toNat % 8 ≠ 0
  | .unpadScan p => s.lenIn.toNat = 0 ∨ s.lenIn.toNat % Prim.blockBytes p ≠ 0
  | .unpadLen => s.din.toNat > s.lenIn.toNat
  | .permIp => False
  | .permIpinv => False
  | .permEp => False
  | .permP4 => False
  | .sbox0 => False
  | .sbox1 => False
  | .roundF => False
  | .keysched => False
  | .toyEnc => False
  | .toyDec => False
  | .pad _ => False
  | .xfer => False

/-- A core turn of a latched command: the state the command is performed in is `t` (R80). -/
def State.coreTurn (s t : State) : Prop :=
  s.phase = .busy ∧ ((s.turns = [] ∧ t = s) ∨ ∃ rest, s.turns = .core :: rest ∧ t = { s with turns := rest })

/-- A host turn that makes access `a` in state `t` (R80). -/
def State.hostTurn (s : State) (a : Access) (t : State) : Prop :=
  ∃ rest, s.turns = .host a :: rest ∧ t = { s with turns := rest }

/-- A 32-bit aligned read at an address (R72). -/
def readAt (addr : BitVec 14) : Access := { addr := addr, width := 32, kind := .read }

/-- A 32-bit aligned write at an address (R72). -/
def writeAt (addr : BitVec 14) (v : Word) : Access := { addr := addr, width := 32, kind := .write v }

/-- SKVALID = 1 means that SUBKEYS[15:0] are the subkeys KS gives KEY_TOY (R174). -/
def State.subkeysValid (s : State) : Prop :=
  s.subkeys.getLsbD 16 = true → s.subkeys.extractLsb' 0 16 =
    (ks s.config.ks s.keyToy).1 ++ (ks s.config.ks s.keyToy).2

/-- What every step keeps. -/
structure State.Inv (s : State) : Prop where
  /-- The memory keeps its canonical form. -/
  memWf : s.mem.wf
  /-- Every written byte is a byte of IN_BUF or OUT_BUF (R71). -/
  memInBuffers : ∀ c ∈ s.mem, (inBase ≤ c.1 ∧ c.1 < inBase + s.config.msgCap) ∨
    (outBase ≤ c.1 ∧ c.1 < outBase + s.config.msgCap)
  /-- LEN_OUT ≤ MSG_CAP (R204). -/
  lenOutFits : s.lenOut.toNat ≤ s.config.msgCap
  /-- The bytes of OUT_BUF below LEN_OUT are written (R204). -/
  outWritten : ∀ k, k < s.lenOut.toNat → (s.mem.read (outBase + k)).isSome = true
  /-- MSG_CAP is a legal capacity (D5). -/
  capLegal : s.config.capWellFormed = true
  /-- FAULT is the result of the table check (R275). -/
  faultIsCheck : s.status.fault = !tablesOk s.config.tbl
  /-- While BUSY, DONE, ERR and ERRCODE are clear (R41). -/
  busyClear : s.phase = .busy → s.status.done = false ∧ s.status.err = false
  /-- ERR = 1 only when the last command has been performed (R41). -/
  errDone : s.status.err = true → s.status.done = true
  /-- ERRCODE is 0 exactly when ERR is 0 (R41), and never 8 to 15 (R260). -/
  errCodeLegal : (s.status.err = false ↔ s.status.errCode = 0) ∧ s.status.errCode.toNat < 8
  /-- R174. -/
  subkeysValid : s.subkeysValid

end Machine

end Sys2Proof
end

