-- ==== Sys2Proof/Certificates/Slice0/Obligations.lean ====
section
/-! DEFINITION. The statements for the provers, each about the machine as the spec gives it. -/

open Sys2Proof Sys2Proof.Machine

/-! ## Encoding -/

/-- R103: every word of the opcode map decodes to its command. -/
def Obligations.CommandWordsOfTheMap : Prop :=
  decode 0x00000001#32 = .ok .permIp ∧ decode 0x00000002#32 = .ok .permIpinv ∧
  decode 0x00000003#32 = .ok .permEp ∧ decode 0x00000004#32 = .ok .permP4 ∧
  decode 0x00000005#32 = .ok .sbox0 ∧ decode 0x00000006#32 = .ok .sbox1 ∧
  decode 0x00000007#32 = .ok .roundF ∧ decode 0x00000008#32 = .ok .keysched ∧
  decode 0x00000009#32 = .ok .toyEnc ∧ decode 0x00000109#32 = .ok .toyDec ∧
  decode 0x0000000A#32 = .ok (.pad .toy) ∧ decode 0x0000020A#32 = .ok (.pad .ext) ∧
  decode 0x0000000B#32 = .ok .unpadLen ∧
  decode 0x0000000C#32 = .ok (.unpadScan .toy) ∧ decode 0x0000020C#32 = .ok (.unpadScan .ext) ∧
  decode 0x0000000D#32 = .ok .xfer ∧
  decode 0x00000010#32 = .ok (.ecbEnc .toy) ∧ decode 0x00000210#32 = .ok (.ecbEnc .ext) ∧
  decode 0x00000110#32 = .ok (.ecbDec .toy) ∧ decode 0x00000310#32 = .ok (.ecbDec .ext) ∧
  decode 0x00000011#32 = .ok (.cbcEnc .toy) ∧ decode 0x00000211#32 = .ok (.cbcEnc .ext) ∧
  decode 0x00000111#32 = .ok (.cbcDec .toy) ∧ decode 0x00000311#32 = .ok (.cbcDec .ext) ∧
  decode 0x00000012#32 = .ok (.cfbEnc .toy) ∧ decode 0x00000212#32 = .ok (.cfbEnc .ext) ∧
  decode 0x00000112#32 = .ok (.cfbDec .toy) ∧ decode 0x00000312#32 = .ok (.cfbDec .ext) ∧
  decode 0x00000013#32 = .ok (.ctrEnc .toy) ∧ decode 0x00000213#32 = .ok (.ctrEnc .ext) ∧
  decode 0x00000113#32 = .ok (.ctrDec .toy) ∧ decode 0x00000313#32 = .ok (.ctrDec .ext)

/-- Decoding inverts encoding, for every word and every command: a word decodes to a command exactly when it is the
command's one word (30_encoding.md section 2). -/
def Obligations.DecodeInvertsEncode : Prop :=
  ∀ (w : BitVec 32) (i : Instr), decode w = .ok i ↔ w = encode i

/-- R105: the illegal words are those it lists; the core's step for one raises IllegalCommand (code 4) and changes
nothing but STATUS (its BUSY bit is `phase`); and the reset value of CMD is illegal. FAULT = 0 is the common check of R270 item 1,
which comes first. -/
def Obligations.IllegalWordsChangeOnlyStatus : Prop :=
  (∀ w : BitVec 32, (∃ e, decode w = .error e) ↔ wordWellFormed w = false) ∧
  (∀ s t : State, s.coreTurn t → t.status.fault = false → wordWellFormed t.latched = false →
    step s = .next { t with
      phase := .idle
      status := { t.status with done := true, err := true, errCode := 4, stickyErr := true } }) ∧
  wordWellFormed State.reset.latched = false

/-! ## The step -/

/-- A step runs the decoded command: in a core turn of a latched command it is `exec` of it on the state without that
turn; in a host turn it is the host's access; an Idle block with a core turn or no turn changes nothing else
(20_memory.md R80; the order of turns is the model's, log entry 5). -/
def Obligations.StepRunsTheLatchedCommand : Prop :=
  (∀ (s t : State) (i : Instr), s.coreTurn t → decode t.latched = .ok i → step s = exec i t) ∧
  (∀ (s t : State) (a : Access), s.hostTurn a t → step s = hostAccess a t) ∧
  (∀ s : State, s.phase = .idle → s.turns = [] → step s = .next s) ∧
  (∀ (s : State) (rest : List Turn), s.phase = .idle → s.turns = .core :: rest →
    step s = .next { s with turns := rest })

/-- The common checks of R270 items 1 to 3, in that order, for every latched word: InvalidTableConfiguration (code 2,
R262) while FAULT = 1, then IllegalCommand (code 4), then PrimitiveAbsent (code 5); each writes STATUS only. -/
def Obligations.CommonChecksInOrder : Prop :=
  ∀ s t : State, s.coreTurn t →
    (t.status.fault = true →
      step s = .next { t with
        phase := .idle
        status := { t.status with done := true, err := true, errCode := 2, stickyErr := true } }) ∧
    (t.status.fault = false → ∀ e, decode t.latched = .error e →
      step s = .next { t with
        phase := .idle
        status := { t.status with done := true, err := true, errCode := 4, stickyErr := true } }) ∧
    (t.status.fault = false → ∀ i, decode t.latched = .ok i → i.prim = .ext → t.config.extPresent = false →
      step s = .next { t with
        phase := .idle
        status := { t.status with done := true, err := true, errCode := 5, stickyErr := true } })

/-- R265: PrimitiveAbsent (code 5) for every command with PRIM = 1 when EXT_PRESENT = 0, PAD.X and UNPAD_SCAN.X
among them, before any length check; and for no other command. FAULT = 0 is the check before it. -/
def Obligations.PrimitiveAbsentBeforeLengths : Prop :=
  (∀ (i : Instr) (s : State), s.status.fault = false → i.prim = .ext → s.config.extPresent = false →
    exec i s = .next { s with
      phase := .idle
      status := { s.status with done := true, err := true, errCode := 5, stickyErr := true } }) ∧
  (∀ (i : Instr) (s t : State), exec i s = .next t → t.status.errCode = 5 →
    i.prim = .ext ∧ s.config.extPresent = false)

/-- R271: how a command ends. A command that succeeds clears BUSY, sets DONE and clears ERR and ERRCODE. One that
fails sets DONE, ERR, ERRCODE and STICKY_ERR, and its state is otherwise the state before it. Neither writes WERR or
FAULT. (The model's record of an unwritten read, log entry 2, is no hardware state and may stand in either.) -/
def Obligations.CommandsEndInOkOrRaise : Prop :=
  ∀ (i : Instr) (s t : State), exec i s = .next t →
    t.phase = .idle ∧ t.status.done = true ∧ t.status.werr = s.status.werr ∧ t.status.fault = s.status.fault ∧
    ((t.status.err = false ∧ t.status.errCode = 0 ∧ t.status.stickyErr = s.status.stickyErr) ∨
     (t.status.err = true ∧ t.status.stickyErr = true ∧ (∃ e : ErrorKind, t.status.errCode = e.code) ∧
      t = { s with phase := .idle, status := t.status, modelFault := t.modelFault }))

/-- The register frame of every command (30_encoding.md R102): which commands write DOUT, SUBKEYS, LEN_OUT and
LEN_IN, and that no command writes any other register, the configuration or the host port; a recorded unwritten
read stays. A mode command that succeeds sets LEN_OUT to LEN_IN (46_modes.md R234 item 4). -/
def Obligations.CommandRegisterFrame : Prop :=
  ∀ (i : Instr) (s t : State), exec i s = .next t →
    (t.latched = s.latched ∧ t.din = s.din ∧ t.din2 = s.din2 ∧ t.keyToy = s.keyToy ∧ t.ivToy = s.ivToy ∧
     t.keyExt = s.keyExt ∧ t.ivExt = s.ivExt ∧ t.config = s.config ∧ t.turns = s.turns ∧
     t.response = s.response ∧ t.draws = s.draws) ∧
    (¬i.writesDout → t.dout = s.dout ∧ t.written = s.written) ∧
    (t.written = { s.written with dout := t.written.dout }) ∧
    (i ≠ .keysched → t.subkeys = s.subkeys) ∧
    (¬i.writesOut → t.lenOut = s.lenOut) ∧
    (i ≠ .xfer → t.lenIn = s.lenIn) ∧
    (i.isMode → t.status.err = false → t.lenOut = s.lenIn) ∧
    (s.modelFault ≠ none → t.modelFault = s.modelFault)

/-- The memory frame of every command (20_memory.md R87): a command that writes OUT_BUF changes no byte outside its
first LEN_OUT bytes, XFER none outside the first LEN_OUT bytes of IN_BUF, and any other command no byte at all. -/
def Obligations.CommandMemoryFrame : Prop :=
  ∀ (i : Instr) (s t : State) (a : Nat), s.config.capWellFormed = true → exec i s = .next t →
    ¬(i.writesOut ∧ outBase ≤ a ∧ a < outBase + t.lenOut.toNat) →
    ¬(i = .xfer ∧ inBase ≤ a ∧ a < inBase + s.lenOut.toNat) →
    t.mem.read a = s.mem.read a

/-! ## Component commands -/

/-- R130: position i of a permutation's output is the input's position table[i], for every input width and every table
with entries in [0, width). -/
def Obligations.PermutePositions : Prop :=
  ∀ (w : Nat) (x : BitVec w) (t : List Nat), (∀ e ∈ t, e < w) → ∀ (i : Nat) (h : i < t.length),
    (permute t.length x t).getMsbD i = x.getMsbD t[i]

/-- The results of PERM_IP, PERM_IPINV, PERM_EP and PERM_P4 (40_permutation.md R134 to R137), with all they change.
That a read of an unwritten DIN is recorded and the command goes on is the model's choice, log entry 2. -/
def Obligations.PermutationCommands : Prop :=
  ∀ s : State, s.status.fault = false →
    (s.din.extractLsb' 8 24 = 0 →
      exec .permIp s =
        .next ((s.noteRead .din).answered ((permute 8 (s.din.extractLsb' 0 8) s.config.tbl.ip).setWidth 32)) ∧
      exec .permIpinv s =
        .next ((s.noteRead .din).answered ((permute 8 (s.din.extractLsb' 0 8) s.config.tbl.ipinv).setWidth 32))) ∧
    (s.din.extractLsb' 4 28 = 0 →
      exec .permEp s =
        .next ((s.noteRead .din).answered ((permute 8 (s.din.extractLsb' 0 4) s.config.tbl.ep).setWidth 32)) ∧
      exec .permP4 s =
        .next ((s.noteRead .din).answered ((permute 4 (s.din.extractLsb' 0 4) s.config.tbl.p4).setWidth 32)))

/-- R150: a 4-bit value b0 b1 b2 b3, b0 the most significant bit, reads row 2*b0 + b3 and column 2*b1 + b2 of an S-box
of 4 rows of 4 entries below 4. -/
def Obligations.SubstituteRowAndColumn : Prop :=
  ∀ (b0 b1 b2 b3 : Bool) (box : List (List Nat)), box.length = 4 → (∀ r ∈ box, r.length = 4 ∧ ∀ e ∈ r, e < 4) →
    ∃ (row : List Nat) (e : Nat), box[2 * b0.toNat + b3.toNat]? = some row ∧ row[2 * b1.toNat + b2.toNat]? = some e ∧
      (substitute (BitVec.ofBool b0 ++ BitVec.ofBool b1 ++ BitVec.ofBool b2 ++ BitVec.ofBool b3) box).toNat = e

/-- The results of SBOX0 and SBOX1 (41_substitution.md R152, R153), with all they change (log entry 2 for an
unwritten DIN). -/
def Obligations.SubstitutionCommands : Prop :=
  ∀ s : State, s.status.fault = false → s.din.extractLsb' 4 28 = 0 →
    exec .sbox0 s =
      .next ((s.noteRead .din).answered ((substitute (s.din.extractLsb' 0 4) s.config.tbl.s0).setWidth 32)) ∧
    exec .sbox1 s =
      .next ((s.noteRead .din).answered ((substitute (s.din.extractLsb' 0 4) s.config.tbl.s1).setWidth 32))

/-- The round function F (42_round_function.md R160), spelled out in its stages: expand, mix the subkey, substitute the
left half through S0 and the right half through S1, compact; and the result of ROUND_F (R161), which is F of DIN and
DIN2. That an unwritten DIN or DIN2 is recorded and the command goes on is the model's choice, log entry 2; that DIN is
read first is log entry 15. -/
def Obligations.RoundFunctionCommand : Prop :=
  (∀ (t : Tables) (h : Half) (k : Subkey) (e : BitVec 8), e = permute 8 h t.ep ^^^ k →
    roundF t h k =
      permute 4 (substitute (e.extractLsb' 4 4) t.s0 ++ substitute (e.extractLsb' 0 4) t.s1) t.p4) ∧
  (∀ s : State, s.status.fault = false → s.din.extractLsb' 4 28 = 0 → s.din2.extractLsb' 8 24 = 0 →
    exec .roundF s = .next (((s.noteRead .din).noteRead .din2).answered
      ((roundF s.config.tbl (s.din.extractLsb' 0 4) (s.din2.extractLsb' 0 8)).setWidth 32)))

/-- The subkeys of the default KS as bits of the key: what P10, the two rotations and P8 of R171 come to, position by
position (the two lists are composed by hand from R171); and a listed KS gives for each key
the subkeys of the key's place in its list, so that every function from keys to subkeys is some KS (43_key_schedule.md
R170; the list is the model's form, log entry 4). -/
def Obligations.SubkeysSelectKeyBits : Prop :=
  (∀ (key : ToyKey) (i : Nat) (h : i < 8),
    (ks .standard key).1.getMsbD i = key.getMsbD ([0, 6, 8, 3, 7, 2, 9, 5][i]) ∧
    (ks .standard key).2.getMsbD i = key.getMsbD ([7, 2, 5, 4, 9, 1, 8, 0][i])) ∧
  (∀ (values : Vector (Subkey × Subkey) 1024) (key : ToyKey), ks (.listed values) key = values[key.toNat]) ∧
  (∀ f : ToyKey → Subkey × Subkey, ∃ k : KeySchedule, ∀ key, ks k key = f key)

/-- The result of KEYSCHED (43_key_schedule.md R173): SUBKEYS = 1 ++ K1 ++ K2 and DOUT = K1 ++ K2, with (K1, K2) =
KS(KEY_TOY). That an unwritten KEY_TOY is recorded and the command goes on is the model's choice, log entry 2. -/
def Obligations.KeyScheduleCommand : Prop :=
  ∀ (s : State) (k1 k2 : Subkey), s.status.fault = false → ks s.config.ks s.keyToy = (k1, k2) →
    exec .keysched s = .next { (s.noteRead .keyToy).answered ((k1 ++ k2).setWidth 32) with
      subkeys := 1#1 ++ k1 ++ k2 }

/-- The toy cipher (44_toy_cipher.md R180, R181), spelled out: the initial permutation, round 1 with K1 and the
half-swap, round 2 with K2 and no half-swap, the inverse permutation; decryption is the same with the subkeys in the
other order. The results of TOY_ENC and TOY_DEC (R182, R183): DOUT is E or D of the block under KEY_TOY. That an
unwritten DIN or KEY_TOY is recorded and the command goes on is the model's choice, log entry 2. -/
def Obligations.ToyCommands : Prop :=
  (∀ (c : Config) (key : ToyKey) (b : Block) (ka kb : Subkey) (l0 r0 l1 r1 l2 r2 : Half),
    l0 ++ r0 = permute 8 b c.tbl.ip → l1 = r0 → r1 = l0 ^^^ roundF c.tbl r0 ka → l2 = l1 ^^^ roundF c.tbl r1 kb →
    r2 = r1 →
    (ks c.ks key = (ka, kb) → toyEncrypt c key b = permute 8 (l2 ++ r2) c.tbl.ipinv) ∧
    (ks c.ks key = (kb, ka) → toyDecrypt c key b = permute 8 (l2 ++ r2) c.tbl.ipinv)) ∧
  (∀ s : State, s.status.fault = false → s.din.extractLsb' 8 24 = 0 →
    exec .toyEnc s = .next (((s.noteRead .din).noteRead .keyToy).answered
      ((toyEncrypt s.config s.keyToy (s.din.extractLsb' 0 8)).setWidth 32)) ∧
    exec .toyDec s = .next (((s.noteRead .din).noteRead .keyToy).answered
      ((toyDecrypt s.config s.keyToy (s.din.extractLsb' 0 8)).setWidth 32)))

/-- R184: for every TBL that meets R133 item 2 (IP a bijection that IPINV undoes) and every KS, decryption undoes
encryption, and encryption under every key is a bijection of the 256 blocks. -/
def Obligations.ToyCipherRoundTrip : Prop :=
  ∀ c : Config, Function.Bijective (fun x : Block => (permute 8 x c.tbl.ip : Block)) →
    (∀ x : Block, permute 8 (permute 8 x c.tbl.ip : Block) c.tbl.ipinv = x) →
    ∀ key : ToyKey, (∀ p : Block, toyDecrypt c key (toyEncrypt c key p) = p) ∧
      Function.Bijective (toyEncrypt c key)

/-- R185: the three values of E the source fixes, met by the default TBL and KS; and under the default TBL by every KS
that gives the golden key the subkeys 01011111 and 11111100 (43_key_schedule.md R172). -/
def Obligations.GoldenVector : Prop :=
  (toyEncrypt defaultConfig 0b0111111101#10 0b00000000#8 = 0b00111001#8 ∧
   toyEncrypt defaultConfig 0b0111111101#10 0b00000001#8 = 0b01001101#8 ∧
   toyEncrypt defaultConfig 0b0111111101#10 0b00000010#8 = 0b00110110#8) ∧
  (∀ c : Config, c.tbl = defaultTables → ks c.ks 0b0111111101#10 = (0b01011111#8, 0b11111100#8) →
    goldenVector c = true)

/-- IllegalOperand (code 7, 60_exceptions.md R267) where an operand register has a bit above the operand's width, for
exactly the component commands and widths R267 lists; no other command raises it. FAULT = 0 is the common check before
it. That an unwritten DIN or DIN2 does not stop the command but may be recorded in the model fault, which is why that
field is left open here, is the model's choice, log entry 2. -/
def Obligations.IllegalOperandRefused : Prop :=
  (∀ (i : Instr) (s : State), s.status.fault = false →
    ((i ∈ [.permIp, .permIpinv, .toyEnc, .toyDec] ∧ s.din.extractLsb' 8 24 ≠ 0) ∨
     (i ∈ [.permEp, .permP4, .sbox0, .sbox1, .roundF] ∧ s.din.extractLsb' 4 28 ≠ 0) ∨
     (i = .roundF ∧ s.din2.extractLsb' 8 24 ≠ 0)) →
    ∃ t, exec i s = .next t ∧ t = { s with
      phase := .idle
      status := { s.status with done := true, err := true, errCode := 7, stickyErr := true }
      modelFault := t.modelFault }) ∧
  (∀ (i : Instr) (s t : State), exec i s = .next t → t.status.errCode = 7 →
    (i ∈ [.permIp, .permIpinv, .toyEnc, .toyDec] ∧ s.din.extractLsb' 8 24 ≠ 0) ∨
    (i ∈ [.permEp, .permP4, .sbox0, .sbox1, .roundF] ∧ s.din.extractLsb' 4 28 ≠ 0) ∨
    (i = .roundF ∧ s.din2.extractLsb' 8 24 ≠ 0))

/-! ## Padding and buffer commands -/

/-- R200: `pad` appends 0x80 and then 0x00 bytes, and its length is the least multiple of the block size above the
message's. -/
def Obligations.PadToTheNextMultiple : Prop :=
  ∀ (b : Nat) (m : List Byte), 0 < b →
    (∃ z, z < b ∧ pad b m = m ++ [0x80#8] ++ List.replicate z 0x00#8) ∧
    (pad b m).length % b = 0 ∧ m.length < (pad b m).length ∧
    ∀ n, n % b = 0 → m.length < n → (pad b m).length ≤ n

/-- The result of PAD (45_padding_buffers.md R201): the padded message in OUT_BUF and its length in LEN_OUT. -/
def Obligations.PadCommand : Prop :=
  ∀ (p : Prim) (s : State) (m : List Byte), s.ready p → s.hasMessage m →
    (pad (Prim.blockBytes p) m).length ≤ s.config.msgCap →
    s.emits (pad (Prim.blockBytes p) m) (exec (.pad p) s)

/-- The result of UNPAD_LEN (45_padding_buffers.md R202): the first DIN bytes of the message, all 32 bits of DIN
compared with LEN_IN (log entry 2 for an unwritten DIN). Only those bytes need to have been written. -/
def Obligations.UnpadLenCommand : Prop :=
  ∀ (s : State) (m : List Byte), s.ready .toy → s.lenIn.toNat ≤ s.config.msgCap →
    s.din.toNat ≤ s.lenIn.toNat → m.length = s.din.toNat → s.mem.holds inBase m →
    (s.noteRead .din).emits m (exec .unpadLen s)

/-- R263: UNPAD_SCAN alone raises AmbiguousPaddingRemoval (code 3), and only where the last block ends in no 0x80 marker
followed by 0x00 bytes; a message whose last block does is accepted, and the bytes before the marker are its output. -/
def Obligations.UnpadScanFindsTheMarker : Prop :=
  (∀ (p : Prim) (s : State) (m : List Byte), s.ready p → s.lenIn.toNat ≤ s.config.msgCap → s.hasMessage m →
    m.length ≠ 0 → m.length % Prim.blockBytes p = 0 →
    (∀ (x : List Byte) (z : Nat), z < Prim.blockBytes p → m = x ++ 0x80#8 :: List.replicate z 0x00#8 →
      s.emits x (exec (.unpadScan p) s)) ∧
    ((∀ (x : List Byte) (z : Nat), z < Prim.blockBytes p → m ≠ x ++ 0x80#8 :: List.replicate z 0x00#8) →
      exec (.unpadScan p) s = .next { s with
        phase := .idle
        status := { s.status with done := true, err := true, errCode := 3, stickyErr := true } })) ∧
  (∀ (i : Instr) (s t : State), exec i s = .next t → t.status.errCode = 3 → ∃ p, i = .unpadScan p)

/-- The result of XFER (45_padding_buffers.md R204): the output message in IN_BUF, LEN_OUT in LEN_IN, OUT_BUF's
length and every other byte as before; and in every state of the invariant it completes. -/
def Obligations.XferCommand : Prop :=
  (∀ (s : State) (m : List Byte), s.ready .toy → m.length = s.lenOut.toNat → s.mem.holds outBase m →
    ∃ mem, s.mem.stored mem inBase m ∧
      exec .xfer s = .next { s with
        mem := mem, lenIn := s.lenOut, phase := .idle,
        status := { s.status with done := true, err := false, errCode := 0 } }) ∧
  (∀ s : State, s.Inv → s.ready .toy → ∃ t, exec .xfer s = .next t ∧ t.lenIn = s.lenOut)

/-- The padding laws at the commands (45_padding_buffers.md R205 items 1 and 2): PAD and then XFER and then
UNPAD_SCAN leave the message in OUT_BUF, and so does UNPAD_LEN in its place when DIN holds the message's length (that
an unwritten DIN is recorded and the command goes on is the model's choice, log entry 2). -/
def Obligations.PaddingRoundTrip : Prop :=
  ∀ (p : Prim) (s : State) (m : List Byte), s.ready p → s.config.capWellFormed = true → s.hasMessage m →
    (pad (Prim.blockBytes p) m).length ≤ s.config.msgCap →
    ∃ t1 t2, exec (.pad p) s = .next t1 ∧ exec .xfer t1 = .next t2 ∧
      (∃ t3, exec (.unpadScan p) t2 = .next t3 ∧ t3.status.err = false ∧ t3.lenOut = s.lenIn ∧
        t3.mem.holds outBase m) ∧
      (s.din.toNat = m.length → ∃ t3, exec .unpadLen t2 = .next t3 ∧ t3.status.err = false ∧ t3.lenOut = s.lenIn ∧
        t3.mem.holds outBase m)

/-- R266: CapacityExceeded (code 6) for PAD, UNPAD_LEN, UNPAD_SCAN and every mode command when LEN_IN > MSG_CAP,
before any byte is read, and for PAD when the padded length exceeds MSG_CAP, which is when LEN_IN ≥ MSG_CAP; no
other command raises it. -/
def Obligations.CapacityExceededRefused : Prop :=
  (∀ (i : Instr) (s : State), i.writesOut → s.ready i.prim → s.config.capWellFormed = true →
    (s.lenIn.toNat > s.config.msgCap ∨ (∃ p, i = .pad p) ∧ s.lenIn.toNat ≥ s.config.msgCap) →
    exec i s = .next { s with
      phase := .idle
      status := { s.status with done := true, err := true, errCode := 6, stickyErr := true } }) ∧
  (∀ (i : Instr) (s t : State), exec i s = .next t → t.status.errCode = 6 →
    i.writesOut ∧ (s.lenIn.toNat > s.config.msgCap ∨
      ∃ p, i = .pad p ∧
        s.lenIn.toNat + (Prim.blockBytes p - s.lenIn.toNat % Prim.blockBytes p) > s.config.msgCap))

/-- InvalidInputLength (code 1) in exactly the cases 60_exceptions.md R261 lists, once the checks before it pass; the
length check comes before any read of a key, an IV or a message byte (46_modes.md R222), so no command but UNPAD_LEN,
which reads DIN first, records an unwritten read. That UNPAD_LEN goes on with an unwritten DIN and only records it is
the model's choice, log entry 2. -/
def Obligations.InvalidInputLengthRefused : Prop :=
  (∀ (i : Instr) (s : State), s.ready i.prim → s.lenIn.toNat ≤ s.config.msgCap → lengthInvalid s i →
    exec i s = .next { s with
      phase := .idle
      status := { s.status with done := true, err := true, errCode := 1, stickyErr := true }
      modelFault := if i = .unpadLen then (s.noteRead .din).modelFault else s.modelFault }) ∧
  (∀ (i : Instr) (s t : State), exec i s = .next t → t.status.errCode = 1 → lengthInvalid s i)

/-! ## Modes -/

/-- R76: a toy block is one byte; a production block is 16 consecutive bytes, the first the most significant; a result
block goes back to bytes the same way. The segments of CFB (46_modes.md R228) likewise: 8 consecutive bytes for the
external primitive, and for the toy primitive the two nibbles of a byte, the high one first. -/
def Obligations.BlocksFromBytes : Prop :=
  (∀ m : List Byte, blocksOf 8 m = m ∧ bytesOf (w := 8) m = m) ∧
  (∀ (m : List Byte) (j : Nat) (h : 16 * j + 15 < m.length),
    (blocksOf 128 m)[j]? = some
      (m[16 * j] ++ m[16 * j + 1] ++ m[16 * j + 2] ++ m[16 * j + 3] ++ m[16 * j + 4] ++ m[16 * j + 5] ++
       m[16 * j + 6] ++ m[16 * j + 7] ++ m[16 * j + 8] ++ m[16 * j + 9] ++ m[16 * j + 10] ++ m[16 * j + 11] ++
       m[16 * j + 12] ++ m[16 * j + 13] ++ m[16 * j + 14] ++ m[16 * j + 15])) ∧
  (∀ m : List Byte, m.length % 16 = 0 → bytesOf (blocksOf 128 m) = m) ∧
  (∀ bs : List ExtBlock, blocksOf 128 (bytesOf bs) = bs) ∧
  (∀ (m : List Byte) (j : Nat) (h : 8 * j + 7 < m.length),
    (blocksOf 64 m)[j]? = some
      (m[8 * j] ++ m[8 * j + 1] ++ m[8 * j + 2] ++ m[8 * j + 3] ++ m[8 * j + 4] ++ m[8 * j + 5] ++ m[8 * j + 6] ++
       m[8 * j + 7])) ∧
  (∀ m : List Byte, m.length % 8 = 0 → bytesOf (blocksOf 64 m) = m) ∧
  (∀ xs : List (BitVec 64), blocksOf 64 (bytesOf xs) = xs) ∧
  (∀ (m : List Byte) (i : Nat) (h : i < m.length),
    (nibblesOf m)[2 * i]? = some (m[i].extractLsb' 4 4) ∧ (nibblesOf m)[2 * i + 1]? = some (m[i].extractLsb' 0 4)) ∧
  (∀ (xs : List (BitVec 4)) (i : Nat) (h : 2 * i + 1 < xs.length),
    (bytesOfNibbles xs)[i]? = some (xs[2 * i] ++ xs[2 * i + 1]))

/-- The results of ECB_ENC and ECB_DEC over either primitive (46_modes.md R224, R225): the key is read, the IV is
not. KEY_EXT is its four words, word 0 the most significant (20_memory.md R75). That an unwritten key is recorded and
the command goes on is the model's choice, log entry 2. -/
def Obligations.EcbCommands : Prop :=
  ∀ (s : State) (m : List Byte) (key : ExtBlock), key = s.keyExt.w0 ++ s.keyExt.w1 ++ s.keyExt.w2 ++ s.keyExt.w3 →
    s.hasMessage m → s.lenIn.toNat ≤ s.config.msgCap →
    (s.ready .toy →
      (s.noteKey .toy).emits (m.map (toyEncrypt s.config s.keyToy)) (exec (.ecbEnc .toy) s) ∧
      (s.noteKey .toy).emits (m.map (toyDecrypt s.config s.keyToy)) (exec (.ecbDec .toy) s)) ∧
    (s.ready .ext → m.length % 16 = 0 →
      (s.noteKey .ext).emits (bytesOf ((blocksOf 128 m).map (Config.extEnc key)))
        (exec (.ecbEnc .ext) s) ∧
      (s.noteKey .ext).emits (bytesOf ((blocksOf 128 m).map (Config.extDec key)))
        (exec (.ecbDec .ext) s))

/-- The results of CBC_ENC and CBC_DEC over either primitive (46_modes.md R226, R227; KEY_EXT and IV_EXT by
20_memory.md R75). That an unwritten key or IV is recorded and the command goes on is the model's choice, log entry 2. -/
def Obligations.CbcCommands : Prop :=
  ∀ (s : State) (m : List Byte) (key iv : ExtBlock), key = s.keyExt.w0 ++ s.keyExt.w1 ++ s.keyExt.w2 ++ s.keyExt.w3 →
    iv = s.ivExt.w0 ++ s.ivExt.w1 ++ s.ivExt.w2 ++ s.ivExt.w3 →
    s.hasMessage m → s.lenIn.toNat ≤ s.config.msgCap →
    (s.ready .toy →
      ((s.noteKey .toy).noteIv .toy).emits (cbcEncrypt (toyEncrypt s.config s.keyToy) s.ivToy m)
        (exec (.cbcEnc .toy) s) ∧
      ((s.noteKey .toy).noteIv .toy).emits (cbcDecrypt (toyDecrypt s.config s.keyToy) s.ivToy m)
        (exec (.cbcDec .toy) s)) ∧
    (s.ready .ext → m.length % 16 = 0 →
      ((s.noteKey .ext).noteIv .ext).emits
        (bytesOf (cbcEncrypt (Config.extEnc key) iv (blocksOf 128 m)))
        (exec (.cbcEnc .ext) s) ∧
      ((s.noteKey .ext).noteIv .ext).emits
        (bytesOf (cbcDecrypt (Config.extDec key) iv (blocksOf 128 m)))
        (exec (.cbcDec .ext) s))

/-- The results of CFB_ENC and CFB_DEC over either primitive (46_modes.md R228 to R230): 4-bit segments, high nibble
first, or 8-byte segments; KEY_EXT and IV_EXT by 20_memory.md R75. That an unwritten key or IV is recorded
and the command goes on is the model's choice, log entry 2. -/
def Obligations.CfbCommands : Prop :=
  ∀ (s : State) (m : List Byte) (key iv : ExtBlock), key = s.keyExt.w0 ++ s.keyExt.w1 ++ s.keyExt.w2 ++ s.keyExt.w3 →
    iv = s.ivExt.w0 ++ s.ivExt.w1 ++ s.ivExt.w2 ++ s.ivExt.w3 →
    s.hasMessage m → s.lenIn.toNat ≤ s.config.msgCap →
    (s.ready .toy →
      ((s.noteKey .toy).noteIv .toy).emits
        (bytesOfNibbles (cfbEncrypt (toyEncrypt s.config s.keyToy) s.ivToy
          (m.flatMap fun b => [b.extractLsb' 4 4, b.extractLsb' 0 4])))
        (exec (.cfbEnc .toy) s) ∧
      ((s.noteKey .toy).noteIv .toy).emits
        (bytesOfNibbles (cfbDecrypt (toyEncrypt s.config s.keyToy) s.ivToy
          (m.flatMap fun b => [b.extractLsb' 4 4, b.extractLsb' 0 4])))
        (exec (.cfbDec .toy) s)) ∧
    (s.ready .ext → m.length % 8 = 0 →
      ((s.noteKey .ext).noteIv .ext).emits
        (bytesOf (cfbEncrypt (Config.extEnc key) iv (blocksOf 64 m)))
        (exec (.cfbEnc .ext) s) ∧
      ((s.noteKey .ext).noteIv .ext).emits
        (bytesOf (cfbDecrypt (Config.extEnc key) iv (blocksOf 64 m)))
        (exec (.cfbDec .ext) s))

/-- The results of CTR_ENC and CTR_DEC over either primitive (46_modes.md R231, R232): both give the same output.
KEY_EXT and IV_EXT by 20_memory.md R75. That an unwritten key or counter seed is recorded and the command goes on is the
model's choice, log entry 2. -/
def Obligations.CtrCommands : Prop :=
  ∀ (s : State) (m : List Byte) (i : Prim → Instr) (key iv : ExtBlock), i = .ctrEnc ∨ i = .ctrDec →
    key = s.keyExt.w0 ++ s.keyExt.w1 ++ s.keyExt.w2 ++ s.keyExt.w3 →
    iv = s.ivExt.w0 ++ s.ivExt.w1 ++ s.ivExt.w2 ++ s.ivExt.w3 →
    s.hasMessage m → s.lenIn.toNat ≤ s.config.msgCap →
    (s.ready .toy →
      ((s.noteKey .toy).noteIv .toy).emits (ctr (toyEncrypt s.config s.keyToy) s.ivToy m) (exec (i .toy) s)) ∧
    (s.ready .ext → m.length % 16 = 0 →
      ((s.noteKey .ext).noteIv .ext).emits
        (bytesOf (ctr (Config.extEnc key) iv (blocksOf 128 m))) (exec (i .ext) s))

/-- The blocks of CBC and CTR, by index (46_modes.md R226, R227, R231, R234 item 3): CBC ciphertext block j is the
encryption of plaintext block j XOR ciphertext block j-1; CBC plaintext block j depends on ciphertext blocks j-1 and j
only (block -1 is the IV); CTR block j is XORed with the encryption of seed + j, modulo 2^w. -/
def Obligations.ModesBlockByBlock : Prop :=
  ∀ (w : Nat) (f : BitVec w → BitVec w) (iv : BitVec w) (xs : List (BitVec w)) (j : Nat) (h : j < xs.length),
    (cbcEncrypt f iv xs)[j]? = some (f (xs[j] ^^^ (iv :: cbcEncrypt f iv xs).getD j 0)) ∧
    (cbcDecrypt f iv xs)[j]? = some (f xs[j] ^^^ (iv :: xs).getD j 0) ∧
    (ctr f iv xs)[j]? = some (xs[j] ^^^ f (iv + BitVec.ofNat w j))

/-- The segments of CFB, by index (46_modes.md R228): a feedback register that starts at the IV, whose leading s bits
are dropped and whose end takes the ciphertext segment; the keystream is the leading s bits of its encryption. -/
def Obligations.CfbSegmentBySegment : Prop :=
  ∀ (w k : Nat) (enc : BitVec w → BitVec w) (iv : BitVec w) (xs : List (BitVec k)), k ≤ w →
    (∃ fr : Nat → BitVec w, fr 0 = iv ∧ ∀ (j : Nat) (h : j < xs.length),
      (cfbEncrypt enc iv xs)[j]? = some (xs[j] ^^^ (enc (fr j)).extractLsb' (w - k) k) ∧
      ∀ p, p < w → (fr (j + 1)).getMsbD p =
        if p < w - k then (fr j).getMsbD (p + k) else ((cfbEncrypt enc iv xs).getD j 0).getMsbD (p - (w - k))) ∧
    (∃ fr : Nat → BitVec w, fr 0 = iv ∧ ∀ (j : Nat) (h : j < xs.length),
      (cfbDecrypt enc iv xs)[j]? = some (xs[j] ^^^ (enc (fr j)).extractLsb' (w - k) k) ∧
      ∀ p, p < w → (fr (j + 1)).getMsbD p =
        if p < w - k then (fr j).getMsbD (p + k) else xs[j].getMsbD (p - (w - k)))

/-- The modes' round trips over any primitive (46_modes.md R234 item 1): ECB and CBC where decryption undoes
encryption, CFB and CTR for any function at all. -/
def Obligations.ModesRoundTrip : Prop :=
  (∀ (w : Nat) (enc dec : BitVec w → BitVec w), (∀ b, dec (enc b) = b) → ∀ (iv : BitVec w) (xs : List (BitVec w)),
    ecb dec (ecb enc xs) = xs ∧ cbcDecrypt dec iv (cbcEncrypt enc iv xs) = xs) ∧
  (∀ (w k : Nat) (enc : BitVec w → BitVec w) (iv : BitVec w) (xs : List (BitVec k)),
    cfbDecrypt enc iv (cfbEncrypt enc iv xs) = xs) ∧
  (∀ (w : Nat) (enc : BitVec w → BitVec w) (iv : BitVec w) (xs : List (BitVec w)),
    ctr enc iv (ctr enc iv xs) = xs)

/-- The modes' round trips at the commands (46_modes.md R234 item 1): encrypting, XFER and decrypting leave the message
in OUT_BUF, for every mode over either primitive. For ECB and CBC decryption must undo encryption: of the toy primitive
for every block, of the external one for the blocks the command encrypts (92_eei_decisions.md D4's property; nothing is
assumed of it otherwise). CFB and CTR hold for any primitive. That an unwritten key or IV is recorded and the commands
go on is the model's choice, log entry 2. -/
def Obligations.ModeCommandsRoundTrip : Prop :=
  ∀ (s : State) (m : List Byte) (enc dec : Instr) (key iv : ExtBlock),
    key = s.keyExt.w0 ++ s.keyExt.w1 ++ s.keyExt.w2 ++ s.keyExt.w3 →
    iv = s.ivExt.w0 ++ s.ivExt.w1 ++ s.ivExt.w2 ++ s.ivExt.w3 →
    s.ready enc.prim → s.lenIn.toNat ≤ s.config.msgCap →
    s.hasMessage m →
    ((enc = .ecbEnc .toy ∧ dec = .ecbDec .toy ∧
        ∀ b, toyDecrypt s.config s.keyToy (toyEncrypt s.config s.keyToy b) = b) ∨
     (enc = .cbcEnc .toy ∧ dec = .cbcDec .toy ∧
        ∀ b, toyDecrypt s.config s.keyToy (toyEncrypt s.config s.keyToy b) = b) ∨
     (enc = .ecbEnc .ext ∧ dec = .ecbDec .ext ∧ m.length % 16 = 0 ∧
        ∀ b ∈ blocksOf 128 m, Config.extDec key (Config.extEnc key b) = b) ∨
     (enc = .cbcEnc .ext ∧ dec = .cbcDec .ext ∧ m.length % 16 = 0 ∧
        ∀ b ∈ List.zipWith (· ^^^ ·) (blocksOf 128 m)
            (iv :: cbcEncrypt (Config.extEnc key) iv (blocksOf 128 m)),
          Config.extDec key (Config.extEnc key b) = b) ∨
     (∃ p, enc = .cfbEnc p ∧ dec = .cfbDec p ∧ m.length % Prim.segmentUnit p = 0) ∨
     (∃ p, enc = .ctrEnc p ∧ dec = .ctrDec p ∧ m.length % Prim.blockBytes p = 0)) →
    ∃ t1 t2 t3, exec enc s = .next t1 ∧ exec .xfer t1 = .next t2 ∧ exec dec t2 = .next t3 ∧
      t3.status.err = false ∧ t3.lenOut = s.lenIn ∧ t3.mem.holds outBase m

/-- Continuing a message in a second command (70_reset_and_hazards.md R306): the modes over xs ++ ys are the modes
over xs followed by the modes over ys from the continuation value. For CFB that is the last w bits of the IV followed
by the ciphertext of the first part, for segments and a register of any width; over the external primitive it is the
last 16 bytes of the IV's bytes and the ciphertext's; over the toy primitive the last ciphertext byte. -/
def Obligations.ModesContinue : Prop :=
  (∀ (w : Nat) (f : BitVec w → BitVec w) (iv : BitVec w) (xs ys : List (BitVec w)),
    ecb f (xs ++ ys) = ecb f xs ++ ecb f ys ∧
    cbcEncrypt f iv (xs ++ ys) =
      cbcEncrypt f iv xs ++ cbcEncrypt f ((cbcEncrypt f iv xs).getLastD iv) ys ∧
    cbcDecrypt f iv (xs ++ ys) = cbcDecrypt f iv xs ++ cbcDecrypt f (xs.getLastD iv) ys ∧
    ctr f iv (xs ++ ys) = ctr f iv xs ++ ctr f (iv + BitVec.ofNat w xs.length) ys) ∧
  (∀ (w k : Nat) (f : BitVec w → BitVec w) (iv fr : BitVec w) (xs ys : List (BitVec k)),
    (fr.toNat = (cfbEncrypt f iv xs).foldl (fun n c => n * 2 ^ k + c.toNat) iv.toNat % 2 ^ w →
      cfbEncrypt f iv (xs ++ ys) = cfbEncrypt f iv xs ++ cfbEncrypt f fr ys) ∧
    (fr.toNat = xs.foldl (fun n c => n * 2 ^ k + c.toNat) iv.toNat % 2 ^ w →
      cfbDecrypt f iv (xs ++ ys) = cfbDecrypt f iv xs ++ cfbDecrypt f fr ys)) ∧
  (∀ (f : ExtBlock → ExtBlock) (iv : ExtBlock) (x y c : List Byte), x.length % 8 = 0 → y.length % 8 = 0 →
    (c = bytesOf (cfbEncrypt f iv (blocksOf 64 x)) →
      bytesOf (cfbEncrypt f iv (blocksOf 64 (x ++ y))) =
        c ++ bytesOf (cfbEncrypt f (fromBytes 128 ((toBytes iv ++ c).drop c.length)) (blocksOf 64 y))) ∧
    bytesOf (cfbDecrypt f iv (blocksOf 64 (x ++ y))) =
      bytesOf (cfbDecrypt f iv (blocksOf 64 x)) ++
      bytesOf (cfbDecrypt f (fromBytes 128 ((toBytes iv ++ x).drop x.length)) (blocksOf 64 y))) ∧
  (∀ (f : Block → Block) (iv : Block) (x y : List Byte),
    bytesOfNibbles (cfbEncrypt f iv (nibblesOf (x ++ y))) =
      bytesOfNibbles (cfbEncrypt f iv (nibblesOf x)) ++
      bytesOfNibbles (cfbEncrypt f ((bytesOfNibbles (cfbEncrypt f iv (nibblesOf x))).getLastD iv) (nibblesOf y)) ∧
    bytesOfNibbles (cfbDecrypt f iv (nibblesOf (x ++ y))) =
      bytesOfNibbles (cfbDecrypt f iv (nibblesOf x)) ++
      bytesOfNibbles (cfbDecrypt f (x.getLastD iv) (nibblesOf y)))

/-- R233: a mode command writes no operand register, no key, IV or SUBKEYS, no DOUT, no LEN_IN and no byte of IN_BUF;
and two with the same inputs give the same outputs. -/
def Obligations.ModesLeaveTheirOperands : Prop :=
  (∀ (i : Instr) (s t : State), i.isMode → exec i s = .next t →
    t.ivToy = s.ivToy ∧ t.ivExt = s.ivExt ∧ t.keyToy = s.keyToy ∧ t.keyExt = s.keyExt ∧ t.subkeys = s.subkeys ∧
    t.dout = s.dout ∧ t.din = s.din ∧ t.din2 = s.din2 ∧ t.lenIn = s.lenIn ∧
    ∀ a, a < outBase → t.mem.read a = s.mem.read a) ∧
  (∀ (i : Instr) (s t s' t' : State), i.isMode → exec i s = .next t → exec i s' = .next t' →
    s'.config = s.config → s'.status.fault = s.status.fault → s'.keyToy = s.keyToy → s'.ivToy = s.ivToy →
    s'.keyExt = s.keyExt → s'.ivExt = s.ivExt → s'.lenIn = s.lenIn →
    (∀ k, k < s.lenIn.toNat → s'.mem.read (inBase + k) = s.mem.read (inBase + k)) →
    t'.status.err = t.status.err ∧ t'.status.errCode = t.status.errCode ∧
    (t.status.err = false → t'.lenOut = t.lenOut ∧
      ∀ k, k < t.lenOut.toNat → t'.mem.read (outBase + k) = t.mem.read (outBase + k)))

/-! ## The host port -/

/-- R73: an access that is not aligned or not 32 bits wide ends with a bus error and changes no state. -/
def Obligations.BusErrorChangesNothing : Prop :=
  ∀ (s t : State) (a : Access), s.hostTurn a t → a.wellFormed = false →
    step s = .next { t with response := some .busError }

/-- R34, R35: ID reads 0x46435031 and CFG reads EXT_PRESENT in bit 0 and MSG_CAP in bits [28:16], every other bit 0,
in every state; CFG is a function of the configuration, which no reset changes. CTRL reads 0 in every state (10_state.md
R36). A write while Idle to a register the map of R32 calls read-only (ID, CFG, DOUT, SUBKEYS, LEN_OUT) is ignored. -/
def Obligations.IdAndCfgAreConstant : Prop :=
  (∀ s t : State, s.hostTurn (readAt 0x000) t →
    step s = .next { t with response := some (.data 0x46435031#32) }) ∧
  (∀ s t : State, s.hostTurn (readAt 0x004) t → ∃ v : Word,
    step s = .next { t with response := some (.data v) } ∧ v.getLsbD 0 = t.config.extPresent ∧
    v.extractLsb' 16 13 = BitVec.ofNat 13 t.config.msgCap ∧ v.extractLsb' 1 15 = 0 ∧ v.extractLsb' 29 3 = 0) ∧
  (∀ s t : State, s.hostTurn (readAt 0x008) t → step s = .next { t with response := some (.data 0) }) ∧
  (∀ (s t : State) (v : Word) (a : BitVec 14), a ∈ [0x000, 0x004, 0x01C, 0x028, 0x030] →
    s.hostTurn (writeAt a v) t → t.phase = .idle → step s = .next { t with response := some .written }) ∧
  (∀ c : Config, (State.resetFor c).config = c) ∧ (∀ s : State, s.softReset.config = s.config)

/-- Reserved offsets (10_state.md R33): a read returns 0; a write is ignored while Idle, and sets WERR while BUSY. -/
def Obligations.ReservedOffsets : Prop :=
  ∀ (s t : State) (a : BitVec 14), t.config.capWellFormed = true → a.toNat % 4 = 0 →
    ((0x034 ≤ a.toNat ∧ a.toNat < 0x040) ∨ (0x060 ≤ a.toNat ∧ a.toNat < 0x1000) ∨ 0x3000 ≤ a.toNat ∨
     (0x1000 + t.config.msgCap ≤ a.toNat ∧ a.toNat < 0x2000) ∨
     (0x2000 + t.config.msgCap ≤ a.toNat ∧ a.toNat < 0x3000)) →
    (s.hostTurn (readAt a) t → step s = .next { t with response := some (.data 0) }) ∧
    (∀ v, s.hostTurn (writeAt a v) t →
      (t.phase = .idle → step s = .next { t with response := some .written }) ∧
      (t.phase = .busy →
        step s = .next { t with response := some .written, status := { t.status with werr := true } }))

/-- R40: a STATUS read returns the fields of R41 in their places; a write is accepted even while BUSY and clears
STICKY_ERR and WERR where the written bit is 1, and nothing else. -/
def Obligations.StatusReadAndClear : Prop :=
  (∀ s t : State, s.hostTurn (readAt 0x00C) t → ∃ v : Word,
    step s = .next { t with response := some (.data v) } ∧
    (v.getLsbD 0 = true ↔ t.phase = .busy) ∧ v.getLsbD 1 = t.status.done ∧ v.getLsbD 2 = t.status.err ∧
    v.getLsbD 3 = false ∧ v.extractLsb' 4 4 = t.status.errCode ∧ v.getLsbD 8 = t.status.stickyErr ∧
    v.getLsbD 9 = t.status.werr ∧ v.getLsbD 10 = t.status.fault ∧ v.extractLsb' 11 21 = 0) ∧
  (∀ (s t : State) (v : Word), s.hostTurn (writeAt 0x00C v) t →
    step s = .next { t with
      response := some .written
      status := { t.status with
        stickyErr := if v.getLsbD 8 then false else t.status.stickyErr
        werr := if v.getLsbD 9 then false else t.status.werr } })

/-- R291: the control state after a power-on reset and after a soft reset made in any state, BUSY or not. (CHAIN and
the block index, R291's last row, are no state between steps.) -/
def Obligations.ResetControlState : Prop :=
  ∀ r : State, (r = State.reset ∨ ∃ (s t : State) (v : Word),
      s.hostTurn (writeAt 0x008 v) t ∧ v.getLsbD 0 = true ∧ step s = .next r) →
    hostRead .id r = .ok (0x46435031#32, r) ∧ hostRead .cfg r = .ok (cfgWord r.config, r) ∧
    hostRead .ctrl r = .ok (0, r) ∧ hostRead .cmd r = .ok (0, r) ∧ hostRead .subkeys r = .ok (0, r) ∧
    hostRead .lenIn r = .ok (0, r) ∧ hostRead .lenOut r = .ok (0, r) ∧
    r.phase = .idle ∧
    r.status = { done := false, err := false, errCode := 0, stickyErr := false, werr := false,
                 fault := !tablesOk r.config.tbl } ∧
    (r.config.tbl = defaultTables → hostRead .status r = .ok (0, r))

/-- A soft reset is accepted at any time (70_reset_and_hazards.md R290, R292, R294): every written mark and byte goes,
a latched command is abandoned without a result, the control registers take their reset values (R291), and the model
fault and the configuration stay (R290); a CTRL write with bit 0 clear changes nothing, BUSY or not. That the model's
own turns and draws stay is the model's choice, log entries 5, 7 and 10. The values of the data registers, which R292
leaves open, are not stated. -/
def Obligations.SoftResetAtAnyTime : Prop :=
  ∀ (s t : State) (v : Word), s.hostTurn (writeAt 0x008 v) t →
    (v.getLsbD 0 = true → ∃ r, step s = .next r ∧ r.phase = .idle ∧ r.mem = [] ∧
      (∀ x, r.isWritten x = false) ∧ r.latched = 0 ∧ r.subkeys = 0 ∧ r.lenIn = 0 ∧ r.lenOut = 0 ∧
      r.status = { done := false, err := false, errCode := 0, stickyErr := false, werr := false,
                   fault := !tablesOk t.config.tbl } ∧
      r.modelFault = t.modelFault ∧ r.config = t.config ∧
      r.turns = t.turns ∧ r.draws = t.draws ∧ r.response = some .written) ∧
    (v.getLsbD 0 = false → step s = .next { t with response := some .written })

/-- R37: a CMD write while Idle stores the word, sets BUSY and clears DONE, ERR and ERRCODE; one while BUSY is dropped
and sets WERR; a read returns the last word stored; the reset value is 0, which encodes no command. -/
def Obligations.CmdWriteStartsTheCommand : Prop :=
  (∀ (s t : State) (v : Word), s.hostTurn (writeAt 0x010 v) t →
    (t.phase = .idle → step s = .next { t with
      latched := v
      phase := .busy
      status := { t.status with done := false, err := false, errCode := 0 }
      response := some .written }) ∧
    (t.phase = .busy → step s = .next { t with
      status := { t.status with werr := true }
      response := some .written })) ∧
  (∀ s t : State, s.hostTurn (readAt 0x010) t → step s = .next { t with response := some (.data t.latched) }) ∧
  State.reset.latched = 0 ∧ (∃ e, decode State.reset.latched = .error e)

/-- While BUSY every aligned write other than to STATUS and CTRL is dropped and sets WERR, and no host access but a soft
reset changes an operand, the memory or the latched command (20_memory.md R81, 70_reset_and_hazards.md R302). -/
def Obligations.BusyKeepsTheOperands : Prop :=
  (∀ (s t : State) (a : BitVec 14) (v : Word), s.hostTurn (writeAt a v) t → t.phase = .busy →
    a.toNat % 4 = 0 → a ≠ 0x008 → a ≠ 0x00C →
    step s = .next { t with status := { t.status with werr := true }, response := some .written }) ∧
  (∀ (s t r : State) (a : Access), s.hostTurn a t → t.phase = .busy →
    ¬(a.addr = 0x008 ∧ ∃ v : Word, a.kind = .write v ∧ v.getLsbD 0 = true) → step s = .next r →
    r.phase = .busy ∧ r.latched = t.latched ∧ r.din = t.din ∧ r.din2 = t.din2 ∧ r.keyToy = t.keyToy ∧
    r.ivToy = t.ivToy ∧ r.keyExt = t.keyExt ∧ r.ivExt = t.ivExt ∧ r.lenIn = t.lenIn ∧ r.lenOut = t.lenOut ∧
    r.dout = t.dout ∧ r.subkeys = t.subkeys ∧ r.mem = t.mem ∧ r.written = t.written ∧ r.config = t.config)

/-- A read of DOUT, SUBKEYS, LEN_OUT or an OUT_BUF word while BUSY returns a free value and moves the draw counter on,
whatever the registers hold; a read of CMD or of an operand register returns what it holds, BUSY or not
(20_memory.md R81); a read of DOUT, SUBKEYS or LEN_OUT while Idle returns the stored value, zero-extended (10_state.md
R44, R47, R49; R82). The draws are log entry 7; that the read of an unwritten register answers what it holds and is
recorded in the model fault is the model's choice, log entry 2. -/
def Obligations.BusyReadsAreFree : Prop :=
  (∀ (s t : State) (a : BitVec 14), t.config.capWellFormed = true → s.hostTurn (readAt a) t → t.phase = .busy →
    (a = 0x01C ∨ a = 0x028 ∨ a = 0x030 ∨
      (a.toNat % 4 = 0 ∧ 0x2000 ≤ a.toNat ∧ a.toNat < 0x2000 + t.config.msgCap)) →
    step s = .next { t with response := some (.data (Config.freeRead t.draws)), draws := t.draws + 1 }) ∧
  (∀ (s t : State) (x : BitVec 14 × Word), s.hostTurn (readAt x.1) t →
    x ∈ [(0x010, t.latched), (0x014, t.din), (0x018, t.din2), (0x020, 0#22 ++ t.keyToy), (0x024, 0#24 ++ t.ivToy),
         (0x02C, 0#19 ++ t.lenIn), (0x040, t.keyExt.w0), (0x044, t.keyExt.w1), (0x048, t.keyExt.w2),
         (0x04C, t.keyExt.w3), (0x050, t.ivExt.w0), (0x054, t.ivExt.w1), (0x058, t.ivExt.w2), (0x05C, t.ivExt.w3)] →
    ∃ f, step s = .next { t with response := some (.data x.2), modelFault := f }) ∧
  (∀ s t : State, t.phase = .idle →
    (s.hostTurn (readAt 0x01C) t → step s = .next { t.noteRead .dout with response := some (.data t.dout) }) ∧
    (s.hostTurn (readAt 0x028) t → step s = .next { t with response := some (.data (0#15 ++ t.subkeys)) }) ∧
    (s.hostTurn (readAt 0x030) t → step s = .next { t with response := some (.data (0#19 ++ t.lenOut)) }))

/-- R74: the four bytes of a buffer word, the lowest address in bits [31:24]. A write to an IN_BUF word stores all
four bytes and marks them written, past LEN_IN too, and changes nothing else; a read returns them in the same order. There is
no narrower access. A write to an OUT_BUF word while Idle is ignored (10_state.md R53). -/
def Obligations.BufferWordOrder : Prop :=
  (∀ (s t : State) (a : BitVec 14) (v : Word), t.config.capWellFormed = true → s.hostTurn (writeAt a v) t →
    t.phase = .idle → a.toNat % 4 = 0 → 0x1000 ≤ a.toNat → a.toNat < 0x1000 + t.config.msgCap →
    ∃ m, t.mem.stored m a.toNat
        [v.extractLsb' 24 8, v.extractLsb' 16 8, v.extractLsb' 8 8, v.extractLsb' 0 8] ∧
      step s = .next { t with mem := m, response := some .written }) ∧
  (∀ (s t : State) (a : BitVec 14) (b0 b1 b2 b3 : Byte), t.config.capWellFormed = true → s.hostTurn (readAt a) t →
    a.toNat % 4 = 0 →
    ((0x1000 ≤ a.toNat ∧ a.toNat < 0x1000 + t.config.msgCap) ∨
     (t.phase = .idle ∧ 0x2000 ≤ a.toNat ∧ a.toNat < 0x2000 + t.config.msgCap)) →
    t.mem.holds a.toNat [b0, b1, b2, b3] →
    step s = .next { t with response := some (.data (b0 ++ b1 ++ b2 ++ b3)) }) ∧
  (∀ (s t : State) (a : Access), s.hostTurn a t → a.width = 8 ∨ a.width = 16 →
    step s = .next { t with response := some .busError }) ∧
  (∀ (s t : State) (a : BitVec 14) (v : Word), t.config.capWellFormed = true → s.hostTurn (writeAt a v) t →
    t.phase = .idle → a.toNat % 4 = 0 → 0x2000 ≤ a.toNat → a.toNat < 0x2000 + t.config.msgCap →
    step s = .next { t with response := some .written })

/-- The host's writes to the operand registers while Idle (10_state.md R42, R43, R46, R48, R50, R51): the bits the
register has are stored, its written mark is set, and nothing else changes: a write to a word of
KEY_EXT or IV_EXT changes that word and its mark alone (R50, R51). A read of KEY_TOY or IV_TOY gives it back with the
reserved bits 0. That a read of an unwritten register answers what it holds and is recorded is the model's choice, log
entry 2. -/
def Obligations.OperandRegisterWrites : Prop :=
  ∀ (s t : State) (v : Word), t.phase = .idle →
    (s.hostTurn (writeAt 0x014 v) t → step s = .next { t with
      din := v, written := { t.written with din := true }, response := some .written }) ∧
    (s.hostTurn (writeAt 0x018 v) t → step s = .next { t with
      din2 := v, written := { t.written with din2 := true }, response := some .written }) ∧
    (s.hostTurn (writeAt 0x024 v) t → step s = .next { t with
      ivToy := v.extractLsb' 0 8, written := { t.written with ivToy := true }, response := some .written }) ∧
    (s.hostTurn (writeAt 0x02C v) t → step s = .next { t with
      lenIn := v.extractLsb' 0 13, response := some .written }) ∧
    (s.hostTurn (writeAt 0x040 v) t → step s = .next { t with
      keyExt := { t.keyExt with w0 := v }
      written := { t.written with keyExt := { t.written.keyExt with w0 := true } }
      response := some .written }) ∧
    (s.hostTurn (writeAt 0x044 v) t → step s = .next { t with
      keyExt := { t.keyExt with w1 := v }
      written := { t.written with keyExt := { t.written.keyExt with w1 := true } }
      response := some .written }) ∧
    (s.hostTurn (writeAt 0x048 v) t → step s = .next { t with
      keyExt := { t.keyExt with w2 := v }
      written := { t.written with keyExt := { t.written.keyExt with w2 := true } }
      response := some .written }) ∧
    (s.hostTurn (writeAt 0x04C v) t → step s = .next { t with
      keyExt := { t.keyExt with w3 := v }
      written := { t.written with keyExt := { t.written.keyExt with w3 := true } }
      response := some .written }) ∧
    (s.hostTurn (writeAt 0x050 v) t → step s = .next { t with
      ivExt := { t.ivExt with w0 := v }
      written := { t.written with ivExt := { t.written.ivExt with w0 := true } }
      response := some .written }) ∧
    (s.hostTurn (writeAt 0x054 v) t → step s = .next { t with
      ivExt := { t.ivExt with w1 := v }
      written := { t.written with ivExt := { t.written.ivExt with w1 := true } }
      response := some .written }) ∧
    (s.hostTurn (writeAt 0x058 v) t → step s = .next { t with
      ivExt := { t.ivExt with w2 := v }
      written := { t.written with ivExt := { t.written.ivExt with w2 := true } }
      response := some .written }) ∧
    (s.hostTurn (writeAt 0x05C v) t → step s = .next { t with
      ivExt := { t.ivExt with w3 := v }
      written := { t.written with ivExt := { t.written.ivExt with w3 := true } }
      response := some .written }) ∧
    (s.hostTurn (readAt 0x020) t → step s = .next { t.noteRead .keyToy with
      response := some (.data (0#22 ++ t.keyToy)) }) ∧
    (s.hostTurn (readAt 0x024) t → step s = .next { t.noteRead .ivToy with
      response := some (.data (0#24 ++ t.ivToy)) })

/-- R174: a KEY_TOY write accepted while Idle clears SKVALID and leaves SUBKEYS[15:0], and every step keeps
"SKVALID = 1 means SUBKEYS[15:0] = KS(KEY_TOY)", from every state. -/
def Obligations.KeyWriteClearsSkvalid : Prop :=
  (∀ (s t : State) (v : Word), s.hostTurn (writeAt 0x020 v) t → t.phase = .idle → ∃ k : BitVec 17,
    k.getLsbD 16 = false ∧ k.extractLsb' 0 16 = t.subkeys.extractLsb' 0 16 ∧
    step s = .next { t with
      keyToy := v.extractLsb' 0 10, subkeys := k, written := { t.written with keyToy := true },
      response := some .written }) ∧
  (∀ s t : State, s.subkeysValid → step s = .next t → t.subkeysValid)

/-- No host read changes the state, but for the model's own fields: the response, the draw counter and the record of
an unwritten read (20_memory.md R78). -/
def Obligations.ReadsChangeNothing : Prop :=
  ∀ (s t r : State) (a : Access), s.hostTurn a t → a.kind = .read → step s = .next r →
    r = { t with response := r.response, draws := r.draws, modelFault := r.modelFault }

/-! ## The whole machine -/

/-- R293: the table check made at every reset. FAULT is 0 exactly when every permutation table has its length and its
entries in range, and each S-box has 4 rows of 4 entries below 4; the default tables pass. -/
def Obligations.TableCheckAtReset : Prop :=
  (∀ (c : Config) (s : State), s.config = c →
    ((State.resetFor c).status.fault = false ↔
      (c.tbl.ip.length = 8 ∧ (∀ e ∈ c.tbl.ip, e < 8)) ∧ (c.tbl.ipinv.length = 8 ∧ (∀ e ∈ c.tbl.ipinv, e < 8)) ∧
      (c.tbl.ep.length = 8 ∧ (∀ e ∈ c.tbl.ep, e < 4)) ∧ (c.tbl.p4.length = 4 ∧ (∀ e ∈ c.tbl.p4, e < 4)) ∧
      (c.tbl.s0.length = 4 ∧ (∀ r ∈ c.tbl.s0, r.length = 4 ∧ ∀ e ∈ r, e < 4)) ∧
      (c.tbl.s1.length = 4 ∧ (∀ r ∈ c.tbl.s1, r.length = 4 ∧ ∀ e ∈ r, e < 4))) ∧
    s.softReset.status.fault = (State.resetFor c).status.fault) ∧
  State.reset.status.fault = false

/-- Every step keeps the invariant, from every state that has it (see `State.Inv` for its clauses and their rules). -/
def Obligations.StepKeepsTheInvariant : Prop :=
  ∀ s t : State, s.Inv → step s = .next t → t.Inv

/-- The invariant holds after reset. -/
def Obligations.ResetHasTheInvariant : Prop := State.reset.Inv

/-- No step changes the configuration (10_state.md R31), clears a recorded model fault (60_exceptions.md R268) or
counts draws down (log entry 7). What is written (R56): a register by its mark, a buffer byte by its entry. Noting a read
of an unwritten datum records it where no fault is recorded yet, and else does nothing; a key or an IV is noted word by
word. The step of a model as R268 has it (`modelStep`): a faulted model makes no further step, not even a reset; a step
that reads no unwritten datum is the machine's; and one that reads one records the first it reads and writes nothing
else, where the machine's own step stops at it if one of the data read is an unwritten buffer byte, and else records it
and goes on. `stepReads` is what a step reads, in order. That the machine's own step goes on after an unwritten register
read is the model's choice, log entry 2; the order of the reads is log entry 15. -/
def Obligations.StepKeepsConfigAndModelFault : Prop :=
  (∀ s t : State, step s = .next t →
    t.config = s.config ∧ (s.modelFault ≠ none → t.modelFault = s.modelFault) ∧ s.draws ≤ t.draws) ∧
  (∀ s : State,
    s.isWritten .din = s.written.din ∧ s.isWritten .din2 = s.written.din2 ∧ s.isWritten .dout = s.written.dout ∧
    s.isWritten .keyToy = s.written.keyToy ∧ s.isWritten .ivToy = s.written.ivToy ∧
    s.isWritten (.keyExt 0) = s.written.keyExt.w0 ∧ s.isWritten (.keyExt 1) = s.written.keyExt.w1 ∧
    s.isWritten (.keyExt 2) = s.written.keyExt.w2 ∧ s.isWritten (.keyExt 3) = s.written.keyExt.w3 ∧
    s.isWritten (.ivExt 0) = s.written.ivExt.w0 ∧ s.isWritten (.ivExt 1) = s.written.ivExt.w1 ∧
    s.isWritten (.ivExt 2) = s.written.ivExt.w2 ∧ s.isWritten (.ivExt 3) = s.written.ivExt.w3 ∧
    ∀ a, (s.isWritten (.byte a) = true ↔ s.mem.read a ≠ none)) ∧
  (∀ (s : State) (x : Datum),
    (s.isWritten x = false → s.modelFault = none → s.noteRead x = { s with modelFault := some (.unwrittenRead x) }) ∧
    (s.isWritten x = true ∨ s.modelFault ≠ none → s.noteRead x = s)) ∧
  (∀ s : State, s.noteKey .toy = s.noteRead .keyToy ∧ s.noteIv .toy = s.noteRead .ivToy ∧
    s.noteKey .ext =
      (((s.noteRead (.keyExt 0)).noteRead (.keyExt 1)).noteRead (.keyExt 2)).noteRead (.keyExt 3) ∧
    s.noteIv .ext = (((s.noteRead (.ivExt 0)).noteRead (.ivExt 1)).noteRead (.ivExt 2)).noteRead (.ivExt 3)) ∧
  (∀ s : State, s.modelFault ≠ none → modelStep s = s) ∧
  (∀ s : State, s.modelFault = none → (∀ x ∈ s.stepReads, s.isWritten x = true) →
    step s = .next (modelStep s) ∧ (modelStep s).modelFault = none) ∧
  (∀ (s : State) (l r : List Datum) (x : Datum), s.modelFault = none → s.stepReads = l ++ x :: r →
    (∀ y ∈ l, s.isWritten y = true) → s.isWritten x = false →
    modelStep s = { s with modelFault := some (.unwrittenRead x) } ∧
    ((∃ a, .byte a ∈ s.stepReads ∧ s.mem.read a = none) → step s = .fault (.unwrittenRead x)) ∧
    ((∀ a, .byte a ∈ s.stepReads → s.mem.read a ≠ none) →
      ∃ t, step s = .next t ∧ t.modelFault = some (.unwrittenRead x)))

/-- The end of a run (70_reset_and_hazards.md R314). A latched command is performed, by the core's step for that word,
after at most the turns still to come, unless a host access before it is a soft reset or stops in a fault; a run whose
turns are used up and one step more is Idle. As R314 counts runs, over `modelStep`: every run ends or meets a model
fault, a run in which one is set has no end, and the state at the end is one only. That a latched command is performed
once no turn is left is the model's choice, log entry 5; the assumption R312 speaks of is in
FairExecutionsPerformEveryCommand. -/
def Obligations.EveryLatchedCommandIsPerformed : Prop :=
  (∀ s : State, s.phase = .busy → (∀ v : Word, v.getLsbD 0 = true → .host (writeAt 0x008 v) ∉ s.turns) →
    (∃ n t u, n ≤ s.turns.length ∧ Sys2Proof.core.run n s = .next t ∧ t.coreTurn u ∧ u.latched = s.latched) ∨
    (∃ n f, n ≤ s.turns.length ∧ Sys2Proof.core.run n s = .fault f)) ∧
  (∀ s t : State, Sys2Proof.core.run (s.turns.length + 1) s = .next t → t.turns = [] ∧ t.phase = .idle) ∧
  (∀ s : State, (∃ t, s.runEnds t) ∨ ∃ n, (modelRun n s).modelFault ≠ none) ∧
  (∀ s t : State, s.modelFault ≠ none → ¬s.runEnds t) ∧
  (∀ s t u : State, s.runEnds t → s.runEnds u → t = u)

/-- The written marks and the recorded model fault are bookkeeping (10_state.md R56): whatever they are, a command
computes the same, and stops in a fault in the same states (which unwritten read the fault names is what they record).
That an unwritten register does not stop it is the model's choice, log entry 2. -/
def Obligations.MarksOnlyRecord : Prop :=
  ∀ (i : Instr) (s : State) (w : Written) (f : Option Fault),
    (∀ t, exec i s = .next t → ∃ t', exec i { s with written := w, modelFault := f } = .next t' ∧
      t = { t' with written := t.written, modelFault := t.modelFault }) ∧
    (∀ e, exec i s = .fault e → ∃ e', exec i { s with written := w, modelFault := f } = .fault e')

/-- No command is refused, and a command stops in a fault exactly where one of the buffer bytes it reads is unwritten
(20_memory.md R86; log entry 3): a byte of the message in IN_BUF, or for XFER of the output in OUT_BUF. The fault names
the first unwritten datum of those the command reads, in order (60_exceptions.md R268; `commandReads`, log entry 15), or
the one already recorded. The same spelled out by ranges: PAD, UNPAD_LEN, XFER and the modes, once their checks pass and
their registers are written, stop at the first unwritten byte of the range they read; UNPAD_SCAN stops at an unwritten
byte below zeros in the last block, and, where it finds the marker, at the first unwritten byte before it. A host read
of a buffer word stops exactly where one of its four bytes is unwritten (in OUT_BUF while Idle), and no other host
access and no illegal word stops. That an unwritten register never stops a step, which R268 has a model do
(`modelStep`), is the model's choice, log entry 2. -/
def Obligations.CommandsStopOnlyAtUnwrittenBytes : Prop :=
  (∀ (i : Instr) (s : State),
    (∀ r, exec i s ≠ .refused r) ∧
    (∀ (l r : List Datum) (x : Datum) (a : Nat), commandReads i s = l ++ x :: r → (∀ y ∈ l, s.isWritten y = true) →
      s.isWritten x = false → .byte a ∈ commandReads i s → s.mem.read a = none →
      exec i s = .fault (s.modelFault.getD (.unwrittenRead x))) ∧
    (∀ e, exec i s = .fault e → ∃ a, .byte a ∈ commandReads i s ∧ s.mem.read a = none ∧
      ((i.writesOut ∧ inBase ≤ a ∧ a < inBase + s.lenIn.toNat) ∨
       (i = .xfer ∧ outBase ≤ a ∧ a < outBase + s.lenOut.toNat)))) ∧
  (∀ (i : Instr) (s : State) (base n k : Nat), s.ready i.prim → s.modelFault = none →
    (∀ x, (∀ a, x ≠ .byte a) → s.isWritten x = true) →
    (i = .xfer ∧ base = outBase ∧ n = s.lenOut.toNat) ∨
    (s.lenIn.toNat ≤ s.config.msgCap ∧ ¬lengthInvalid s i ∧ base = inBase ∧
      ((i = .unpadLen ∧ n = s.din.toNat) ∨ (i.isMode ∧ n = s.lenIn.toNat) ∨
       ∃ p, i = .pad p ∧ n = s.lenIn.toNat ∧ n + (Prim.blockBytes p - n % Prim.blockBytes p) ≤ s.config.msgCap)) →
    k < n → s.mem.read (base + k) = none → (∀ j, j < k → s.mem.read (base + j) ≠ none) →
    exec i s = .fault (.unwrittenRead (.byte (base + k)))) ∧
  (∀ (p : Prim) (s : State) (k m : Nat), s.ready p → s.modelFault = none → s.lenIn.toNat ≤ s.config.msgCap →
    ¬lengthInvalid s (.unpadScan p) → s.lenIn.toNat - Prim.blockBytes p ≤ m → m < s.lenIn.toNat →
    (∀ j, m < j → j < s.lenIn.toNat → s.mem.read (inBase + j) = some 0x00#8) →
    (k = m ∧ s.mem.read (inBase + m) = none) ∨
    (s.mem.read (inBase + m) = some 0x80#8 ∧ k < m ∧ s.mem.read (inBase + k) = none ∧
      ∀ j, j < k → s.mem.read (inBase + j) ≠ none) →
    exec (.unpadScan p) s = .fault (.unwrittenRead (.byte (inBase + k)))) ∧
  (∀ (s t : State) (a : BitVec 14), t.config.capWellFormed = true → s.hostTurn (readAt a) t → a.toNat % 4 = 0 →
    ((0x1000 ≤ a.toNat ∧ a.toNat < 0x1000 + t.config.msgCap) ∨
     (t.phase = .idle ∧ 0x2000 ≤ a.toNat ∧ a.toNat < 0x2000 + t.config.msgCap)) →
    ∀ k, k < 4 → t.mem.read (a.toNat + k) = none → (∀ j, j < k → t.mem.read (a.toNat + j) ≠ none) →
      step s = .fault (t.modelFault.getD (.unwrittenRead (.byte (a.toNat + k))))) ∧
  (∀ (s t : State) (acc : Access) (e : Fault), s.hostTurn acc t → step s = .fault e →
    ∃ a : BitVec 14, acc = readAt a ∧ a.toNat % 4 = 0 ∧ (∃ k, k < 4 ∧ t.mem.read (a.toNat + k) = none) ∧
      ((0x1000 ≤ a.toNat ∧ a.toNat < 0x1000 + t.config.msgCap) ∨
       (t.phase = .idle ∧ 0x2000 ≤ a.toNat ∧ a.toNat < 0x2000 + t.config.msgCap))) ∧
  (∀ (s t : State) (e : IllegalWord), s.coreTurn t → decode t.latched = .error e → ∃ u, step s = .next u)

/-- Fairness (70_reset_and_hazards.md R312) as an assumption on executions, in which host accesses and core turns come in
any order (20_memory.md R80). In a fair execution a Busy block comes to perform the word it has latched, unless a soft
reset abandons it (R294), and is Idle again; and a host that from some point on only polls STATUS, for ever, reads
BUSY = 0: every `wait` ends. Without fairness neither holds: from every Busy state there is an execution of polls in
which the block is Busy for ever. -/
def Obligations.FairExecutionsPerformEveryCommand : Prop :=
  (∀ (state : Nat → State) (event : Nat → Turn), isExecution state event → weaklyFair state event →
    ∀ n, (state n).phase = .busy → ∃ m, n ≤ m ∧
      (∀ k, n ≤ k → k ≤ m → (state k).phase = .busy ∧ (state k).latched = (state n).latched) ∧
      (state (m + 1)).phase = .idle ∧
      ((event m = .core ∧ coreStep (state m) = .next (state (m + 1))) ∨
       ∃ v : Word, v.getLsbD 0 = true ∧ event m = .host (writeAt 0x008 v))) ∧
  (∀ (state : Nat → State) (event : Nat → Turn), isExecution state event → weaklyFair state event →
    ∀ n, (∀ m, n ≤ m → event m = .core ∨ event m = .host (readAt 0x00C)) →
      (∀ m, ∃ k, m ≤ k ∧ event k = .host (readAt 0x00C)) →
      ∃ m v, n ≤ m ∧ event m = .host (readAt 0x00C) ∧ (state (m + 1)).response = some (.data v) ∧
        v.getLsbD 0 = false) ∧
  (∀ s : State, s.phase = .busy → ∃ (state : Nat → State) (event : Nat → Turn), state 0 = s ∧
    isExecution state event ∧ ∀ n, event n = .host (readAt 0x00C) ∧ (state n).phase = .busy)
end

