-- ==== Sys2Proof/Laws/Bits.lean ====
section
/-! SUPPORT. The laws of the bit and byte helpers: lengths, and the packing of bytes into blocks and segments undone by the unpacking. -/

namespace Sys2Proof.Machine

/-! ## Chunks -/

@[simp] theorem chunks_length {α : Type} (size count : Nat) (l : List α) : (chunks size count l).length = count := by
  induction count generalizing l with
  | zero => rfl
  | succ n ih => simp [chunks, ih]

theorem chunks_getElem? {α : Type} (size count j : Nat) (l : List α) (h : j < count) :
    (chunks size count l)[j]? = some ((l.drop (size * j)).take size) := by
  induction count generalizing l j with
  | zero => omega
  | succ n ih =>
    cases j with
    | zero => simp [chunks]
    | succ j =>
      rw [chunks, List.getElem?_cons_succ, ih j (l.drop size) (by omega), List.drop_drop, Nat.mul_succ,
        Nat.add_comm size]

/-- Every chunk of a list that is long enough has the full size. -/
theorem chunks_full {α : Type} {size count : Nat} {l c : List α} (h : count * size ≤ l.length)
    (hc : c ∈ chunks size count l) : c.length = size := by
  induction count generalizing l with
  | zero => simp [chunks] at hc
  | succ n ih =>
    have hs : size + n * size ≤ l.length := by rw [Nat.add_comm, ← Nat.succ_mul]; exact h
    rcases List.mem_cons.1 hc with rfl | hc
    · simp; omega
    · exact ih (by simp; omega) hc

/-- The chunks of a list, joined again. -/
theorem chunks_flatten {α : Type} (size count : Nat) (l : List α) (h : l.length = count * size) :
    (chunks size count l).flatten = l := by
  induction count generalizing l with
  | zero => simp at h; simp [chunks, h]
  | succ n ih =>
    have hs : l.length = size + n * size := by rw [h, Nat.succ_mul, Nat.add_comm]
    rw [chunks, List.flatten_cons, ih _ (by simp; omega), List.take_append_drop]

/-- Lists of one size, joined and cut again. -/
theorem chunks_of_flatten {α : Type} (size : Nat) (ls : List (List α)) (h : ∀ c ∈ ls, c.length = size) :
    chunks size ls.length ls.flatten = ls := by
  induction ls with
  | nil => rfl
  | cons c ls ih =>
    have hc := h c List.mem_cons_self
    rw [List.length_cons, chunks, List.flatten_cons, List.take_left' hc, List.drop_left' hc,
      ih fun d hd => h d (List.mem_cons_of_mem _ hd)]

theorem flatten_length_of_size {α : Type} (size : Nat) (ls : List (List α)) (h : ∀ c ∈ ls, c.length = size) :
    ls.flatten.length = ls.length * size := by
  induction ls with
  | nil => simp
  | cons c ls ih =>
    rw [List.flatten_cons, List.length_append, h c List.mem_cons_self,
      ih fun d hd => h d (List.mem_cons_of_mem _ hd), List.length_cons, Nat.succ_mul, Nat.add_comm]

/-! ## A block and its bytes -/

/-- The number whose base-256 digits are the bytes, the first most significant. -/
def bytesValue (bs : List Byte) : Nat := bs.foldl (fun acc b => 256 * acc + b.toNat) 0

theorem foldl_bytes (bs : List Byte) (acc : Nat) :
    bs.foldl (fun acc b => 256 * acc + b.toNat) acc = acc * 256 ^ bs.length + bytesValue bs := by
  induction bs generalizing acc with
  | nil => simp [bytesValue]
  | cons b bs ih =>
    rw [bytesValue, List.foldl_cons, List.foldl_cons, ih, ih, List.length_cons, Nat.pow_succ]
    ring

theorem bytesValue_cons (b : Byte) (bs : List Byte) :
    bytesValue (b :: bs) = b.toNat * 256 ^ bs.length + bytesValue bs := by
  rw [bytesValue, List.foldl_cons, foldl_bytes]; simp

theorem bytesValue_lt (bs : List Byte) : bytesValue bs < 256 ^ bs.length := by
  induction bs with
  | nil => simp [bytesValue]
  | cons b bs ih =>
    rw [bytesValue_cons, List.length_cons, Nat.pow_succ]
    have := b.isLt
    nlinarith

/-- Byte k of the number, from its digits. -/
theorem bytesValue_digit (bs : List Byte) (k : Nat) (h : k < bs.length) :
    bytesValue bs / 256 ^ (bs.length - 1 - k) % 256 = (bs[k]).toNat := by
  induction bs generalizing k with
  | nil => simp at h
  | cons b bs ih =>
    rw [bytesValue_cons]
    cases k with
    | zero =>
      have := bytesValue_lt bs
      have hb : b.toNat < 256 := b.isLt
      have hp : 0 < 256 ^ bs.length := by positivity
      simp only [List.length_cons, Nat.add_sub_cancel, Nat.sub_zero, List.getElem_cons_zero]
      rw [Nat.mul_comm, Nat.mul_add_div hp, Nat.div_eq_of_lt this, Nat.add_zero, Nat.mod_eq_of_lt hb]
    | succ k =>
      have hk : k < bs.length := by simpa using h
      have he : (b :: bs).length - 1 - (k + 1) = bs.length - 1 - k := by simp; omega
      have hp : 0 < 256 ^ (bs.length - 1 - k) := by positivity
      have hs : 256 ^ bs.length = 256 ^ (bs.length - 1 - k) * (256 * 256 ^ k) := by
        rw [← Nat.pow_succ', ← Nat.pow_add]; congr 1; omega
      rw [he, hs, show b.toNat * (256 ^ (bs.length - 1 - k) * (256 * 256 ^ k)) =
        256 ^ (bs.length - 1 - k) * (256 * (b.toNat * 256 ^ k)) by ring, Nat.mul_add_div hp, Nat.mul_add_mod,
        List.getElem_cons_succ]
      exact ih k hk

@[simp] theorem toBytes_length {w : Nat} (v : BitVec w) : (toBytes v).length = w / 8 := by simp [toBytes]

/-- The bytes of a block put together and taken apart. -/
theorem toBytes_fromBytes (n : Nat) (bs : List Byte) (h : bs.length = n) : toBytes (fromBytes (8 * n) bs) = bs := by
  apply List.ext_getElem
  · simp [h]
  · intro k hk hk'
    have hn : k < n := h ▸ hk'
    simp only [toBytes, List.getElem_map, List.getElem_range]
    apply BitVec.eq_of_toNat_eq
    have hlt : bytesValue bs < 2 ^ (8 * n) := by
      have := bytesValue_lt bs
      rwa [h, show (256 : Nat) = 2 ^ 8 by norm_num, ← Nat.pow_mul] at this
    have hd := bytesValue_digit bs k hk'
    rw [h, show (256 : Nat) ^ (n - 1 - k) = 2 ^ (8 * n - 8 - 8 * k) by
      rw [show (256 : Nat) = 2 ^ 8 by norm_num, ← Nat.pow_mul]; congr 1; omega] at hd
    rw [BitVec.extractLsb'_toNat, ← hd, Nat.shiftRight_eq_div_pow]
    simp only [fromBytes, BitVec.toNat_ofNat]
    rw [← bytesValue, Nat.mod_eq_of_lt hlt]

/-- Two blocks with the same bytes are the same block. -/
theorem toBytes_injective (n : Nat) (u v : BitVec (8 * n)) (h : toBytes u = toBytes v) : u = v := by
  apply BitVec.eq_of_getLsbD_eq
  intro i hi
  have hk : n - 1 - i / 8 < (toBytes u).length := by simp; omega
  have hk' : n - 1 - i / 8 < (toBytes v).length := by simp; omega
  have hb : (toBytes u)[n - 1 - i / 8] = (toBytes v)[n - 1 - i / 8] := by simp [h]
  simp only [toBytes, List.getElem_map, List.getElem_range] at hb
  have := congrArg (fun b => b.getLsbD (i % 8)) hb
  simp only [BitVec.getLsbD_extractLsb', show i % 8 < 8 by omega, decide_true, Bool.true_and] at this
  rwa [show 8 * n - 8 - 8 * (n - 1 - i / 8) + i % 8 = i by omega] at this

/-- A block taken apart and put together. -/
theorem fromBytes_toBytes (n : Nat) (v : BitVec (8 * n)) : fromBytes (8 * n) (toBytes v) = v :=
  toBytes_injective n _ _ (toBytes_fromBytes n _ (by simp))

/-! ## A message and its blocks -/

@[simp] theorem blocksOf_length (w : Nat) (m : List Byte) : (blocksOf w m).length = m.length / (w / 8) := by
  simp [blocksOf]

theorem bytesOf_length {w : Nat} (bs : List (BitVec w)) : (bytesOf bs).length = bs.length * (w / 8) := by
  induction bs with
  | nil => simp [bytesOf]
  | cons b bs ih =>
    have : bytesOf (b :: bs) = toBytes b ++ bytesOf bs := rfl
    rw [this, List.length_append, ih, toBytes_length, List.length_cons, Nat.succ_mul, Nat.add_comm]

/-- A message cut into blocks and joined. -/
theorem bytesOf_blocksOf (n : Nat) (m : List Byte) (h : m.length % n = 0) :
    bytesOf (blocksOf (8 * n) m) = m := by
  have hn : 8 * n / 8 = n := by omega
  have hl : m.length = m.length / n * n := (Nat.div_mul_cancel (Nat.dvd_of_mod_eq_zero h)).symm
  simp only [bytesOf, blocksOf, hn, List.flatMap_map]
  have : ∀ c ∈ chunks n (m.length / n) m, toBytes (fromBytes (8 * n) c) = c := fun c hc =>
    toBytes_fromBytes n c (chunks_full (by omega) hc)
  rw [List.flatMap_def, List.map_congr_left this, List.map_id', chunks_flatten n _ m hl]

/-- Blocks joined and cut again. -/
theorem blocksOf_bytesOf (n : Nat) (hpos : 0 < n) (bs : List (BitVec (8 * n))) :
    blocksOf (8 * n) (bytesOf bs) = bs := by
  have hn : 8 * n / 8 = n := by omega
  have hl : (bytesOf bs).length / n = (bs.map toBytes).length := by
    rw [bytesOf_length, hn, Nat.mul_div_cancel _ hpos, List.length_map]
  have hc : ∀ c ∈ bs.map toBytes, c.length = n := by
    intro c hc
    obtain ⟨b, _, rfl⟩ := List.mem_map.1 hc
    rw [toBytes_length, hn]
  rw [blocksOf, hn, hl, bytesOf, List.flatMap_def, chunks_of_flatten n _ hc, List.map_map]
  conv_rhs => rw [← List.map_id bs]
  exact List.map_congr_left fun b _ => fromBytes_toBytes n b

/-- A toy block is a byte (R76). -/
theorem toBytes_byte (b : Byte) : toBytes b = [b] := by
  have : (toBytes b).length = 1 := by simp
  obtain ⟨c, hc⟩ := List.length_eq_one_iff.1 this
  have h := toBytes_fromBytes 1 [b] rfl
  have hf : fromBytes (8 * 1) [b] = b := by
    apply BitVec.eq_of_toNat_eq
    simp [fromBytes]
  rwa [hf] at h

theorem bytesOf_byte (bs : List Byte) : bytesOf (w := 8) bs = bs := by
  induction bs with
  | nil => rfl
  | cons b bs ih => rw [show bytesOf (w := 8) (b :: bs) = toBytes b ++ bytesOf bs from rfl, toBytes_byte, ih]; rfl

theorem blocksOf_byte (m : List Byte) : blocksOf 8 m = m := by
  have := blocksOf_bytesOf 1 (by decide) m
  rwa [show bytesOf (w := 8 * 1) m = m from bytesOf_byte m] at this

/-! ## A message and its nibbles -/

theorem nibblesOf_cons (b : Byte) (m : List Byte) :
    nibblesOf (b :: m) = b.extractLsb' 4 4 :: b.extractLsb' 0 4 :: nibblesOf m := rfl

@[simp] theorem nibblesOf_length (m : List Byte) : (nibblesOf m).length = 2 * m.length := by
  induction m with
  | nil => rfl
  | cons b m ih => rw [nibblesOf_cons]; simp [ih]; omega

theorem byte_of_nibbles (b : Byte) : b.extractLsb' 4 4 ++ b.extractLsb' 0 4 = b := by
  apply BitVec.eq_of_getLsbD_eq
  intro i hi
  rw [BitVec.getLsbD_append]
  split
  · simp_all
  · rename_i h
    simp only [BitVec.getLsbD_extractLsb', show i - 4 < 4 by omega, decide_true, Bool.true_and]
    congr 1; omega

theorem nibbles_of_byte (h l : BitVec 4) : (h ++ l).extractLsb' 4 4 = h ∧ (h ++ l).extractLsb' 0 4 = l := by
  constructor <;> apply BitVec.eq_of_getLsbD_eq <;> intro i hi <;> rw [BitVec.getLsbD_extractLsb', BitVec.getLsbD_append]
  · simp [hi]
  · simp [hi]

theorem bytesOfNibbles_nibblesOf (m : List Byte) : bytesOfNibbles (nibblesOf m) = m := by
  induction m with
  | nil => rfl
  | cons b m ih => rw [nibblesOf_cons, bytesOfNibbles, ih, byte_of_nibbles]

theorem bytesOfNibbles_length : (ns : List (BitVec 4)) → (bytesOfNibbles ns).length = ns.length / 2
  | [] => rfl
  | [_] => by simp [bytesOfNibbles]
  | a :: b :: ns => by rw [bytesOfNibbles, List.length_cons, bytesOfNibbles_length ns]; simp; omega

theorem nibblesOf_bytesOfNibbles : (ns : List (BitVec 4)) → ns.length % 2 = 0 → nibblesOf (bytesOfNibbles ns) = ns
  | [], _ => rfl
  | [_], h => by simp at h
  | a :: b :: ns, h => by
    rw [bytesOfNibbles, nibblesOf_cons, (nibbles_of_byte a b).1, (nibbles_of_byte a b).2,
      nibblesOf_bytesOfNibbles ns (by simp at h ⊢; omega)]

end Sys2Proof.Machine
end

