-- ==== Sys2Proof/Laws/Memory.lean ====
section
/-! SUPPORT. The laws of buffer memory: a read after a write, the canonical form kept, and what a stored or read message is, byte by byte. -/

namespace Sys2Proof.Machine

@[simp] theorem Memory.read_nil (a : Nat) : Memory.read [] a = none := rfl

@[simp] theorem Memory.read_cons (c : Host.Cell) (m : Memory) (a : Nat) :
    Memory.read (c :: m) a = if c.1 = a then some c.2 else Memory.read m a := rfl

/-- A read after a write. -/
theorem Memory.read_write (m : Memory) (a x : Nat) (b : Byte) :
    (m.write a b).read x = if a = x then some b else m.read x := by
  induction m with
  | nil => rfl
  | cons c m ih =>
    unfold Memory.write
    split
    · rfl
    · split
      · rename_i h; subst h; simp only [Memory.read_cons]; split <;> rfl
      · rename_i h; simp only [Memory.read_cons, ih]; split <;> split <;> simp_all

/-- The addresses of a memory after a write. -/
theorem Memory.mem_write {m : Memory} {a : Nat} {b : Byte} {c : Host.Cell} (h : c ∈ m.write a b) :
    c = (a, b) ∨ c ∈ m := by
  induction m with
  | nil => simpa [Memory.write] using h
  | cons d m ih =>
    unfold Memory.write at h
    split at h
    · simpa using h
    · split at h
      · rcases List.mem_cons.1 h with h | h
        · exact .inl h
        · exact .inr (List.mem_cons_of_mem _ h)
      · rcases List.mem_cons.1 h with h | h
        · exact .inr (h ▸ List.mem_cons_self)
        · exact (ih h).imp_right (List.mem_cons_of_mem _)

/-- A write keeps the canonical form. -/
theorem Memory.write_wf (m : Memory) (a : Nat) (b : Byte) (h : m.wf) : (m.write a b).wf := by
  induction m with
  | nil => simp [Memory.write, Memory.wf]
  | cons c m ih =>
    have hc := List.pairwise_cons.1 h
    unfold Memory.write
    split
    · rename_i ha
      refine List.pairwise_cons.2 ⟨fun d hd => ?_, h⟩
      rcases List.mem_cons.1 hd with rfl | hd
      · exact ha
      · exact Nat.lt_trans ha (hc.1 d hd)
    · split
      · rename_i ha
        exact List.pairwise_cons.2 ⟨fun d hd => ha ▸ hc.1 d hd, hc.2⟩
      · rename_i h1 h2
        refine List.pairwise_cons.2 ⟨fun d hd => ?_, ih hc.2⟩
        rcases Memory.mem_write hd with rfl | hd
        · have : c.1 < a := by omega
          exact this
        · exact hc.1 d hd

/-- Storing bytes keeps the canonical form. -/
theorem Memory.writeBytes_wf (m : Memory) (a : Nat) (bs : List Byte) (h : m.wf) : (m.writeBytes a bs).wf := by
  induction bs generalizing m a with
  | nil => exact h
  | cons b bs ih => exact ih _ _ (m.write_wf a b h)

/-- The addresses of a memory after bytes are stored. -/
theorem Memory.mem_writeBytes {m : Memory} {a : Nat} {bs : List Byte} {c : Host.Cell} (h : c ∈ m.writeBytes a bs) :
    (a ≤ c.1 ∧ c.1 < a + bs.length) ∨ c ∈ m := by
  induction bs generalizing m a with
  | nil => exact .inr h
  | cons b bs ih =>
    rcases ih h with h | h
    · left; simp only [List.length_cons]; omega
    · rcases Memory.mem_write h with rfl | h
      · left; simp
      · exact .inr h

/-- Every byte after bytes are stored (R87). -/
theorem Memory.writeBytes_stored (m : Memory) (a : Nat) (bs : List Byte) : m.stored (m.writeBytes a bs) a bs := by
  induction bs generalizing m a with
  | nil => intro x; simp [Memory.writeBytes]
  | cons b bs ih =>
    intro x
    rw [Memory.writeBytes, ih (m.write a b) (a + 1) x, Memory.read_write, List.length_cons]
    by_cases h1 : a + 1 ≤ x ∧ x < a + 1 + bs.length
    · have h2 : a ≤ x ∧ x < a + (bs.length + 1) := by omega
      have h3 : x - a = (x - (a + 1)) + 1 := by omega
      rw [if_pos h1, if_pos h2, h3, List.getElem?_cons_succ]
    · rw [if_neg h1]
      by_cases h4 : a = x
      · subst h4; simp
      · have h2 : ¬(a ≤ x ∧ x < a + (bs.length + 1)) := by omega
        rw [if_neg h4, if_neg h2]

/-- What is stored stands there. -/
theorem Memory.stored_holds {m m' : Memory} {a : Nat} {bs : List Byte} (h : m.stored m' a bs) : m'.holds a bs := by
  intro k hk
  rw [h (a + k), if_pos (by omega)]
  simp [hk]

/-- A byte outside the stored ones is as before. -/
theorem Memory.stored_outside {m m' : Memory} {a : Nat} {bs : List Byte} (h : m.stored m' a bs) (x : Nat)
    (hx : ¬(a ≤ x ∧ x < a + bs.length)) : m'.read x = m.read x := by
  rw [h x, if_neg hx]

theorem Memory.holds_cons {m : Memory} {a : Nat} {b : Byte} {bs : List Byte} :
    m.holds a (b :: bs) ↔ m.read a = some b ∧ m.holds (a + 1) bs := by
  constructor
  · intro h
    refine ⟨h 0 (by simp), fun k hk => ?_⟩
    have := h (k + 1) (by simpa using hk)
    rw [show a + 1 + k = a + (k + 1) by omega]
    simpa using this
  · rintro ⟨h0, h⟩ k hk
    cases k with
    | zero => simpa using h0
    | succ k =>
      have := h k (by simpa using hk)
      rw [show a + (k + 1) = a + 1 + k by omega]
      simpa using this

/-- Reading `n` bytes answers `bs` exactly when `bs` are the `n` bytes that stand there. -/
theorem Memory.readBytes_ok_iff (m : Memory) (a n : Nat) (bs : List Byte) :
    m.readBytes a n = .ok bs ↔ bs.length = n ∧ m.holds a bs := by
  induction n generalizing a bs with
  | zero =>
    cases bs with
    | nil => simp [Memory.readBytes, Memory.holds]
    | cons b bs => simp [Memory.readBytes]
  | succ n ih =>
    unfold Memory.readBytes
    cases bs with
    | nil => split <;> [simp; (split <;> simp)]
    | cons b bs =>
      rw [Memory.holds_cons]
      split
      · rename_i h; simp [h]
      · rename_i c h
        split
        · rename_i x hx
          simp only [reduceCtorEq, false_iff]
          rintro ⟨hl, _, hh⟩
          rw [(ih (a + 1) bs).2 ⟨by simpa using hl, hh⟩] at hx
          cases hx
        · rename_i cs hcs
          simp only [Except.ok.injEq, List.cons.injEq, List.length_cons, Nat.add_right_cancel_iff, h, Option.some.injEq]
          constructor
          · rintro ⟨rfl, rfl⟩
            exact ⟨((ih _ _).1 hcs).1, rfl, ((ih _ _).1 hcs).2⟩
          · rintro ⟨hl, rfl, hh⟩
            rw [(ih (a + 1) bs).2 ⟨hl, hh⟩] at hcs
            cases hcs
            exact ⟨rfl, rfl⟩

/-- Reading `n` bytes stops at an address in range that nothing has written. -/
theorem Memory.readBytes_error (m : Memory) (a n x : Nat) (h : m.readBytes a n = .error x) :
    a ≤ x ∧ x < a + n ∧ m.read x = none := by
  induction n generalizing a with
  | zero => simp [Memory.readBytes] at h
  | succ n ih =>
    unfold Memory.readBytes at h
    split at h
    · rename_i hr; simp only [Except.error.injEq] at h; subst h; exact ⟨Nat.le_refl _, by omega, hr⟩
    · split at h
      · rename_i y hy
        simp only [Except.error.injEq] at h; subst h
        obtain ⟨h1, h2, h3⟩ := ih _ hy
        exact ⟨by omega, by omega, h3⟩
      · cases h

/-- Where every byte is written, reading answers them. -/
theorem Memory.readBytes_total (m : Memory) (a n : Nat) (h : ∀ k, k < n → (m.read (a + k)).isSome = true) :
    ∃ bs, m.readBytes a n = .ok bs := by
  cases hr : m.readBytes a n with
  | ok bs => exact ⟨bs, rfl⟩
  | error x =>
    obtain ⟨h1, h2, h3⟩ := m.readBytes_error a n x hr
    have := h (x - a) (by omega)
    rw [show a + (x - a) = x by omega, h3] at this
    cases this

end Sys2Proof.Machine
end

