-- ==== Sys2Proof/Laws/State.lean ====
section
/-! SUPPORT. One lemma per field and update of State, so that no proof unfolds a record update. -/

namespace Sys2Proof.Machine

variable (s : State)

@[simp] theorem State.ok_phase : (s.ok).phase = .idle := rfl
@[simp] theorem State.ok_latched : (s.ok).latched = s.latched := rfl
@[simp] theorem State.ok_status : (s.ok).status = s.status.succeeded := rfl
@[simp] theorem State.ok_din : (s.ok).din = s.din := rfl
@[simp] theorem State.ok_din2 : (s.ok).din2 = s.din2 := rfl
@[simp] theorem State.ok_dout : (s.ok).dout = s.dout := rfl
@[simp] theorem State.ok_keyToy : (s.ok).keyToy = s.keyToy := rfl
@[simp] theorem State.ok_ivToy : (s.ok).ivToy = s.ivToy := rfl
@[simp] theorem State.ok_subkeys : (s.ok).subkeys = s.subkeys := rfl
@[simp] theorem State.ok_lenIn : (s.ok).lenIn = s.lenIn := rfl
@[simp] theorem State.ok_lenOut : (s.ok).lenOut = s.lenOut := rfl
@[simp] theorem State.ok_keyExt : (s.ok).keyExt = s.keyExt := rfl
@[simp] theorem State.ok_ivExt : (s.ok).ivExt = s.ivExt := rfl
@[simp] theorem State.ok_mem : (s.ok).mem = s.mem := rfl
@[simp] theorem State.ok_written : (s.ok).written = s.written := rfl
@[simp] theorem State.ok_modelFault : (s.ok).modelFault = s.modelFault := rfl
@[simp] theorem State.ok_config : (s.ok).config = s.config := rfl
@[simp] theorem State.ok_turns : (s.ok).turns = s.turns := rfl
@[simp] theorem State.ok_response : (s.ok).response = s.response := rfl
@[simp] theorem State.ok_draws : (s.ok).draws = s.draws := rfl

@[simp] theorem State.raise_phase (e : ErrorKind) : (s.raise e).phase = .idle := rfl
@[simp] theorem State.raise_latched (e : ErrorKind) : (s.raise e).latched = s.latched := rfl
@[simp] theorem State.raise_status (e : ErrorKind) : (s.raise e).status = s.status.failed e := rfl
@[simp] theorem State.raise_din (e : ErrorKind) : (s.raise e).din = s.din := rfl
@[simp] theorem State.raise_din2 (e : ErrorKind) : (s.raise e).din2 = s.din2 := rfl
@[simp] theorem State.raise_dout (e : ErrorKind) : (s.raise e).dout = s.dout := rfl
@[simp] theorem State.raise_keyToy (e : ErrorKind) : (s.raise e).keyToy = s.keyToy := rfl
@[simp] theorem State.raise_ivToy (e : ErrorKind) : (s.raise e).ivToy = s.ivToy := rfl
@[simp] theorem State.raise_subkeys (e : ErrorKind) : (s.raise e).subkeys = s.subkeys := rfl
@[simp] theorem State.raise_lenIn (e : ErrorKind) : (s.raise e).lenIn = s.lenIn := rfl
@[simp] theorem State.raise_lenOut (e : ErrorKind) : (s.raise e).lenOut = s.lenOut := rfl
@[simp] theorem State.raise_keyExt (e : ErrorKind) : (s.raise e).keyExt = s.keyExt := rfl
@[simp] theorem State.raise_ivExt (e : ErrorKind) : (s.raise e).ivExt = s.ivExt := rfl
@[simp] theorem State.raise_mem (e : ErrorKind) : (s.raise e).mem = s.mem := rfl
@[simp] theorem State.raise_written (e : ErrorKind) : (s.raise e).written = s.written := rfl
@[simp] theorem State.raise_modelFault (e : ErrorKind) : (s.raise e).modelFault = s.modelFault := rfl
@[simp] theorem State.raise_config (e : ErrorKind) : (s.raise e).config = s.config := rfl
@[simp] theorem State.raise_turns (e : ErrorKind) : (s.raise e).turns = s.turns := rfl
@[simp] theorem State.raise_response (e : ErrorKind) : (s.raise e).response = s.response := rfl
@[simp] theorem State.raise_draws (e : ErrorKind) : (s.raise e).draws = s.draws := rfl

@[simp] theorem State.setDout_phase {w : Nat} (v : BitVec w) : (s.setDout v).phase = s.phase := rfl
@[simp] theorem State.setDout_latched {w : Nat} (v : BitVec w) : (s.setDout v).latched = s.latched := rfl
@[simp] theorem State.setDout_status {w : Nat} (v : BitVec w) : (s.setDout v).status = s.status := rfl
@[simp] theorem State.setDout_din {w : Nat} (v : BitVec w) : (s.setDout v).din = s.din := rfl
@[simp] theorem State.setDout_din2 {w : Nat} (v : BitVec w) : (s.setDout v).din2 = s.din2 := rfl
@[simp] theorem State.setDout_dout {w : Nat} (v : BitVec w) : (s.setDout v).dout = v.setWidth 32 := rfl
@[simp] theorem State.setDout_keyToy {w : Nat} (v : BitVec w) : (s.setDout v).keyToy = s.keyToy := rfl
@[simp] theorem State.setDout_ivToy {w : Nat} (v : BitVec w) : (s.setDout v).ivToy = s.ivToy := rfl
@[simp] theorem State.setDout_subkeys {w : Nat} (v : BitVec w) : (s.setDout v).subkeys = s.subkeys := rfl
@[simp] theorem State.setDout_lenIn {w : Nat} (v : BitVec w) : (s.setDout v).lenIn = s.lenIn := rfl
@[simp] theorem State.setDout_lenOut {w : Nat} (v : BitVec w) : (s.setDout v).lenOut = s.lenOut := rfl
@[simp] theorem State.setDout_keyExt {w : Nat} (v : BitVec w) : (s.setDout v).keyExt = s.keyExt := rfl
@[simp] theorem State.setDout_ivExt {w : Nat} (v : BitVec w) : (s.setDout v).ivExt = s.ivExt := rfl
@[simp] theorem State.setDout_mem {w : Nat} (v : BitVec w) : (s.setDout v).mem = s.mem := rfl
@[simp] theorem State.setDout_written {w : Nat} (v : BitVec w) : (s.setDout v).written = { s.written with dout := true } := rfl
@[simp] theorem State.setDout_modelFault {w : Nat} (v : BitVec w) : (s.setDout v).modelFault = s.modelFault := rfl
@[simp] theorem State.setDout_config {w : Nat} (v : BitVec w) : (s.setDout v).config = s.config := rfl
@[simp] theorem State.setDout_turns {w : Nat} (v : BitVec w) : (s.setDout v).turns = s.turns := rfl
@[simp] theorem State.setDout_response {w : Nat} (v : BitVec w) : (s.setDout v).response = s.response := rfl
@[simp] theorem State.setDout_draws {w : Nat} (v : BitVec w) : (s.setDout v).draws = s.draws := rfl

@[simp] theorem State.setSubkeys_phase (k : Subkey × Subkey) : (s.setSubkeys k).phase = s.phase := rfl
@[simp] theorem State.setSubkeys_latched (k : Subkey × Subkey) : (s.setSubkeys k).latched = s.latched := rfl
@[simp] theorem State.setSubkeys_status (k : Subkey × Subkey) : (s.setSubkeys k).status = s.status := rfl
@[simp] theorem State.setSubkeys_din (k : Subkey × Subkey) : (s.setSubkeys k).din = s.din := rfl
@[simp] theorem State.setSubkeys_din2 (k : Subkey × Subkey) : (s.setSubkeys k).din2 = s.din2 := rfl
@[simp] theorem State.setSubkeys_dout (k : Subkey × Subkey) : (s.setSubkeys k).dout = s.dout := rfl
@[simp] theorem State.setSubkeys_keyToy (k : Subkey × Subkey) : (s.setSubkeys k).keyToy = s.keyToy := rfl
@[simp] theorem State.setSubkeys_ivToy (k : Subkey × Subkey) : (s.setSubkeys k).ivToy = s.ivToy := rfl
@[simp] theorem State.setSubkeys_subkeys (k : Subkey × Subkey) : (s.setSubkeys k).subkeys = 1#1 ++ k.1 ++ k.2 := rfl
@[simp] theorem State.setSubkeys_lenIn (k : Subkey × Subkey) : (s.setSubkeys k).lenIn = s.lenIn := rfl
@[simp] theorem State.setSubkeys_lenOut (k : Subkey × Subkey) : (s.setSubkeys k).lenOut = s.lenOut := rfl
@[simp] theorem State.setSubkeys_keyExt (k : Subkey × Subkey) : (s.setSubkeys k).keyExt = s.keyExt := rfl
@[simp] theorem State.setSubkeys_ivExt (k : Subkey × Subkey) : (s.setSubkeys k).ivExt = s.ivExt := rfl
@[simp] theorem State.setSubkeys_mem (k : Subkey × Subkey) : (s.setSubkeys k).mem = s.mem := rfl
@[simp] theorem State.setSubkeys_written (k : Subkey × Subkey) : (s.setSubkeys k).written = s.written := rfl
@[simp] theorem State.setSubkeys_modelFault (k : Subkey × Subkey) : (s.setSubkeys k).modelFault = s.modelFault := rfl
@[simp] theorem State.setSubkeys_config (k : Subkey × Subkey) : (s.setSubkeys k).config = s.config := rfl
@[simp] theorem State.setSubkeys_turns (k : Subkey × Subkey) : (s.setSubkeys k).turns = s.turns := rfl
@[simp] theorem State.setSubkeys_response (k : Subkey × Subkey) : (s.setSubkeys k).response = s.response := rfl
@[simp] theorem State.setSubkeys_draws (k : Subkey × Subkey) : (s.setSubkeys k).draws = s.draws := rfl

@[simp] theorem State.emit_phase (out : List Byte) : (s.emit out).phase = s.phase := rfl
@[simp] theorem State.emit_latched (out : List Byte) : (s.emit out).latched = s.latched := rfl
@[simp] theorem State.emit_status (out : List Byte) : (s.emit out).status = s.status := rfl
@[simp] theorem State.emit_din (out : List Byte) : (s.emit out).din = s.din := rfl
@[simp] theorem State.emit_din2 (out : List Byte) : (s.emit out).din2 = s.din2 := rfl
@[simp] theorem State.emit_dout (out : List Byte) : (s.emit out).dout = s.dout := rfl
@[simp] theorem State.emit_keyToy (out : List Byte) : (s.emit out).keyToy = s.keyToy := rfl
@[simp] theorem State.emit_ivToy (out : List Byte) : (s.emit out).ivToy = s.ivToy := rfl
@[simp] theorem State.emit_subkeys (out : List Byte) : (s.emit out).subkeys = s.subkeys := rfl
@[simp] theorem State.emit_lenIn (out : List Byte) : (s.emit out).lenIn = s.lenIn := rfl
@[simp] theorem State.emit_lenOut (out : List Byte) : (s.emit out).lenOut = BitVec.ofNat 13 out.length := rfl
@[simp] theorem State.emit_keyExt (out : List Byte) : (s.emit out).keyExt = s.keyExt := rfl
@[simp] theorem State.emit_ivExt (out : List Byte) : (s.emit out).ivExt = s.ivExt := rfl
@[simp] theorem State.emit_mem (out : List Byte) : (s.emit out).mem = s.mem.writeBytes outBase out := rfl
@[simp] theorem State.emit_written (out : List Byte) : (s.emit out).written = s.written := rfl
@[simp] theorem State.emit_modelFault (out : List Byte) : (s.emit out).modelFault = s.modelFault := rfl
@[simp] theorem State.emit_config (out : List Byte) : (s.emit out).config = s.config := rfl
@[simp] theorem State.emit_turns (out : List Byte) : (s.emit out).turns = s.turns := rfl
@[simp] theorem State.emit_response (out : List Byte) : (s.emit out).response = s.response := rfl
@[simp] theorem State.emit_draws (out : List Byte) : (s.emit out).draws = s.draws := rfl

@[simp] theorem State.load_phase (m : List Byte) (n : BitVec 13) : (s.load m n).phase = s.phase := rfl
@[simp] theorem State.load_latched (m : List Byte) (n : BitVec 13) : (s.load m n).latched = s.latched := rfl
@[simp] theorem State.load_status (m : List Byte) (n : BitVec 13) : (s.load m n).status = s.status := rfl
@[simp] theorem State.load_din (m : List Byte) (n : BitVec 13) : (s.load m n).din = s.din := rfl
@[simp] theorem State.load_din2 (m : List Byte) (n : BitVec 13) : (s.load m n).din2 = s.din2 := rfl
@[simp] theorem State.load_dout (m : List Byte) (n : BitVec 13) : (s.load m n).dout = s.dout := rfl
@[simp] theorem State.load_keyToy (m : List Byte) (n : BitVec 13) : (s.load m n).keyToy = s.keyToy := rfl
@[simp] theorem State.load_ivToy (m : List Byte) (n : BitVec 13) : (s.load m n).ivToy = s.ivToy := rfl
@[simp] theorem State.load_subkeys (m : List Byte) (n : BitVec 13) : (s.load m n).subkeys = s.subkeys := rfl
@[simp] theorem State.load_lenIn (m : List Byte) (n : BitVec 13) : (s.load m n).lenIn = n := rfl
@[simp] theorem State.load_lenOut (m : List Byte) (n : BitVec 13) : (s.load m n).lenOut = s.lenOut := rfl
@[simp] theorem State.load_keyExt (m : List Byte) (n : BitVec 13) : (s.load m n).keyExt = s.keyExt := rfl
@[simp] theorem State.load_ivExt (m : List Byte) (n : BitVec 13) : (s.load m n).ivExt = s.ivExt := rfl
@[simp] theorem State.load_mem (m : List Byte) (n : BitVec 13) : (s.load m n).mem = s.mem.writeBytes inBase m := rfl
@[simp] theorem State.load_written (m : List Byte) (n : BitVec 13) : (s.load m n).written = s.written := rfl
@[simp] theorem State.load_modelFault (m : List Byte) (n : BitVec 13) : (s.load m n).modelFault = s.modelFault := rfl
@[simp] theorem State.load_config (m : List Byte) (n : BitVec 13) : (s.load m n).config = s.config := rfl
@[simp] theorem State.load_turns (m : List Byte) (n : BitVec 13) : (s.load m n).turns = s.turns := rfl
@[simp] theorem State.load_response (m : List Byte) (n : BitVec 13) : (s.load m n).response = s.response := rfl
@[simp] theorem State.load_draws (m : List Byte) (n : BitVec 13) : (s.load m n).draws = s.draws := rfl

@[simp] theorem State.acceptCommand_phase (w : Word) : (s.acceptCommand w).phase = .busy := rfl
@[simp] theorem State.acceptCommand_latched (w : Word) : (s.acceptCommand w).latched = w := rfl
@[simp] theorem State.acceptCommand_status (w : Word) : (s.acceptCommand w).status = s.status.accepted := rfl
@[simp] theorem State.acceptCommand_din (w : Word) : (s.acceptCommand w).din = s.din := rfl
@[simp] theorem State.acceptCommand_din2 (w : Word) : (s.acceptCommand w).din2 = s.din2 := rfl
@[simp] theorem State.acceptCommand_dout (w : Word) : (s.acceptCommand w).dout = s.dout := rfl
@[simp] theorem State.acceptCommand_keyToy (w : Word) : (s.acceptCommand w).keyToy = s.keyToy := rfl
@[simp] theorem State.acceptCommand_ivToy (w : Word) : (s.acceptCommand w).ivToy = s.ivToy := rfl
@[simp] theorem State.acceptCommand_subkeys (w : Word) : (s.acceptCommand w).subkeys = s.subkeys := rfl
@[simp] theorem State.acceptCommand_lenIn (w : Word) : (s.acceptCommand w).lenIn = s.lenIn := rfl
@[simp] theorem State.acceptCommand_lenOut (w : Word) : (s.acceptCommand w).lenOut = s.lenOut := rfl
@[simp] theorem State.acceptCommand_keyExt (w : Word) : (s.acceptCommand w).keyExt = s.keyExt := rfl
@[simp] theorem State.acceptCommand_ivExt (w : Word) : (s.acceptCommand w).ivExt = s.ivExt := rfl
@[simp] theorem State.acceptCommand_mem (w : Word) : (s.acceptCommand w).mem = s.mem := rfl
@[simp] theorem State.acceptCommand_written (w : Word) : (s.acceptCommand w).written = s.written := rfl
@[simp] theorem State.acceptCommand_modelFault (w : Word) : (s.acceptCommand w).modelFault = s.modelFault := rfl
@[simp] theorem State.acceptCommand_config (w : Word) : (s.acceptCommand w).config = s.config := rfl
@[simp] theorem State.acceptCommand_turns (w : Word) : (s.acceptCommand w).turns = s.turns := rfl
@[simp] theorem State.acceptCommand_response (w : Word) : (s.acceptCommand w).response = s.response := rfl
@[simp] theorem State.acceptCommand_draws (w : Word) : (s.acceptCommand w).draws = s.draws := rfl

@[simp] theorem State.noteRead_phase (x : Datum) : (s.noteRead x).phase = s.phase := by
  unfold State.noteRead; split <;> rfl
@[simp] theorem State.noteRead_latched (x : Datum) : (s.noteRead x).latched = s.latched := by
  unfold State.noteRead; split <;> rfl
@[simp] theorem State.noteRead_status (x : Datum) : (s.noteRead x).status = s.status := by
  unfold State.noteRead; split <;> rfl
@[simp] theorem State.noteRead_din (x : Datum) : (s.noteRead x).din = s.din := by
  unfold State.noteRead; split <;> rfl
@[simp] theorem State.noteRead_din2 (x : Datum) : (s.noteRead x).din2 = s.din2 := by
  unfold State.noteRead; split <;> rfl
@[simp] theorem State.noteRead_dout (x : Datum) : (s.noteRead x).dout = s.dout := by
  unfold State.noteRead; split <;> rfl
@[simp] theorem State.noteRead_keyToy (x : Datum) : (s.noteRead x).keyToy = s.keyToy := by
  unfold State.noteRead; split <;> rfl
@[simp] theorem State.noteRead_ivToy (x : Datum) : (s.noteRead x).ivToy = s.ivToy := by
  unfold State.noteRead; split <;> rfl
@[simp] theorem State.noteRead_subkeys (x : Datum) : (s.noteRead x).subkeys = s.subkeys := by
  unfold State.noteRead; split <;> rfl
@[simp] theorem State.noteRead_lenIn (x : Datum) : (s.noteRead x).lenIn = s.lenIn := by
  unfold State.noteRead; split <;> rfl
@[simp] theorem State.noteRead_lenOut (x : Datum) : (s.noteRead x).lenOut = s.lenOut := by
  unfold State.noteRead; split <;> rfl
@[simp] theorem State.noteRead_keyExt (x : Datum) : (s.noteRead x).keyExt = s.keyExt := by
  unfold State.noteRead; split <;> rfl
@[simp] theorem State.noteRead_ivExt (x : Datum) : (s.noteRead x).ivExt = s.ivExt := by
  unfold State.noteRead; split <;> rfl
@[simp] theorem State.noteRead_mem (x : Datum) : (s.noteRead x).mem = s.mem := by
  unfold State.noteRead; split <;> rfl
@[simp] theorem State.noteRead_written (x : Datum) : (s.noteRead x).written = s.written := by
  unfold State.noteRead; split <;> rfl
@[simp] theorem State.noteRead_config (x : Datum) : (s.noteRead x).config = s.config := by
  unfold State.noteRead; split <;> rfl
@[simp] theorem State.noteRead_turns (x : Datum) : (s.noteRead x).turns = s.turns := by
  unfold State.noteRead; split <;> rfl
@[simp] theorem State.noteRead_response (x : Datum) : (s.noteRead x).response = s.response := by
  unfold State.noteRead; split <;> rfl
@[simp] theorem State.noteRead_draws (x : Datum) : (s.noteRead x).draws = s.draws := by
  unfold State.noteRead; split <;> rfl

@[simp] theorem State.noteKeyExt_phase : (s.noteKeyExt).phase = s.phase := by
  simp [State.noteKeyExt]
@[simp] theorem State.noteKeyExt_latched : (s.noteKeyExt).latched = s.latched := by
  simp [State.noteKeyExt]
@[simp] theorem State.noteKeyExt_status : (s.noteKeyExt).status = s.status := by
  simp [State.noteKeyExt]
@[simp] theorem State.noteKeyExt_din : (s.noteKeyExt).din = s.din := by
  simp [State.noteKeyExt]
@[simp] theorem State.noteKeyExt_din2 : (s.noteKeyExt).din2 = s.din2 := by
  simp [State.noteKeyExt]
@[simp] theorem State.noteKeyExt_dout : (s.noteKeyExt).dout = s.dout := by
  simp [State.noteKeyExt]
@[simp] theorem State.noteKeyExt_keyToy : (s.noteKeyExt).keyToy = s.keyToy := by
  simp [State.noteKeyExt]
@[simp] theorem State.noteKeyExt_ivToy : (s.noteKeyExt).ivToy = s.ivToy := by
  simp [State.noteKeyExt]
@[simp] theorem State.noteKeyExt_subkeys : (s.noteKeyExt).subkeys = s.subkeys := by
  simp [State.noteKeyExt]
@[simp] theorem State.noteKeyExt_lenIn : (s.noteKeyExt).lenIn = s.lenIn := by
  simp [State.noteKeyExt]
@[simp] theorem State.noteKeyExt_lenOut : (s.noteKeyExt).lenOut = s.lenOut := by
  simp [State.noteKeyExt]
@[simp] theorem State.noteKeyExt_keyExt : (s.noteKeyExt).keyExt = s.keyExt := by
  simp [State.noteKeyExt]
@[simp] theorem State.noteKeyExt_ivExt : (s.noteKeyExt).ivExt = s.ivExt := by
  simp [State.noteKeyExt]
@[simp] theorem State.noteKeyExt_mem : (s.noteKeyExt).mem = s.mem := by
  simp [State.noteKeyExt]
@[simp] theorem State.noteKeyExt_written : (s.noteKeyExt).written = s.written := by
  simp [State.noteKeyExt]
@[simp] theorem State.noteKeyExt_config : (s.noteKeyExt).config = s.config := by
  simp [State.noteKeyExt]
@[simp] theorem State.noteKeyExt_turns : (s.noteKeyExt).turns = s.turns := by
  simp [State.noteKeyExt]
@[simp] theorem State.noteKeyExt_response : (s.noteKeyExt).response = s.response := by
  simp [State.noteKeyExt]
@[simp] theorem State.noteKeyExt_draws : (s.noteKeyExt).draws = s.draws := by
  simp [State.noteKeyExt]

@[simp] theorem State.noteIvExt_phase : (s.noteIvExt).phase = s.phase := by
  simp [State.noteIvExt]
@[simp] theorem State.noteIvExt_latched : (s.noteIvExt).latched = s.latched := by
  simp [State.noteIvExt]
@[simp] theorem State.noteIvExt_status : (s.noteIvExt).status = s.status := by
  simp [State.noteIvExt]
@[simp] theorem State.noteIvExt_din : (s.noteIvExt).din = s.din := by
  simp [State.noteIvExt]
@[simp] theorem State.noteIvExt_din2 : (s.noteIvExt).din2 = s.din2 := by
  simp [State.noteIvExt]
@[simp] theorem State.noteIvExt_dout : (s.noteIvExt).dout = s.dout := by
  simp [State.noteIvExt]
@[simp] theorem State.noteIvExt_keyToy : (s.noteIvExt).keyToy = s.keyToy := by
  simp [State.noteIvExt]
@[simp] theorem State.noteIvExt_ivToy : (s.noteIvExt).ivToy = s.ivToy := by
  simp [State.noteIvExt]
@[simp] theorem State.noteIvExt_subkeys : (s.noteIvExt).subkeys = s.subkeys := by
  simp [State.noteIvExt]
@[simp] theorem State.noteIvExt_lenIn : (s.noteIvExt).lenIn = s.lenIn := by
  simp [State.noteIvExt]
@[simp] theorem State.noteIvExt_lenOut : (s.noteIvExt).lenOut = s.lenOut := by
  simp [State.noteIvExt]
@[simp] theorem State.noteIvExt_keyExt : (s.noteIvExt).keyExt = s.keyExt := by
  simp [State.noteIvExt]
@[simp] theorem State.noteIvExt_ivExt : (s.noteIvExt).ivExt = s.ivExt := by
  simp [State.noteIvExt]
@[simp] theorem State.noteIvExt_mem : (s.noteIvExt).mem = s.mem := by
  simp [State.noteIvExt]
@[simp] theorem State.noteIvExt_written : (s.noteIvExt).written = s.written := by
  simp [State.noteIvExt]
@[simp] theorem State.noteIvExt_config : (s.noteIvExt).config = s.config := by
  simp [State.noteIvExt]
@[simp] theorem State.noteIvExt_turns : (s.noteIvExt).turns = s.turns := by
  simp [State.noteIvExt]
@[simp] theorem State.noteIvExt_response : (s.noteIvExt).response = s.response := by
  simp [State.noteIvExt]
@[simp] theorem State.noteIvExt_draws : (s.noteIvExt).draws = s.draws := by
  simp [State.noteIvExt]

@[simp] theorem State.noteKey_phase (p : Prim) : (s.noteKey p).phase = s.phase := by
  cases p <;> simp [State.noteKey]
@[simp] theorem State.noteKey_latched (p : Prim) : (s.noteKey p).latched = s.latched := by
  cases p <;> simp [State.noteKey]
@[simp] theorem State.noteKey_status (p : Prim) : (s.noteKey p).status = s.status := by
  cases p <;> simp [State.noteKey]
@[simp] theorem State.noteKey_din (p : Prim) : (s.noteKey p).din = s.din := by
  cases p <;> simp [State.noteKey]
@[simp] theorem State.noteKey_din2 (p : Prim) : (s.noteKey p).din2 = s.din2 := by
  cases p <;> simp [State.noteKey]
@[simp] theorem State.noteKey_dout (p : Prim) : (s.noteKey p).dout = s.dout := by
  cases p <;> simp [State.noteKey]
@[simp] theorem State.noteKey_keyToy (p : Prim) : (s.noteKey p).keyToy = s.keyToy := by
  cases p <;> simp [State.noteKey]
@[simp] theorem State.noteKey_ivToy (p : Prim) : (s.noteKey p).ivToy = s.ivToy := by
  cases p <;> simp [State.noteKey]
@[simp] theorem State.noteKey_subkeys (p : Prim) : (s.noteKey p).subkeys = s.subkeys := by
  cases p <;> simp [State.noteKey]
@[simp] theorem State.noteKey_lenIn (p : Prim) : (s.noteKey p).lenIn = s.lenIn := by
  cases p <;> simp [State.noteKey]
@[simp] theorem State.noteKey_lenOut (p : Prim) : (s.noteKey p).lenOut = s.lenOut := by
  cases p <;> simp [State.noteKey]
@[simp] theorem State.noteKey_keyExt (p : Prim) : (s.noteKey p).keyExt = s.keyExt := by
  cases p <;> simp [State.noteKey]
@[simp] theorem State.noteKey_ivExt (p : Prim) : (s.noteKey p).ivExt = s.ivExt := by
  cases p <;> simp [State.noteKey]
@[simp] theorem State.noteKey_mem (p : Prim) : (s.noteKey p).mem = s.mem := by
  cases p <;> simp [State.noteKey]
@[simp] theorem State.noteKey_written (p : Prim) : (s.noteKey p).written = s.written := by
  cases p <;> simp [State.noteKey]
@[simp] theorem State.noteKey_config (p : Prim) : (s.noteKey p).config = s.config := by
  cases p <;> simp [State.noteKey]
@[simp] theorem State.noteKey_turns (p : Prim) : (s.noteKey p).turns = s.turns := by
  cases p <;> simp [State.noteKey]
@[simp] theorem State.noteKey_response (p : Prim) : (s.noteKey p).response = s.response := by
  cases p <;> simp [State.noteKey]
@[simp] theorem State.noteKey_draws (p : Prim) : (s.noteKey p).draws = s.draws := by
  cases p <;> simp [State.noteKey]

@[simp] theorem State.noteIv_phase (p : Prim) : (s.noteIv p).phase = s.phase := by
  cases p <;> simp [State.noteIv]
@[simp] theorem State.noteIv_latched (p : Prim) : (s.noteIv p).latched = s.latched := by
  cases p <;> simp [State.noteIv]
@[simp] theorem State.noteIv_status (p : Prim) : (s.noteIv p).status = s.status := by
  cases p <;> simp [State.noteIv]
@[simp] theorem State.noteIv_din (p : Prim) : (s.noteIv p).din = s.din := by
  cases p <;> simp [State.noteIv]
@[simp] theorem State.noteIv_din2 (p : Prim) : (s.noteIv p).din2 = s.din2 := by
  cases p <;> simp [State.noteIv]
@[simp] theorem State.noteIv_dout (p : Prim) : (s.noteIv p).dout = s.dout := by
  cases p <;> simp [State.noteIv]
@[simp] theorem State.noteIv_keyToy (p : Prim) : (s.noteIv p).keyToy = s.keyToy := by
  cases p <;> simp [State.noteIv]
@[simp] theorem State.noteIv_ivToy (p : Prim) : (s.noteIv p).ivToy = s.ivToy := by
  cases p <;> simp [State.noteIv]
@[simp] theorem State.noteIv_subkeys (p : Prim) : (s.noteIv p).subkeys = s.subkeys := by
  cases p <;> simp [State.noteIv]
@[simp] theorem State.noteIv_lenIn (p : Prim) : (s.noteIv p).lenIn = s.lenIn := by
  cases p <;> simp [State.noteIv]
@[simp] theorem State.noteIv_lenOut (p : Prim) : (s.noteIv p).lenOut = s.lenOut := by
  cases p <;> simp [State.noteIv]
@[simp] theorem State.noteIv_keyExt (p : Prim) : (s.noteIv p).keyExt = s.keyExt := by
  cases p <;> simp [State.noteIv]
@[simp] theorem State.noteIv_ivExt (p : Prim) : (s.noteIv p).ivExt = s.ivExt := by
  cases p <;> simp [State.noteIv]
@[simp] theorem State.noteIv_mem (p : Prim) : (s.noteIv p).mem = s.mem := by
  cases p <;> simp [State.noteIv]
@[simp] theorem State.noteIv_written (p : Prim) : (s.noteIv p).written = s.written := by
  cases p <;> simp [State.noteIv]
@[simp] theorem State.noteIv_config (p : Prim) : (s.noteIv p).config = s.config := by
  cases p <;> simp [State.noteIv]
@[simp] theorem State.noteIv_turns (p : Prim) : (s.noteIv p).turns = s.turns := by
  cases p <;> simp [State.noteIv]
@[simp] theorem State.noteIv_response (p : Prim) : (s.noteIv p).response = s.response := by
  cases p <;> simp [State.noteIv]
@[simp] theorem State.noteIv_draws (p : Prim) : (s.noteIv p).draws = s.draws := by
  cases p <;> simp [State.noteIv]

/-- A noted read changes `modelFault` alone. -/
theorem State.noteRead_eq (x : Datum) : s.noteRead x = { s with modelFault := (s.noteRead x).modelFault } := by
  unfold State.noteRead; split <;> rfl

/-- A read of a written register records nothing. -/
theorem State.noteRead_of_written (x : Datum) (h : s.isWritten x = true) : s.noteRead x = s := by
  simp [State.noteRead, h]

/-- The first read of an unwritten register is recorded (R268). -/
theorem State.noteRead_of_unwritten (x : Datum) (h : s.isWritten x = false) (hf : s.modelFault = none) :
    (s.noteRead x).modelFault = some (.unwrittenRead x) := by
  simp [State.noteRead, h, hf]

/-- Nothing clears `modelFault` (R268). -/
theorem State.noteRead_keeps (x : Datum) (f : Fault) (h : s.modelFault = some f) : s.noteRead x = s := by
  simp [State.noteRead, h]

theorem State.noteKey_eq (p : Prim) : s.noteKey p = { s with modelFault := (s.noteKey p).modelFault } := by
  cases p with
  | toy => exact s.noteRead_eq _
  | ext =>
    simp only [State.noteKey, State.noteKeyExt]
    rw [State.noteRead_eq, State.noteRead_eq (State.noteRead _ _), State.noteRead_eq (State.noteRead _ _),
      s.noteRead_eq]

theorem State.noteIv_eq (p : Prim) : s.noteIv p = { s with modelFault := (s.noteIv p).modelFault } := by
  cases p with
  | toy => exact s.noteRead_eq _
  | ext =>
    simp only [State.noteIv, State.noteIvExt]
    rw [State.noteRead_eq, State.noteRead_eq (State.noteRead _ _), State.noteRead_eq (State.noteRead _ _),
      s.noteRead_eq]

theorem State.noteKey_keeps (p : Prim) (f : Fault) (h : s.modelFault = some f) : s.noteKey p = s := by
  cases p <;> simp [State.noteKey, State.noteKeyExt, State.noteRead_keeps _ _ f h]

theorem State.noteIv_keeps (p : Prim) (f : Fault) (h : s.modelFault = some f) : s.noteIv p = s := by
  cases p <;> simp [State.noteIv, State.noteIvExt, State.noteRead_keeps _ _ f h]

end Sys2Proof.Machine
end

