-- ==== Sys2Proof/Laws/Commands.lean ====
section
/-! SUPPORT. What each shared operation of a command can do, and `exec_next`: everything that a command which answers a next state can have done. -/

namespace Sys2Proof.Machine

/-! ## Operands -/

theorem shiftRight_eq_zero_iff (v : Word) (n : Nat) : v >>> n = 0 ↔ v.extractLsb' n (32 - n) = 0 := by
  constructor
  · intro h
    apply BitVec.eq_of_toNat_eq
    have := congrArg BitVec.toNat h
    simp at this
    simp [this]
  · intro h
    apply BitVec.eq_of_getLsbD_eq
    intro i hi
    have := congrArg (fun x => x.getLsbD i) h
    simp only [BitVec.getLsbD_extractLsb'] at this
    simp only [BitVec.getLsbD_ushiftRight]
    by_cases hn : i < 32 - n
    · simpa [hn] using this
    · rw [BitVec.getLsbD_of_ge _ _ (by omega)]; simp

/-- An operand fits exactly when the bits above its width are clear. -/
theorem narrow_eq_some_iff (n : Nat) (v : Word) (x : BitVec n) :
    narrow n v = some x ↔ v.extractLsb' n (32 - n) = 0 ∧ x = v.extractLsb' 0 n := by
  have hx : v.setWidth n = v.extractLsb' 0 n := by
    apply BitVec.eq_of_getLsbD_eq; intro i hi; simp
  unfold narrow
  simp only [shiftRight_eq_zero_iff, hx]
  split
  · rename_i h; simp [h, eq_comm]
  · rename_i h; exact ⟨nofun, fun h' => absurd h'.1 h⟩

theorem narrow_eq_none_iff (n : Nat) (v : Word) : narrow n v = none ↔ v.extractLsb' n (32 - n) ≠ 0 := by
  unfold narrow
  simp only [shiftRight_eq_zero_iff]
  split
  · rename_i h; exact ⟨nofun, fun h' => absurd h h'⟩
  · rename_i h; exact ⟨fun _ => h, fun _ => rfl⟩

/-- An operand that fits. -/
theorem narrow_of_clear {n : Nat} {v : Word} (h : v.extractLsb' n (32 - n) = 0) :
    narrow n v = some (v.extractLsb' 0 n) := (narrow_eq_some_iff n v _).2 ⟨h, rfl⟩

/-! ## The common checks -/

/-- The common checks pass and the body runs. -/
theorem command_of_ready {p : Prim} {s : State} (h : s.ready p) (body : State → Result) : command p s body = body s := by
  obtain ⟨hf, hp⟩ := h
  unfold command
  rw [if_neg (by simp [hf]), if_neg]
  rintro ⟨h1, h2⟩
  rw [hp h1] at h2; cases h2

/-- A command that does not take PRIM runs its body when FAULT is clear. -/
theorem command_toy {s : State} (h : s.status.fault = false) (body : State → Result) : command .toy s body = body s :=
  command_of_ready ⟨h, by simp⟩ body

/-- What a command can do before its body. -/
theorem command_cases (p : Prim) (s : State) (body : State → Result) :
    (s.status.fault = true ∧ command p s body = .next (s.raise .invalidTableConfiguration)) ∨
    (s.status.fault = false ∧ (p = .ext ∧ s.config.extPresent = false) ∧
      command p s body = .next (s.raise .primitiveAbsent)) ∨
    (s.ready p ∧ command p s body = body s) := by
  cases hf : s.status.fault
  · by_cases hp : p = .ext ∧ s.config.extPresent = false
    · exact .inr (.inl ⟨rfl, hp, by unfold command; rw [if_neg (by simp [hf]), if_pos hp]; rfl⟩)
    · refine .inr (.inr ?_)
      have hr : s.ready p := ⟨hf, fun h => by
        cases he : s.config.extPresent
        · exact absurd ⟨h, he⟩ hp
        · rfl⟩
      exact ⟨hr, command_of_ready hr body⟩
  · exact .inl ⟨rfl, by unfold command; rw [if_pos hf]; rfl⟩

/-- What `withDin` can do. -/
theorem withDin_cases (n : Nat) (s : State) (body : BitVec n → State → Result) :
    (s.din.extractLsb' n (32 - n) ≠ 0 ∧ withDin n s body = .next ((s.noteRead .din).raise .illegalOperand)) ∨
    (s.din.extractLsb' n (32 - n) = 0 ∧ withDin n s body = body (s.din.extractLsb' 0 n) (s.noteRead .din)) := by
  unfold withDin
  by_cases h : s.din.extractLsb' n (32 - n) = 0
  · right; refine ⟨h, ?_⟩; simp [narrow_of_clear h]
  · left; refine ⟨h, ?_⟩; simp [(narrow_eq_none_iff n s.din).2 h, State.fail]

/-- What `withDinDin2` can do. -/
theorem withDinDin2_cases (n m : Nat) (s : State) (body : BitVec n → BitVec m → State → Result) :
    ((s.din.extractLsb' n (32 - n) ≠ 0 ∨ s.din2.extractLsb' m (32 - m) ≠ 0) ∧
      withDinDin2 n m s body = .next (((s.noteRead .din).noteRead .din2).raise .illegalOperand)) ∨
    (s.din.extractLsb' n (32 - n) = 0 ∧ s.din2.extractLsb' m (32 - m) = 0 ∧
      withDinDin2 n m s body =
        body (s.din.extractLsb' 0 n) (s.din2.extractLsb' 0 m) ((s.noteRead .din).noteRead .din2)) := by
  unfold withDinDin2
  by_cases h : s.din.extractLsb' n (32 - n) = 0
  · by_cases h2 : s.din2.extractLsb' m (32 - m) = 0
    · right; refine ⟨h, h2, ?_⟩; simp [narrow_of_clear h, narrow_of_clear h2]
    · left; refine ⟨.inr h2, ?_⟩; simp [narrow_of_clear h, (narrow_eq_none_iff m s.din2).2 h2, State.fail]
  · left; refine ⟨.inl h, ?_⟩; simp [(narrow_eq_none_iff n s.din).2 h, State.fail]

/-- What `withLength` can do. -/
theorem withLength_cases (s : State) (body : Nat → State → Result) :
    (s.lenIn.toNat > s.config.msgCap ∧ withLength s body = .next (s.raise .capacityExceeded)) ∨
    (s.lenIn.toNat ≤ s.config.msgCap ∧ withLength s body = body s.lenIn.toNat s) := by
  unfold withLength
  split
  · rename_i h; exact .inl ⟨h, rfl⟩
  · rename_i h; exact .inr ⟨by omega, rfl⟩

/-- A length within the buffers. -/
theorem withLength_of_le {s : State} (h : s.lenIn.toNat ≤ s.config.msgCap) (body : Nat → State → Result) :
    withLength s body = body s.lenIn.toNat s := if_neg (Nat.not_lt.2 h)

/-- A length above the buffers. -/
theorem withLength_of_gt {s : State} (h : s.lenIn.toNat > s.config.msgCap) (body : Nat → State → Result) :
    withLength s body = .next (s.raise .capacityExceeded) := if_pos h

/-- An operand of DIN that fits. -/
theorem withDin_of_clear {n : Nat} {s : State} (h : s.din.extractLsb' n (32 - n) = 0)
    (body : BitVec n → State → Result) :
    withDin n s body = body (s.din.extractLsb' 0 n) (s.noteRead .din) :=
  (withDin_cases n s body).elim (fun h' => absurd h h'.1) (fun h' => h'.2)

/-- What `withBytes` can do. -/
theorem withBytes_cases (base n : Nat) (s : State) (body : List Byte → Result) :
    (∃ a, (base ≤ a ∧ a < base + n ∧ s.mem.read a = none) ∧
      withBytes base n s body = .fault (s.unwrittenByte a)) ∨
    (∃ m, m.length = n ∧ s.mem.holds base m ∧ withBytes base n s body = body m) := by
  unfold withBytes
  cases h : s.mem.readBytes base n with
  | error a => exact .inl ⟨a, s.mem.readBytes_error _ _ _ h, rfl⟩
  | ok m => exact .inr ⟨m, ((s.mem.readBytes_ok_iff _ _ _).1 h).1, ((s.mem.readBytes_ok_iff _ _ _).1 h).2, rfl⟩

/-- `withBytes` where the bytes stand. -/
theorem withBytes_of_holds {base n : Nat} {s : State} {m : List Byte} (hl : m.length = n) (h : s.mem.holds base m)
    (body : List Byte → Result) : withBytes base n s body = body m := by
  unfold withBytes
  rw [(s.mem.readBytes_ok_iff base n m).2 ⟨hl, h⟩]

/-! ## Padding -/

theorem mod_pad (b n : Nat) (hb : 0 < b) : padZeros b n + n % b + 1 = b := by
  have := Nat.mod_lt n hb
  unfold padZeros; omega

theorem pad_length (b : Nat) (m : List Byte) (hb : 0 < b) : (pad b m).length = m.length + (b - m.length % b) := by
  have := mod_pad b m.length hb
  have := Nat.mod_lt m.length hb
  simp [pad]; omega

theorem Prim.blockBytes_pos (p : Prim) : 0 < Prim.blockBytes p := by cases p <;> decide

/-! ## What a command that answers a next state has done -/

/-- The condition under which each error is raised, by the rule of the error (R261 to R267). -/
def raises (s : State) (i : Instr) : ErrorKind → Prop
  | .invalidInputLength => lengthInvalid s i
  | .invalidTableConfiguration => s.status.fault = true
  | .ambiguousPaddingRemoval => ∃ p, i = .unpadScan p
  | .illegalCommand => False
  | .primitiveAbsent => i.prim = .ext ∧ s.config.extPresent = false
  | .capacityExceeded =>
    i.writesOut ∧ (s.lenIn.toNat > s.config.msgCap ∨
      ∃ p, i = .pad p ∧
        s.lenIn.toNat + (Prim.blockBytes p - s.lenIn.toNat % Prim.blockBytes p) > s.config.msgCap)
  | .illegalOperand =>
    (i ∈ [.permIp, .permIpinv, .toyEnc, .toyDec] ∧ s.din.extractLsb' 8 24 ≠ 0) ∨
    (i ∈ [.permEp, .permP4, .sbox0, .sbox1, .roundF] ∧ s.din.extractLsb' 4 28 ≠ 0) ∨
    (i = .roundF ∧ s.din2.extractLsb' 8 24 ≠ 0)

/-- `t` is `s` after some registers have been read: `modelFault` may hold the first of them that is unwritten. -/
def State.noted (s t : State) : Prop :=
  t = { s with modelFault := t.modelFault } ∧ (s.modelFault ≠ none → t.modelFault = s.modelFault) ∧
  (s.modelFault = none → ∀ f, t.modelFault = some f →
    ∃ x, s.isWritten x = false ∧ (∀ b, x ≠ .byte b) ∧ f = .unwrittenRead x)

theorem State.noted_refl (s : State) : s.noted s := ⟨rfl, fun _ => rfl, fun h _ hf => by rw [h] at hf; cases hf⟩

/-- Whether a datum is written does not depend on the model fault. -/
theorem State.isWritten_of_noted {s t : State} (h : s.noted t) (x : Datum) : t.isWritten x = s.isWritten x := by
  rw [h.1]; cases x <;> rfl

theorem State.noted_noteRead (s : State) (x : Datum) (hx : ∀ b, x ≠ .byte b := by nofun) : s.noted (s.noteRead x) := by
  refine ⟨s.noteRead_eq x, fun h => ?_, fun h f hf => ?_⟩
  · obtain ⟨f, hf⟩ := Option.ne_none_iff_exists'.1 h
    rw [s.noteRead_keeps x f hf]
  · unfold State.noteRead at hf
    cases hw : s.isWritten x
    · rw [if_neg (by simp [hw, h])] at hf
      exact ⟨x, hw, hx, (Option.some.inj hf).symm⟩
    · rw [if_pos (by simp [hw]), h] at hf; cases hf

theorem State.noted_trans {s t u : State} (h1 : s.noted t) (h2 : t.noted u) : s.noted u := by
  refine ⟨?_, fun h => ?_, fun h f hf => ?_⟩
  · rw [h2.1, h1.1]
  · have := h1.2.1 h
    rw [h2.2.1 (by rw [this]; exact h), this]
  · cases ht : t.modelFault with
    | none =>
      obtain ⟨x, hx, hb, he⟩ := h2.2.2 ht f hf
      exact ⟨x, State.isWritten_of_noted h1 x ▸ hx, hb, he⟩
    | some g =>
      rw [h2.2.1 (by simp [ht]), ht] at hf; cases hf
      exact h1.2.2 h _ ht

/-- The fault of an unwritten byte names the fault already recorded; else a register read before it and unwritten, or
the byte. -/
theorem State.unwrittenByte_of_noted {s u : State} (h : s.noted u) (a : Nat) :
    s.modelFault = some (u.unwrittenByte a) ∨
    (s.modelFault = none ∧ (u.unwrittenByte a = .unwrittenRead (.byte a) ∨
      ∃ x, s.isWritten x = false ∧ (∀ b, x ≠ .byte b) ∧ u.unwrittenByte a = .unwrittenRead x)) := by
  unfold State.unwrittenByte
  cases hs : s.modelFault with
  | some f => exact .inl (by rw [h.2.1 (by simp [hs]), hs]; rfl)
  | none =>
    refine .inr ⟨rfl, ?_⟩
    cases hu : u.modelFault with
    | none => exact .inl rfl
    | some f => exact .inr (h.2.2 hs f hu)

theorem State.noted_noteKey (s : State) (p : Prim) : s.noted (s.noteKey p) := by
  cases p
  · exact s.noted_noteRead _
  · exact State.noted_trans (State.noted_trans (State.noted_trans (s.noted_noteRead _) (State.noted_noteRead _ _))
      (State.noted_noteRead _ _)) (State.noted_noteRead _ _)

theorem State.noted_noteIv (s : State) (p : Prim) : s.noted (s.noteIv p) := by
  cases p
  · exact s.noted_noteRead _
  · exact State.noted_trans (State.noted_trans (State.noted_trans (s.noted_noteRead _) (State.noted_noteRead _ _))
      (State.noted_noteRead _ _)) (State.noted_noteRead _ _)

/-- What a command can have done: failed, answered in DOUT, emitted to OUT_BUF, or moved OUT_BUF to IN_BUF; each on
the state with its reads noted. -/
inductive Done (s : State) (i : Instr) : State → Prop where
  | failed (u : State) (e : ErrorKind) (hu : s.noted u) (he : raises s i e) : Done s i (u.raise e)
  | answered (u : State) (v : Word) (hu : s.noted u) (hw : i.writesDout) (hk : i ≠ .keysched) :
      Done s i (u.answered v)
  | scheduled (u : State) (hu : s.noted u) (hi : i = .keysched) :
      Done s i ((u.setSubkeys (ks s.config.ks s.keyToy)).answered (((ks s.config.ks s.keyToy).1 ++ (ks s.config.ks s.keyToy).2).setWidth 32))
  | emitted (u : State) (out : List Byte) (hu : s.noted u) (hw : i.writesOut)
      (hl : out.length ≤ s.config.msgCap) (hm : i.isMode → out.length = s.lenIn.toNat) : Done s i (u.emit out).ok
  | loaded (m : List Byte) (hi : i = .xfer) (hl : m.length = s.lenOut.toNat) (hm : s.mem.holds outBase m) :
      Done s i (s.load m s.lenOut).ok

theorem State.setDout_ok_eq (s : State) {w : Nat} (v : BitVec w) : (s.setDout v).ok = s.answered (v.setWidth 32) := rfl

/-- A component command with one operand of DIN. -/
theorem done_withDin {i : Instr} {n : Nat} {s t : State} {body : BitVec n → State → Result}
    (hr : s.din.extractLsb' n (32 - n) ≠ 0 → raises s i .illegalOperand)
    (hb : ∀ x, body x (s.noteRead .din) = .next t → Done s i t) (h : command .toy s (fun s => withDin n s body) = .next t) :
    Done s i t := by
  rcases command_cases .toy s (fun s => withDin n s body) with ⟨hf, hc⟩ | ⟨_, ⟨hp, _⟩, _⟩ | ⟨_, hc⟩
  · rw [hc] at h; cases h; exact .failed s _ s.noted_refl hf
  · cases hp
  · rw [hc] at h
    rcases withDin_cases n s body with ⟨hw, hd⟩ | ⟨_, hd⟩
    · rw [hd] at h; cases h; exact .failed _ _ (s.noted_noteRead _) (hr hw)
    · rw [hd] at h; exact hb _ h

/-- A buffer command up to its length check. -/
theorem done_withLength {i : Instr} {p : Prim} {s t : State} {body : Nat → State → Result} (hp : i.prim = p)
    (hw : i.writesOut) (hb : s.lenIn.toNat ≤ s.config.msgCap → body s.lenIn.toNat s = .next t → Done s i t)
    (h : command p s (fun s => withLength s body) = .next t) : Done s i t := by
  rcases command_cases p s (fun s => withLength s body) with ⟨hf, hc⟩ | ⟨_, hq, hc⟩ | ⟨_, hc⟩
  · rw [hc] at h; cases h; exact .failed s _ s.noted_refl hf
  · rw [hc] at h; cases h; exact .failed s _ s.noted_refl ⟨hp.trans hq.1, hq.2⟩
  · rw [hc] at h
    rcases withLength_cases s body with ⟨hl, hd⟩ | ⟨hl, hd⟩
    · rw [hd] at h; cases h; exact .failed s _ s.noted_refl ⟨hw, .inl hl⟩
    · rw [hd] at h; exact hb hl h

/-- A command that reads bytes and answers a next state has read them all. -/
theorem next_of_withBytes {base n : Nat} {s t : State} {body : List Byte → Result}
    (h : withBytes base n s body = .next t) :
    ∃ m, m.length = n ∧ s.mem.holds base m ∧ body m = .next t := by
  rcases withBytes_cases base n s body with ⟨a, _, hd⟩ | ⟨m, hl, hm, hd⟩
  · rw [hd] at h; cases h
  · exact ⟨m, hl, hm, hd ▸ h⟩

end Sys2Proof.Machine
end

