-- ==== Sys2Proof/Laws/Exec.lean ====
section
/-! SUPPORT. Each command as the common checks around its body, one equation per command, so that no proof unfolds `exec`. -/

namespace Sys2Proof.Machine

variable (s : State)

theorem exec_permIp : exec .permIp s =
    command .toy s (fun s => withDin 8 s fun x s => (s.setDout (permute 8 x s.config.tbl.ip)).succeed) := rfl

theorem exec_permIpinv : exec .permIpinv s =
    command .toy s (fun s => withDin 8 s fun x s => (s.setDout (permute 8 x s.config.tbl.ipinv)).succeed) := rfl

theorem exec_permEp : exec .permEp s =
    command .toy s (fun s => withDin 4 s fun x s => (s.setDout (permute 8 x s.config.tbl.ep)).succeed) := rfl

theorem exec_permP4 : exec .permP4 s =
    command .toy s (fun s => withDin 4 s fun x s => (s.setDout (permute 4 x s.config.tbl.p4)).succeed) := rfl

theorem exec_sbox0 : exec .sbox0 s =
    command .toy s (fun s => withDin 4 s fun x s => (s.setDout (substitute x s.config.tbl.s0)).succeed) := rfl

theorem exec_sbox1 : exec .sbox1 s =
    command .toy s (fun s => withDin 4 s fun x s => (s.setDout (substitute x s.config.tbl.s1)).succeed) := rfl

theorem exec_roundF : exec .roundF s =
    command .toy s (fun s => withDinDin2 4 8 s fun h k s => (s.setDout (roundF s.config.tbl h k)).succeed) := rfl

theorem exec_keysched : exec .keysched s =
    command .toy s (fun s => (((s.noteRead .keyToy).setSubkeys (ks (s.noteRead .keyToy).config.ks (s.noteRead .keyToy).keyToy)).setDout
      ((ks (s.noteRead .keyToy).config.ks (s.noteRead .keyToy).keyToy).1 ++ (ks (s.noteRead .keyToy).config.ks (s.noteRead .keyToy).keyToy).2)).succeed) := rfl

theorem exec_toyEnc : exec .toyEnc s =
    command .toy s (fun s => withDin 8 s fun x s =>
      ((s.noteRead .keyToy).setDout
        (toyEncrypt (s.noteRead .keyToy).config (s.noteRead .keyToy).keyToy x)).succeed) := rfl

theorem exec_toyDec : exec .toyDec s =
    command .toy s (fun s => withDin 8 s fun x s =>
      ((s.noteRead .keyToy).setDout
        (toyDecrypt (s.noteRead .keyToy).config (s.noteRead .keyToy).keyToy x)).succeed) := rfl

theorem exec_pad (p : Prim) : exec (.pad p) s =
    command p s (fun s => withLength s fun n s =>
      if n + (Prim.blockBytes p - n % Prim.blockBytes p) > s.config.msgCap then s.fail .capacityExceeded
      else withBytes inBase n s fun m => (s.emit (pad (Prim.blockBytes p) m)).succeed) := rfl

theorem exec_unpadLen : exec .unpadLen s =
    command .toy s (fun s => withLength s fun n s =>
      if (s.noteRead .din).din.toNat > n then (s.noteRead .din).fail .invalidInputLength
      else withBytes inBase (s.noteRead .din).din.toNat (s.noteRead .din) fun m =>
        ((s.noteRead .din).emit m).succeed) := rfl

theorem exec_unpadScan (p : Prim) : exec (.unpadScan p) s =
    command p s (fun s => withLength s fun n s =>
      if n = 0 ∨ n % Prim.blockBytes p ≠ 0 then s.fail .invalidInputLength
      else
        match scanMarker s.mem (inBase + (n - Prim.blockBytes p)) (Prim.blockBytes p) with
        | .error a => .fault (s.unwrittenByte a)
        | .ok none => s.fail .ambiguousPaddingRemoval
        | .ok (some k) => withBytes inBase (n - Prim.blockBytes p + k) s fun m => (s.emit m).succeed) := rfl

theorem exec_xfer : exec .xfer s =
    command .toy s (fun s => withBytes outBase s.lenOut.toNat s fun m => (s.load m s.lenOut).succeed) := rfl

theorem exec_ecbEnc (p : Prim) : exec (.ecbEnc p) s =
    blockMode p false (fun _ e xs => ecb e.enc xs) s := rfl

theorem exec_ecbDec (p : Prim) : exec (.ecbDec p) s =
    blockMode p false (fun _ e xs => ecb e.dec xs) s := rfl

theorem exec_cbcEnc (p : Prim) : exec (.cbcEnc p) s =
    blockMode p true (fun _ e xs => cbcEncrypt e.enc e.iv xs) s := rfl

theorem exec_cbcDec (p : Prim) : exec (.cbcDec p) s =
    blockMode p true (fun _ e xs => cbcDecrypt e.dec e.iv xs) s := rfl

theorem exec_cfbEnc (p : Prim) : exec (.cfbEnc p) s =
    segmentMode p (fun _ _ e xs => cfbEncrypt e.enc e.iv xs) s := rfl

theorem exec_cfbDec (p : Prim) : exec (.cfbDec p) s =
    segmentMode p (fun _ _ e xs => cfbDecrypt e.enc e.iv xs) s := rfl

theorem exec_ctrEnc (p : Prim) : exec (.ctrEnc p) s =
    blockMode p true (fun _ e xs => ctr e.enc e.iv xs) s := rfl

theorem exec_ctrDec (p : Prim) : exec (.ctrDec p) s =
    blockMode p true (fun _ e xs => ctr e.enc e.iv xs) s := rfl

end Sys2Proof.Machine
end

