-- ==== Sys2Proof/Laws/Modes.lean ====
section
/-! SUPPORT. The modes keep the length of their input, and what a mode command can do. -/

namespace Sys2Proof.Machine

@[simp] theorem ecb_length {w : Nat} (f : BitVec w → BitVec w) (xs : List (BitVec w)) :
    (ecb f xs).length = xs.length := by simp [ecb]

@[simp] theorem cbcEncrypt_length {w : Nat} (f : BitVec w → BitVec w) (iv : BitVec w) (xs : List (BitVec w)) :
    (cbcEncrypt f iv xs).length = xs.length := by
  induction xs generalizing iv with
  | nil => rfl
  | cons x xs ih => simp [cbcEncrypt, ih]

@[simp] theorem cbcDecrypt_length {w : Nat} (f : BitVec w → BitVec w) (iv : BitVec w) (xs : List (BitVec w)) :
    (cbcDecrypt f iv xs).length = xs.length := by
  induction xs generalizing iv with
  | nil => rfl
  | cons x xs ih => simp [cbcDecrypt, ih]

@[simp] theorem cfbEncrypt_length {w k : Nat} (f : BitVec w → BitVec w) (iv : BitVec w) (xs : List (BitVec k)) :
    (cfbEncrypt f iv xs).length = xs.length := by
  induction xs generalizing iv with
  | nil => rfl
  | cons x xs ih => simp [cfbEncrypt, ih]

@[simp] theorem cfbDecrypt_length {w k : Nat} (f : BitVec w → BitVec w) (iv : BitVec w) (xs : List (BitVec k)) :
    (cfbDecrypt f iv xs).length = xs.length := by
  induction xs generalizing iv with
  | nil => rfl
  | cons x xs ih => simp [cfbDecrypt, ih]

@[simp] theorem ctr_length {w : Nat} (f : BitVec w → BitVec w) (iv : BitVec w) (xs : List (BitVec w)) :
    (ctr f iv xs).length = xs.length := by
  induction xs generalizing iv with
  | nil => rfl
  | cons x xs ih => simp [ctr, ih]

/-- The state with the key and, where the mode uses it, the IV noted as read. -/
def State.noteInputs (p : Prim) (usesIv : Bool) (s : State) : State :=
  if usesIv then (s.noteKey p).noteIv p else s.noteKey p

theorem State.noted_noteInputs (s : State) (p : Prim) (usesIv : Bool) : s.noted (s.noteInputs p usesIv) := by
  unfold State.noteInputs
  split
  · exact State.noted_trans (s.noted_noteKey p) (State.noted_noteIv _ p)
  · exact s.noted_noteKey p

/-- The output of a mode command: the transform of its PRIM. -/
def modeOut (p : Prim) (toy : Engine 8 → List Byte → List Byte) (ext : Engine 128 → List Byte → List Byte)
    (s : State) (m : List Byte) : List Byte :=
  match p with
  | .toy => toy s.toyEngine m
  | .ext => ext s.extEngine m

theorem State.toyEngine_of_noted {s u : State} (h : s.noted u) : u.toyEngine = s.toyEngine := by rw [h.1]; rfl

theorem State.extEngine_of_noted {s u : State} (h : s.noted u) : u.extEngine = s.extEngine := by rw [h.1]; rfl

/-- A mode command that passes its checks, on a message that stands in IN_BUF. -/
theorem modeCommand_of_message {p : Prim} {n : Nat} {usesIv : Bool} {toy : Engine 8 → List Byte → List Byte}
    {ext : Engine 128 → List Byte → List Byte} {s : State} {m : List Byte} (hr : s.ready p)
    (hc : s.lenIn.toNat ≤ s.config.msgCap) (hn : m.length % n = 0) (hm : s.hasMessage m) :
    modeCommand p n usesIv toy ext s = ((s.noteInputs p usesIv).emit (modeOut p toy ext s m)).succeed := by
  have hu := s.noted_noteInputs p usesIv
  have hmem : (s.noteInputs p usesIv).mem = s.mem := by rw [hu.1]
  unfold modeCommand
  rw [command_of_ready hr]
  rcases withLength_cases s _ with ⟨h, _⟩ | ⟨_, h⟩
  · omega
  · rw [h, if_neg (by rw [← hm.1]; omega), ← State.noteInputs,
      withBytes_of_holds hm.1 (by rw [hmem]; exact hm.2)]
    cases p <;> simp [modeOut, State.toyEngine_of_noted hu, State.extEngine_of_noted hu]

/-- A block mode of the toy primitive on a message. -/
theorem blockMode_toy {usesIv : Bool} {f : (w : Nat) → Engine w → List (BitVec w) → List (BitVec w)} {s : State}
    {m : List Byte} (hr : s.ready .toy) (hc : s.lenIn.toNat ≤ s.config.msgCap) (hm : s.hasMessage m) :
    blockMode .toy usesIv f s = ((s.noteInputs .toy usesIv).emit (f 8 s.toyEngine m)).succeed := by
  unfold blockMode
  rw [modeCommand_of_message (n := Prim.blockBytes .toy) hr hc (Nat.mod_one _) hm]
  simp only [modeOut, bytesOf_byte, blocksOf_byte]

/-- A block mode of the external primitive on a message of whole blocks. -/
theorem blockMode_ext {usesIv : Bool} {f : (w : Nat) → Engine w → List (BitVec w) → List (BitVec w)} {s : State}
    {m : List Byte} (hr : s.ready .ext) (hc : s.lenIn.toNat ≤ s.config.msgCap) (hm : s.hasMessage m)
    (hn : m.length % 16 = 0) :
    blockMode .ext usesIv f s =
      ((s.noteInputs .ext usesIv).emit (bytesOf (f 128 s.extEngine (blocksOf 128 m)))).succeed := by
  unfold blockMode
  rw [modeCommand_of_message (n := Prim.blockBytes .ext) hr hc hn hm]; rfl

/-- CFB of the toy primitive on a message. -/
theorem segmentMode_toy {f : (w k : Nat) → Engine w → List (BitVec k) → List (BitVec k)} {s : State}
    {m : List Byte} (hr : s.ready .toy) (hc : s.lenIn.toNat ≤ s.config.msgCap) (hm : s.hasMessage m) :
    segmentMode .toy f s =
      ((s.noteInputs .toy true).emit (bytesOfNibbles (f 8 4 s.toyEngine (nibblesOf m)))).succeed := by
  unfold segmentMode
  rw [modeCommand_of_message (n := Prim.segmentUnit .toy) hr hc (Nat.mod_one _) hm]; rfl

/-- CFB of the external primitive on a message of whole segments. -/
theorem segmentMode_ext {f : (w k : Nat) → Engine w → List (BitVec k) → List (BitVec k)} {s : State}
    {m : List Byte} (hr : s.ready .ext) (hc : s.lenIn.toNat ≤ s.config.msgCap) (hm : s.hasMessage m)
    (hn : m.length % 8 = 0) :
    segmentMode .ext f s =
      ((s.noteInputs .ext true).emit (bytesOf (f 128 64 s.extEngine (blocksOf 64 m)))).succeed := by
  unfold segmentMode
  rw [modeCommand_of_message (n := Prim.segmentUnit .ext) hr hc hn hm]; rfl

/-- What a mode command that answers a next state has done. -/
theorem done_modeCommand {i : Instr} {p : Prim} {n : Nat} {usesIv : Bool} {toy : Engine 8 → List Byte → List Byte}
    {ext : Engine 128 → List Byte → List Byte} {s t : State} (hp : i.prim = p) (hw : i.writesOut)
    (hi : s.lenIn.toNat % n ≠ 0 → lengthInvalid s i)
    (hl : ∀ m : List Byte, m.length % n = 0 → (modeOut p toy ext s m).length = m.length)
    (h : modeCommand p n usesIv toy ext s = .next t) : Done s i t := by
  refine done_withLength hp hw (fun hc h => ?_) h
  split at h
  · rename_i hn; cases h; exact .failed s _ s.noted_refl (hi hn)
  · rename_i hn
    have hn : s.lenIn.toNat % n = 0 := by simpa using hn
    have hu := s.noted_noteInputs p usesIv
    rw [← State.noteInputs] at h
    obtain ⟨m, hm, _, h⟩ := next_of_withBytes h
    have hlen := hl m (by rw [hm]; exact hn)
    have ht : ((s.noteInputs p usesIv).emit (modeOut p toy ext s m)).ok = t := by
      cases p <;> simp only [State.toyEngine_of_noted hu, State.extEngine_of_noted hu, State.succeed] at h <;>
        cases h <;> rfl
    rw [← ht]
    exact .emitted _ _ hu hw (by omega) (fun _ => by omega)

theorem blockMode_out_length {p : Prim} (f : (w : Nat) → Engine w → List (BitVec w) → List (BitVec w))
    (hf : ∀ w e xs, (f w e xs).length = xs.length) (s : State) (m : List Byte)
    (hm : m.length % Prim.blockBytes p = 0) :
    (modeOut p (fun e m => bytesOf (f 8 e (blocksOf 8 m))) (fun e m => bytesOf (f 128 e (blocksOf 128 m))) s m).length
      = m.length := by
  cases p
  · simp [modeOut, bytesOf_length, hf]
  · simp only [Prim.blockBytes] at hm
    simp [modeOut, bytesOf_length, hf]; omega

theorem segmentMode_out_length {p : Prim} (f : (w k : Nat) → Engine w → List (BitVec k) → List (BitVec k))
    (hf : ∀ w k e xs, (f w k e xs).length = xs.length) (s : State) (m : List Byte)
    (hm : m.length % Prim.segmentUnit p = 0) :
    (modeOut p (fun e m => bytesOfNibbles (f 8 4 e (nibblesOf m))) (fun e m => bytesOf (f 128 64 e (blocksOf 64 m)))
      s m).length = m.length := by
  cases p
  · simp [modeOut, bytesOfNibbles_length, hf]
  · simp only [Prim.segmentUnit] at hm
    simp [modeOut, bytesOf_length, hf]; omega

/-- A one-operand component command's answer. -/
theorem answered_din {i : Instr} {s t : State} {w : Nat} {v : BitVec w} (hw : i.writesDout) (hk : i ≠ .keysched)
    (h : ((s.noteRead .din).setDout v).succeed = .next t) : Done s i t := by
  cases h
  exact .answered (s.noteRead .din) (v.setWidth 32) (s.noted_noteRead _) hw hk

/-- The answer of TOY_ENC or TOY_DEC. -/
theorem answered_din_key {i : Instr} {s t : State} {w : Nat} {v : BitVec w} (hw : i.writesDout) (hk : i ≠ .keysched)
    (h : (((s.noteRead .din).noteRead .keyToy).setDout v).succeed = .next t) : Done s i t := by
  cases h
  exact .answered ((s.noteRead .din).noteRead .keyToy) (v.setWidth 32)
    (State.noted_trans (s.noted_noteRead _) (State.noted_noteRead _ _)) hw hk

theorem done_roundF {s t : State} (h : execRoundF s = .next t) : Done s .roundF t := by
  have hu := State.noted_trans (s.noted_noteRead .din) (State.noted_noteRead _ .din2)
  unfold execRoundF at h
  rcases command_cases .toy s fun s => withDinDin2 4 8 s fun h k s => (s.setDout (roundF s.config.tbl h k)).succeed
    with ⟨hf, hc⟩ | ⟨_, ⟨hp, _⟩, _⟩ | ⟨_, hc⟩
  · rw [hc] at h; cases h; exact .failed s _ s.noted_refl hf
  · cases hp
  · rw [hc] at h
    rcases withDinDin2_cases 4 8 s fun h k s => (s.setDout (roundF s.config.tbl h k)).succeed
      with ⟨hw, hd⟩ | ⟨_, _, hd⟩
    · rw [hd] at h; cases h
      exact .failed _ _ hu (hw.elim (fun h => .inr (.inl ⟨by simp, h⟩)) (fun h => .inr (.inr ⟨rfl, h⟩)))
    · rw [hd] at h; cases h
      exact .answered ((s.noteRead .din).noteRead .din2) _ hu (by simp [Instr.writesDout]) (by simp)

theorem done_keysched {s t : State} (h : execKeysched s = .next t) : Done s .keysched t := by
  unfold execKeysched at h
  rcases command_cases .toy s fun s =>
      let s := s.noteRead .keyToy
      let k := ks s.config.ks s.keyToy
      ((s.setSubkeys k).setDout (k.1 ++ k.2)).succeed
    with ⟨hf, hc⟩ | ⟨_, ⟨hp, _⟩, _⟩ | ⟨_, hc⟩
  · rw [hc] at h; cases h; exact .failed s _ s.noted_refl hf
  · cases hp
  · rw [hc] at h; cases h
    rw [State.noteRead_keyToy, State.noteRead_config]
    exact .scheduled (s.noteRead .keyToy) (s.noted_noteRead _) rfl

theorem not_isMode {i : Instr} (h : ∀ p, i ∉ [.ecbEnc p, .ecbDec p, .cbcEnc p, .cbcDec p, .cfbEnc p, .cfbDec p,
    .ctrEnc p, .ctrDec p]) : ¬i.isMode := fun ⟨p, hp⟩ => h p hp

theorem done_pad {p : Prim} {s t : State} (h : execPad p s = .next t) : Done s (.pad p) t := by
  refine done_withLength rfl (.inl ⟨p, by simp⟩) (fun hc h => ?_) h
  split at h
  · rename_i hn; cases h; exact .failed s _ s.noted_refl ⟨.inl ⟨p, by simp⟩, .inr ⟨p, rfl, hn⟩⟩
  · rename_i hn
    obtain ⟨m, hm, _, h⟩ := next_of_withBytes h
    cases h
    refine .emitted _ _ s.noted_refl (.inl ⟨p, by simp⟩) ?_ fun hi => absurd hi (not_isMode (by simp))
    rw [pad_length _ _ (Prim.blockBytes_pos p), hm]; omega

theorem done_unpadLen {s t : State} (h : execUnpadLen s = .next t) : Done s .unpadLen t := by
  refine done_withLength rfl (.inl ⟨.toy, by simp⟩) (fun hc h => ?_) h
  dsimp only at h
  split at h
  · rename_i hn; cases h
    exact .failed _ _ (s.noted_noteRead _) (by simpa [raises, lengthInvalid] using hn)
  · rename_i hn
    obtain ⟨m, hm, _, h⟩ := next_of_withBytes h
    cases h
    simp only [State.noteRead_din] at hn hm
    exact .emitted _ _ (s.noted_noteRead _) (.inl ⟨.toy, by simp⟩) (by omega)
      fun hi => absurd hi (not_isMode (by simp))

/-- The marker the scan answers lies among the bytes it looked at. -/
theorem scanMarker_lt {m : Memory} {lo n k : Nat} (h : scanMarker m lo n = .ok (some k)) : k < n := by
  induction n with
  | zero => simp [scanMarker] at h
  | succ n ih =>
    unfold scanMarker at h
    split at h
    · cases h
    · split at h
      · have := ih h; omega
      · split at h
        · simp only [Except.ok.injEq, Option.some.injEq] at h; omega
        · simp at h

theorem done_unpadScan {p : Prim} {s t : State} (h : execUnpadScan p s = .next t) : Done s (.unpadScan p) t := by
  refine done_withLength rfl (.inl ⟨p, by simp⟩) (fun hc h => ?_) h
  split at h
  · rename_i hn; cases h; exact .failed s _ s.noted_refl hn
  · rename_i hn
    split at h
    · cases h
    · cases h; exact .failed s _ s.noted_refl ⟨p, rfl⟩
    · rename_i k hk
      obtain ⟨m, hm, _, h⟩ := next_of_withBytes h
      cases h
      have := scanMarker_lt hk
      have hB : Prim.blockBytes p ≤ s.lenIn.toNat := by
        by_contra hlt
        exact hn (.inr (by rw [Nat.mod_eq_of_lt (by omega)]; omega))
      exact .emitted _ _ s.noted_refl (.inl ⟨p, by simp⟩) (by omega) fun hi => absurd hi (not_isMode (by simp))

theorem done_xfer {s t : State} (h : execXfer s = .next t) : Done s .xfer t := by
  unfold execXfer at h
  rcases command_cases .toy s fun s =>
      withBytes outBase s.lenOut.toNat s fun m => (s.load m s.lenOut).succeed
    with ⟨hf, hc⟩ | ⟨_, ⟨hp, _⟩, _⟩ | ⟨_, hc⟩
  · rw [hc] at h; cases h; exact .failed s _ s.noted_refl hf
  · cases hp
  · rw [hc] at h
    obtain ⟨m, hm, hh, h⟩ := next_of_withBytes h
    cases h; exact .loaded m rfl hm hh

theorem done_blockMode {i : Instr} {p : Prim} {usesIv : Bool}
    {f : (w : Nat) → Engine w → List (BitVec w) → List (BitVec w)} {s t : State} (hp : i.prim = p) (hw : i.isMode)
    (hi : s.lenIn.toNat % Prim.blockBytes p ≠ 0 → lengthInvalid s i) (hf : ∀ w e xs, (f w e xs).length = xs.length)
    (h : blockMode p usesIv f s = .next t) : Done s i t :=
  done_modeCommand hp (.inr hw) hi (blockMode_out_length f hf s) h

theorem done_segmentMode {i : Instr} {p : Prim}
    {f : (w k : Nat) → Engine w → List (BitVec k) → List (BitVec k)} {s t : State} (hp : i.prim = p) (hw : i.isMode)
    (hi : p = .ext ∧ s.lenIn.toNat % 8 ≠ 0 → lengthInvalid s i) (hf : ∀ w k e xs, (f w k e xs).length = xs.length)
    (h : segmentMode p f s = .next t) : Done s i t := by
  refine done_modeCommand hp (.inr hw) (fun hn => hi ?_) (segmentMode_out_length f hf s) h
  cases p
  · exact absurd (Nat.mod_one _) hn
  · exact ⟨rfl, hn⟩

theorem done_ecbEnc {p : Prim} {s t : State} (h : execEcbEnc p s = .next t) : Done s (.ecbEnc p) t := by
  unfold execEcbEnc at h
  exact done_blockMode rfl ⟨p, by simp⟩ id (by simp) h

theorem done_ecbDec {p : Prim} {s t : State} (h : execEcbDec p s = .next t) : Done s (.ecbDec p) t := by
  unfold execEcbDec at h
  exact done_blockMode rfl ⟨p, by simp⟩ id (by simp) h

theorem done_cbcEnc {p : Prim} {s t : State} (h : execCbcEnc p s = .next t) : Done s (.cbcEnc p) t := by
  unfold execCbcEnc at h
  exact done_blockMode rfl ⟨p, by simp⟩ id (by simp) h

theorem done_cbcDec {p : Prim} {s t : State} (h : execCbcDec p s = .next t) : Done s (.cbcDec p) t := by
  unfold execCbcDec at h
  exact done_blockMode rfl ⟨p, by simp⟩ id (by simp) h

theorem done_cfbEnc {p : Prim} {s t : State} (h : execCfbEnc p s = .next t) : Done s (.cfbEnc p) t := by
  unfold execCfbEnc at h
  exact done_segmentMode rfl ⟨p, by simp⟩ id (by simp) h

theorem done_cfbDec {p : Prim} {s t : State} (h : execCfbDec p s = .next t) : Done s (.cfbDec p) t := by
  unfold execCfbDec at h
  exact done_segmentMode rfl ⟨p, by simp⟩ id (by simp) h

theorem done_ctrEnc {p : Prim} {s t : State} (h : execCtrEnc p s = .next t) : Done s (.ctrEnc p) t := by
  unfold execCtrEnc at h
  exact done_blockMode rfl ⟨p, by simp⟩ id (by simp) h

theorem done_ctrDec {p : Prim} {s t : State} (h : execCtrDec p s = .next t) : Done s (.ctrDec p) t := by
  unfold execCtrDec at h
  exact done_blockMode rfl ⟨p, by simp⟩ id (by simp) h

/-- Everything a command that answers a next state can have done. -/
theorem exec_next {i : Instr} {s t : State} (h : exec i s = .next t) : Done s i t := by
  cases i with
  | permIp =>
    exact done_withDin (fun hw => .inl ⟨by simp, hw⟩)
      (fun x hx => answered_din (by simp [Instr.writesDout]) (by simp) hx) h
  | permIpinv =>
    exact done_withDin (fun hw => .inl ⟨by simp, hw⟩)
      (fun x hx => answered_din (by simp [Instr.writesDout]) (by simp) hx) h
  | permEp =>
    exact done_withDin (fun hw => .inr (.inl ⟨by simp, hw⟩))
      (fun x hx => answered_din (by simp [Instr.writesDout]) (by simp) hx) h
  | permP4 =>
    exact done_withDin (fun hw => .inr (.inl ⟨by simp, hw⟩))
      (fun x hx => answered_din (by simp [Instr.writesDout]) (by simp) hx) h
  | sbox0 =>
    exact done_withDin (fun hw => .inr (.inl ⟨by simp, hw⟩))
      (fun x hx => answered_din (by simp [Instr.writesDout]) (by simp) hx) h
  | sbox1 =>
    exact done_withDin (fun hw => .inr (.inl ⟨by simp, hw⟩))
      (fun x hx => answered_din (by simp [Instr.writesDout]) (by simp) hx) h
  | roundF => exact done_roundF h
  | keysched => exact done_keysched h
  | toyEnc =>
    exact done_withDin (fun hw => .inl ⟨by simp, hw⟩)
      (fun x hx => answered_din_key (by simp [Instr.writesDout]) (by simp) hx) h
  | toyDec =>
    exact done_withDin (fun hw => .inl ⟨by simp, hw⟩)
      (fun x hx => answered_din_key (by simp [Instr.writesDout]) (by simp) hx) h
  | pad p => exact done_pad h
  | unpadLen => exact done_unpadLen h
  | unpadScan p => exact done_unpadScan h
  | xfer => exact done_xfer h
  | ecbEnc p => exact done_ecbEnc h
  | ecbDec p => exact done_ecbDec h
  | cbcEnc p => exact done_cbcEnc h
  | cbcDec p => exact done_cbcDec h
  | cfbEnc p => exact done_cfbEnc h
  | cfbDec p => exact done_cfbDec h
  | ctrEnc p => exact done_ctrEnc h
  | ctrDec p => exact done_ctrDec h

end Sys2Proof.Machine
end

