-- ==== Sys2Proof/Laws/PerInstr.lean ====
section
/-! SUPPORT. One family per instruction: the word of every command is none of the illegal words R105 lists. -/

namespace Sys2Proof.Laws.EncodeLegal

/-- R105: the word of the command passes every check on command words. -/
def Statement (i : Instr) : Prop := wordWellFormed (encode i) = true

theorem permIp : Statement .permIp := by unfold Statement; decide
theorem permIpinv : Statement .permIpinv := by unfold Statement; decide
theorem permEp : Statement .permEp := by unfold Statement; decide
theorem permP4 : Statement .permP4 := by unfold Statement; decide
theorem sbox0 : Statement .sbox0 := by unfold Statement; decide
theorem sbox1 : Statement .sbox1 := by unfold Statement; decide
theorem roundF : Statement .roundF := by unfold Statement; decide
theorem keysched : Statement .keysched := by unfold Statement; decide
theorem toyEnc : Statement .toyEnc := by unfold Statement; decide
theorem toyDec : Statement .toyDec := by unfold Statement; decide
theorem pad (p : Prim) : Statement (.pad p) := by cases p <;> (unfold Statement; decide)
theorem unpadLen : Statement .unpadLen := by unfold Statement; decide
theorem unpadScan (p : Prim) : Statement (.unpadScan p) := by cases p <;> (unfold Statement; decide)
theorem xfer : Statement .xfer := by unfold Statement; decide
theorem ecbEnc (p : Prim) : Statement (.ecbEnc p) := by cases p <;> (unfold Statement; decide)
theorem ecbDec (p : Prim) : Statement (.ecbDec p) := by cases p <;> (unfold Statement; decide)
theorem cbcEnc (p : Prim) : Statement (.cbcEnc p) := by cases p <;> (unfold Statement; decide)
theorem cbcDec (p : Prim) : Statement (.cbcDec p) := by cases p <;> (unfold Statement; decide)
theorem cfbEnc (p : Prim) : Statement (.cfbEnc p) := by cases p <;> (unfold Statement; decide)
theorem cfbDec (p : Prim) : Statement (.cfbDec p) := by cases p <;> (unfold Statement; decide)
theorem ctrEnc (p : Prim) : Statement (.ctrEnc p) := by cases p <;> (unfold Statement; decide)
theorem ctrDec (p : Prim) : Statement (.ctrDec p) := by cases p <;> (unfold Statement; decide)

end Sys2Proof.Laws.EncodeLegal
end

