-- ==== Sys2Proof/Laws/Reads.lean ====
section
/-! SUPPORT. What each shared operation reads: `ReadsExactly s l r` says that a result is that of reading the data `l`, in order, and the lemmas give it for every operation a command is built of. -/

namespace Sys2Proof.Machine

/-! ## Lists of data -/

theorem State.isWritten_byte (s : State) (a : Nat) : s.isWritten (.byte a) = (s.mem.read a).isSome := rfl

theorem mem_bytesFrom {x : Datum} : ∀ {a n : Nat}, x ∈ bytesFrom a n ↔ ∃ k, k < n ∧ x = .byte (a + k)
  | a, 0 => by simp [bytesFrom]
  | a, n + 1 => by
    rw [bytesFrom, List.mem_cons, mem_bytesFrom]
    constructor
    · rintro (rfl | ⟨k, hk, rfl⟩)
      · exact ⟨0, by omega, rfl⟩
      · exact ⟨k + 1, by omega, by rw [Nat.add_assoc, Nat.add_comm 1]⟩
    · rintro ⟨k, hk, rfl⟩
      cases k with
      | zero => exact .inl rfl
      | succ k => exact .inr ⟨k, by omega, by rw [Nat.add_assoc, Nat.add_comm 1]⟩

theorem State.firstUnwritten_append (s : State) (l r : List Datum) :
    s.firstUnwritten (l ++ r) = (s.firstUnwritten l).or (s.firstUnwritten r) := by
  simp [State.firstUnwritten, List.find?_append]

theorem State.firstUnwritten_eq_none {s : State} {l : List Datum} :
    s.firstUnwritten l = none ↔ ∀ x ∈ l, s.isWritten x = true := by
  simp [State.firstUnwritten, List.find?_eq_none]

/-- The first unwritten datum, by the list around it. -/
theorem State.firstUnwritten_of_split {s : State} {l r : List Datum} {x : Datum}
    (h : ∀ y ∈ l, s.isWritten y = true) (hx : s.isWritten x = false) : s.firstUnwritten (l ++ x :: r) = some x := by
  rw [s.firstUnwritten_append, State.firstUnwritten_eq_none.2 h]
  simp [State.firstUnwritten, hx]

theorem State.firstUnwritten_of_noted {s u : State} (h : s.noted u) (l : List Datum) :
    u.firstUnwritten l = s.firstUnwritten l := by
  unfold State.firstUnwritten; simp only [State.isWritten_of_noted h]

/-- A failed read of bytes names the first unwritten one. -/
theorem State.firstUnwritten_of_readBytes_error {s : State} : ∀ {n base a : Nat},
    s.mem.readBytes base n = .error a → s.firstUnwritten (bytesFrom base n) = some (.byte a)
  | 0, base, a, h => by simp [Memory.readBytes] at h
  | n + 1, base, a, h => by
    unfold Memory.readBytes at h
    rw [bytesFrom, State.firstUnwritten, List.find?_cons, State.isWritten_byte]
    split at h
    · rename_i hr; cases h; simp [hr]
    · rename_i b hr
      split at h
      · rename_i x hx; cases h
        have := State.firstUnwritten_of_readBytes_error (s := s) hx
        simp only [hr, Option.isSome_some, Bool.not_true]; exact this
      · cases h

/-- Bytes that stand are written. -/
theorem State.firstUnwritten_of_holds {s : State} {base : Nat} {m : List Byte} (h : s.mem.holds base m) :
    s.firstUnwritten (bytesFrom base m.length) = none := by
  refine State.firstUnwritten_eq_none.2 fun x hx => ?_
  obtain ⟨k, hk, rfl⟩ := mem_bytesFrom.1 hx
  rw [State.isWritten_byte, h k hk]; rfl

/-! ## Registers noted -/

theorem State.noteRead_modelFault (s : State) (x : Datum) :
    (s.noteRead x).modelFault = s.modelFault.or ((s.firstUnwritten [x]).map .unwrittenRead) := by
  unfold State.noteRead State.firstUnwritten
  cases h : s.isWritten x <;> cases hm : s.modelFault <;> simp [h, hm]

/-- `u` is `s` after the registers `l` have been read, in order. -/
def State.afterReads (s : State) (l : List Datum) (u : State) : Prop :=
  s.noted u ∧ u.modelFault = s.modelFault.or ((s.firstUnwritten l).map .unwrittenRead) ∧ ∀ a, .byte a ∉ l

theorem State.afterReads_nil (s : State) : s.afterReads [] s :=
  ⟨s.noted_refl, by simp [State.firstUnwritten], by simp⟩

theorem State.afterReads_noteRead {s u : State} {l : List Datum} (h : s.afterReads l u) (x : Datum)
    (hx : ∀ b, x ≠ .byte b := by nofun) : s.afterReads (l ++ [x]) (u.noteRead x) := by
  refine ⟨State.noted_trans h.1 (u.noted_noteRead x hx), ?_, fun a ha => ?_⟩
  · rw [State.noteRead_modelFault, State.firstUnwritten_of_noted h.1, h.2.1, s.firstUnwritten_append]
    cases s.modelFault <;> cases s.firstUnwritten l <;> simp
  · rcases List.mem_append.1 ha with h' | h'
    · exact h.2.2 a h'
    · simp only [List.mem_singleton] at h'; exact hx _ h'.symm

theorem State.afterReads_noteKey {s u : State} {l : List Datum} (h : s.afterReads l u) (p : Prim) :
    s.afterReads (l ++ keyData p) (u.noteKey p) := by
  cases p
  · exact State.afterReads_noteRead h _
  · have := State.afterReads_noteRead (State.afterReads_noteRead (State.afterReads_noteRead
      (State.afterReads_noteRead h (.keyExt 0)) (.keyExt 1)) (.keyExt 2)) (.keyExt 3)
    simpa [keyData, State.noteKey, State.noteKeyExt] using this

theorem State.afterReads_noteIv {s u : State} {l : List Datum} (h : s.afterReads l u) (p : Prim) :
    s.afterReads (l ++ ivData p) (u.noteIv p) := by
  cases p
  · exact State.afterReads_noteRead h _
  · have := State.afterReads_noteRead (State.afterReads_noteRead (State.afterReads_noteRead
      (State.afterReads_noteRead h (.ivExt 0)) (.ivExt 1)) (.ivExt 2)) (.ivExt 3)
    simpa [ivData, State.noteIv, State.noteIvExt] using this

/-! ## What an operation reads -/

/-- `r` is the result of a step from `s` that reads the data `l`, in order: a fault exactly where one of them is an
unwritten byte, of the first unwritten one; else a next state that records the first unwritten one. A fault already
recorded comes first. -/
def ReadsExactly (s : State) (l : List Datum) : Result → Prop
  | .next t => (∀ a, .byte a ∈ l → s.mem.read a ≠ none) ∧
      t.modelFault = s.modelFault.or ((s.firstUnwritten l).map .unwrittenRead)
  | .fault e => ∃ a x, .byte a ∈ l ∧ s.mem.read a = none ∧ s.firstUnwritten l = some x ∧
      e = s.modelFault.getD (.unwrittenRead x)
  | .refused _ => False

theorem ReadsExactly.of_after {s u t : State} {l : List Datum} (h : s.afterReads l u)
    (ht : t.modelFault = u.modelFault) : ReadsExactly s l (.next t) :=
  ⟨fun a ha => absurd ha (h.2.2 a), ht.trans h.2.1⟩

theorem ReadsExactly.of_none {s t : State} (ht : t.modelFault = s.modelFault) : ReadsExactly s [] (.next t) :=
  .of_after s.afterReads_nil ht

/-- The common checks read nothing. -/
theorem checkedReads_of_ready {p : Prim} {s : State} (h : s.ready p) (l : List Datum) : checkedReads p s l = l := by
  unfold checkedReads
  rw [if_neg]
  rintro (h' | ⟨h1, h2⟩)
  · rw [h.1] at h'; cases h'
  · rw [h.2 h1] at h2; cases h2

theorem ReadsExactly.command {p : Prim} {s : State} {l : List Datum} {body : State → Result}
    (h : s.ready p → ReadsExactly s l (body s)) : ReadsExactly s (checkedReads p s l) (command p s body) := by
  rcases command_cases p s body with ⟨hf, h'⟩ | ⟨_, hp, h'⟩ | ⟨hr, h'⟩
  · rw [h', checkedReads, if_pos (.inl hf)]; exact .of_none rfl
  · rw [h', checkedReads, if_pos (.inr hp)]; exact .of_none rfl
  · rw [h', checkedReads_of_ready hr]; exact h hr

theorem ReadsExactly.withLength {p : Prim} {s : State} {l : List Datum} {body : Nat → State → Result}
    (h : s.lenIn.toNat ≤ s.config.msgCap → ReadsExactly s l (body s.lenIn.toNat s)) :
    ReadsExactly s (bufferReads p s l) (Machine.command p s fun s => Machine.withLength s body) := by
  refine .command fun _ => ?_
  rcases withLength_cases s body with ⟨hl, h'⟩ | ⟨hl, h'⟩
  · rw [h', if_pos hl]; exact .of_none rfl
  · rw [h', if_neg (by omega)]; exact h hl

theorem ReadsExactly.withDin {n : Nat} {s : State} {l : List Datum} {body : BitVec n → State → Result}
    (hl : s.din.extractLsb' n (32 - n) ≠ 0 → l = [.din])
    (h : s.din.extractLsb' n (32 - n) = 0 → ReadsExactly s l (body (s.din.extractLsb' 0 n) (s.noteRead .din))) :
    ReadsExactly s l (Machine.withDin n s body) := by
  rcases withDin_cases n s body with ⟨hn, h'⟩ | ⟨hn, h'⟩ <;> rw [h']
  · rw [hl hn]; exact .of_after (State.afterReads_noteRead s.afterReads_nil .din) rfl
  · exact h hn

/-- Registers, and then bytes. -/
theorem ReadsExactly.withBytes {s u : State} {l : List Datum} {base n : Nat} {body : List Byte → Result}
    (h : s.afterReads l u) (hb : ∀ m, ∃ t, body m = .next t ∧ t.modelFault = u.modelFault) :
    ReadsExactly s (l ++ bytesFrom base n) (Machine.withBytes base n u body) := by
  have hmem : u.mem = s.mem := by rw [h.1.1]
  unfold Machine.withBytes
  rw [hmem]
  cases hr : s.mem.readBytes base n with
  | error a =>
    obtain ⟨h1, h2, h3⟩ := s.mem.readBytes_error _ _ _ hr
    have hf := State.firstUnwritten_of_readBytes_error hr
    have hm : .byte a ∈ l ++ bytesFrom base n :=
      List.mem_append_right _ (mem_bytesFrom.2 ⟨a - base, by omega, by rw [Nat.add_sub_cancel' h1]⟩)
    cases hl : s.firstUnwritten l with
    | none =>
      refine ⟨a, .byte a, hm, h3, by rw [s.firstUnwritten_append, hf, hl]; rfl, ?_⟩
      unfold State.unwrittenByte
      rw [h.2.1, hl]; cases s.modelFault <;> rfl
    | some x =>
      refine ⟨a, x, hm, h3, by rw [s.firstUnwritten_append, hl]; rfl, ?_⟩
      unfold State.unwrittenByte
      rw [h.2.1, hl]; cases s.modelFault <;> rfl
  | ok m =>
    obtain ⟨hl, hh⟩ := (s.mem.readBytes_ok_iff _ _ _).1 hr
    obtain ⟨t, ht, hf⟩ := hb m
    have hw := State.firstUnwritten_of_holds hh
    rw [hl] at hw
    show ReadsExactly s _ (body m)
    rw [ht]
    refine ⟨fun a ha => ?_, by rw [hf, h.2.1, s.firstUnwritten_append, hw, Option.or_none]⟩
    rcases List.mem_append.1 ha with h' | h'
    · exact absurd h' (h.2.2 a)
    · have := State.firstUnwritten_eq_none.1 hw _ h'
      rw [State.isWritten_byte] at this
      exact Option.ne_none_iff_isSome.2 this

/-- Bytes alone. -/
theorem ReadsExactly.withBytes_only {s : State} {base n : Nat} {body : List Byte → Result}
    (hb : ∀ m, ∃ t, body m = .next t ∧ t.modelFault = s.modelFault) :
    ReadsExactly s (bytesFrom base n) (Machine.withBytes base n s body) := by
  have := ReadsExactly.withBytes (base := base) (n := n) s.afterReads_nil hb
  rwa [List.nil_append] at this

/-- A written byte read first changes nothing. -/
theorem ReadsExactly.cons_written {s : State} {a : Nat} {b : Byte} {l : List Datum} {r : Result}
    (hr : s.mem.read a = some b) (h : ReadsExactly s l r) : ReadsExactly s (.byte a :: l) r := by
  have hf : s.firstUnwritten (.byte a :: l) = s.firstUnwritten l := by
    simp [State.firstUnwritten, State.isWritten_byte, hr]
  cases r with
  | next t =>
    refine ⟨fun x hx => ?_, by rw [hf]; exact h.2⟩
    rcases List.mem_cons.1 hx with h' | h'
    · cases h'; rw [hr]; simp
    · exact h.1 x h'
  | fault e =>
    obtain ⟨x, y, h1, h2, h3, h4⟩ := h
    exact ⟨x, y, List.mem_cons_of_mem _ h1, h2, hf.trans h3, h4⟩
  | refused e => exact h

/-- A mode command. -/
theorem ReadsExactly.modeCommand {p : Prim} {n : Nat} {u : Bool} {toy : Engine 8 → List Byte → List Byte}
    {ext : Engine 128 → List Byte → List Byte} {s : State} :
    ReadsExactly s (modeReads p n (if u then ivData p else []) s) (Machine.modeCommand p n u toy ext s) := by
  unfold Machine.modeCommand modeReads
  refine .withLength fun _ => ?_
  split
  · exact .of_none rfl
  · have hk := State.afterReads_noteKey s.afterReads_nil p
    have ha : s.afterReads (keyData p ++ if u then ivData p else [])
        (if u then (s.noteKey p).noteIv p else s.noteKey p) := by
      cases u
      · simpa using hk
      · exact State.afterReads_noteIv hk p
    exact .withBytes ha fun m => by cases p <;> exact ⟨_, rfl, rfl⟩

end Sys2Proof.Machine
end

