-- ==== Sys2Proof/Laws/Step.lean ====
section
/-! SUPPORT. What a step, the core's turn and a host access can do: one case analysis each, cited in place of unfolding. -/

namespace Sys2Proof.Machine

/-- A core turn of a latched command is the core's step. -/
theorem step_of_coreTurn {s t : State} (h : s.coreTurn t) : step s = coreStep t := by
  obtain ⟨hb, ⟨ht, rfl⟩ | ⟨rest, ht, rfl⟩⟩ := h <;>
    simp [step, State.nextMove, ht, State.coreMove, hb]

/-- A host turn is the host's access. -/
theorem step_of_hostTurn {s t : State} {a : Access} (h : s.hostTurn a t) : step s = hostAccess a t := by
  obtain ⟨rest, ht, rfl⟩ := h
  simp [step, State.nextMove, ht]

/-- What a step can be: the core's, the host's, or a rest of an Idle block. -/
theorem step_cases (s : State) :
    (∃ t, s.coreTurn t ∧ step s = coreStep t) ∨ (∃ a t, s.hostTurn a t ∧ step s = hostAccess a t) ∨
    (s.phase = .idle ∧ ∃ rest, step s = .next { s with turns := rest }) := by
  match hs : s.turns, hp : s.phase with
  | [], .busy => exact .inl ⟨s, ⟨hp, .inl ⟨hs, rfl⟩⟩, by simp [step, State.nextMove, hs, State.coreMove, hp]⟩
  | [], .idle =>
    refine .inr (.inr ⟨rfl, [], ?_⟩)
    simp only [step, State.nextMove, hs, State.coreMove, hp]
    rw [← hs, ← hp]
  | .core :: rest, .busy =>
    exact .inl ⟨_, ⟨hp, .inr ⟨rest, hs, rfl⟩⟩, by simp [step, State.nextMove, hs, State.coreMove, hp]⟩
  | .core :: rest, .idle =>
    refine .inr (.inr ⟨rfl, rest, ?_⟩)
    simp only [step, State.nextMove, hs, State.coreMove, hp]
  | .host a :: rest, _ => exact .inr (.inl ⟨a, _, ⟨rest, hs, rfl⟩, by simp [step, State.nextMove, hs]⟩)

/-- One more step of a run. -/
theorem run_of_next {M : Host.Core} {s u : M.State} (n : Nat) (h : M.step s = .next u) :
    M.run (n + 1) s = M.run n u := by
  rw [Host.Core.run, h]

/-- A run stops at a fault or a refusal. -/
theorem run_of_fault {M : Host.Core} {s : M.State} {f : M.Fault} (n : Nat) (h : M.step s = .fault f) :
    M.run (n + 1) s = .fault f := by
  rw [Host.Core.run, h]

theorem run_of_refused {M : Host.Core} {s : M.State} {f : M.Refusal} (n : Nat) (h : M.step s = .refused f) :
    M.run (n + 1) s = .refused f := by
  rw [Host.Core.run, h]

/-- The core's step for a word that encodes no command. -/
theorem coreStep_of_illegal {s : State} {e : IllegalWord} (h : decode s.latched = .error e) :
    coreStep s = illegalCommand s := by
  simp [coreStep, State.fetch, h]

/-- The core's step for a word that encodes a command. -/
theorem coreStep_of_decode {s : State} {i : Instr} (h : decode s.latched = .ok i) : coreStep s = exec i s := by
  simp [coreStep, State.fetch, h]

/-- What an illegal word can do. -/
theorem illegalCommand_cases (s : State) :
    (s.status.fault = true ∧ illegalCommand s = .next (s.raise .invalidTableConfiguration)) ∨
    (s.status.fault = false ∧ illegalCommand s = .next (s.raise .illegalCommand)) := by
  unfold illegalCommand
  cases h : s.status.fault <;> simp [State.fail]

/-- An access the block serves. -/
theorem wellFormed_iff (a : Access) : a.wellFormed = true ↔ ¬(a.width ≠ 32 ∨ a.addr.extractLsb' 0 2 ≠ 0) := by
  have : a.addr.extractLsb' 0 2 = 0 ↔ a.addr.toNat % 4 = 0 := by
    rw [← BitVec.toNat_inj]; simp
  simp only [ne_eq, this]
  simp [Access.wellFormed]

/-- An access that is not 32 bits wide or not aligned. -/
theorem hostAccess_busError {a : Access} (s : State) (h : a.wellFormed = false) :
    hostAccess a s = .next { s with response := some .busError } := by
  have : a.width ≠ 32 ∨ a.addr.extractLsb' 0 2 ≠ 0 := by
    by_contra hn
    rw [(wellFormed_iff a).2 hn] at h; cases h
  unfold hostAccess
  rw [if_pos this]

/-- An aligned read. -/
theorem hostAccess_readAt {a : BitVec 14} (s : State) (h : a.toNat % 4 = 0) :
    hostAccess (readAt a) s =
      match hostRead (locate s.config.msgCap a.toNat) s with
      | .error f => .fault f
      | .ok (v, s') => .next { s' with response := some (.data v) } := by
  unfold hostAccess
  rw [if_neg ((wellFormed_iff _).1 (by simp [Access.wellFormed, readAt, h]))]
  rfl

/-- An aligned write. -/
theorem hostAccess_writeAt {a : BitVec 14} (v : Word) (s : State) (h : a.toNat % 4 = 0) :
    hostAccess (writeAt a v) s =
      .next { hostWrite (locate s.config.msgCap a.toNat) v s with response := some .written } := by
  unfold hostAccess
  rw [if_neg ((wellFormed_iff _).1 (by simp [Access.wellFormed, writeAt, h]))]
  rfl

/-- An aligned read of a location. -/
theorem hostAccess_read_of {a : BitVec 14} {s u : State} {l : Loc} {v : Word} (h : a.toNat % 4 = 0)
    (hl : locate s.config.msgCap a.toNat = l) (hr : hostRead l s = .ok (v, u)) :
    hostAccess (readAt a) s = .next { u with response := some (.data v) } := by
  rw [hostAccess_readAt s h, hl, hr]

/-- An aligned write of a location. -/
theorem hostAccess_write_of {a : BitVec 14} {s : State} {l : Loc} (v : Word) (h : a.toNat % 4 = 0)
    (hl : locate s.config.msgCap a.toNat = l) :
    hostAccess (writeAt a v) s = .next { hostWrite l v s with response := some .written } := by
  rw [hostAccess_writeAt v s h, hl]

/-- A write while Idle to a location other than CTRL and STATUS. -/
theorem hostWrite_idle {l : Loc} {s : State} (v : Word) (hp : s.phase = .idle) (h1 : l ≠ .ctrl) (h2 : l ≠ .status) :
    hostWrite l v s = writeIdle l v s := by
  simp [hostWrite, h1, h2, hp]

/-- A write while BUSY to a location other than CTRL and STATUS. -/
theorem hostWrite_busy {l : Loc} {s : State} (v : Word) (hp : s.phase = .busy) (h1 : l ≠ .ctrl) (h2 : l ≠ .status) :
    hostWrite l v s = { s with status := s.status.dropped } := by
  simp [hostWrite, h1, h2, hp]

/-- What a host access that answers a next state has done. -/
theorem hostAccess_next {a : Access} {s t : State} (h : hostAccess a s = .next t) :
    t = { s with response := some .busError } ∨
    (a.wellFormed = true ∧ a.kind = .read ∧ ∃ v u, hostRead (locate s.config.msgCap a.addr.toNat) s = .ok (v, u) ∧
      t = { u with response := some (.data v) }) ∨
    (a.wellFormed = true ∧ ∃ v, a.kind = .write v ∧
      t = { hostWrite (locate s.config.msgCap a.addr.toNat) v s with response := some .written }) := by
  unfold hostAccess at h
  split at h
  · cases h; exact .inl rfl
  · rename_i hw
    have hw := (wellFormed_iff a).2 hw
    split at h
    · rename_i hk
      split at h
      · cases h
      · rename_i v u hr; cases h; exact .inr (.inl ⟨hw, hk, v, u, hr, rfl⟩)
    · rename_i v hk; cases h; exact .inr (.inr ⟨hw, v, hk, rfl⟩)

/-- What a host read leaves: nothing but a noted read or a draw. -/
theorem hostRead_ok {l : Loc} {s u : State} {v : Word} (h : hostRead l s = .ok (v, u)) :
    s.noted u ∨ u = { s with draws := s.draws + 1 } := by
  have hw : ∀ (r : Except Fault Word), r.map (fun v => (v, s)) = .ok (v, u) → u = s := by
    intro r hr
    cases r with
    | error f => cases hr
    | ok x => cases hr; rfl
  cases l <;> simp only [hostRead] at h
  case din => cases h; exact .inl (s.noted_noteRead _)
  case din2 => cases h; exact .inl (s.noted_noteRead _)
  case keyToy => cases h; exact .inl (s.noted_noteRead _)
  case ivToy => cases h; exact .inl (s.noted_noteRead _)
  case keyExt j => cases h; exact .inl (s.noted_noteRead _)
  case ivExt j => cases h; exact .inl (s.noted_noteRead _)
  case dout => split at h <;> cases h <;> [exact .inr rfl; exact .inl (s.noted_noteRead _)]
  case subkeys => split at h <;> cases h <;> [exact .inr rfl; exact .inl s.noted_refl]
  case lenOut => split at h <;> cases h <;> [exact .inr rfl; exact .inl s.noted_refl]
  case inBuf i => rw [hw _ h]; exact .inl s.noted_refl
  case outBuf i =>
    split at h
    · cases h; exact .inr rfl
    · rw [hw _ h]; exact .inl s.noted_refl
  all_goals cases h; exact .inl s.noted_refl

/-! ## The address map -/

/-- The registers lie below 0x1000. -/
theorem registerMap_lookup_none {a : Nat} (h : 0x60 ≤ a) : registerMap.lookup a = none := by
  have : ∀ p ∈ registerMap, p.1 < 0x60 := by decide
  rw [List.lookup_eq_none_iff]
  intro p hp
  have := this p hp
  simp; omega

/-- The entries of a table by their second component. -/
theorem mem_of_lookup {a : Nat} {l : Loc} {m : List (Nat × Loc)} (h : m.lookup a = some l) : (a, l) ∈ m := by
  induction m with
  | nil => cases h
  | cons p m ih =>
    rw [List.lookup_cons] at h
    split at h
    · rename_i he
      have : a = p.1 := by simpa using he
      cases h; subst this; exact List.mem_cons_self
    · exact List.mem_cons_of_mem _ (ih h)

/-- An address that names a register is in the register map. -/
theorem locate_register {cap a : Nat} {l : Loc} (h : locate cap a = l) (h1 : ∀ i, l ≠ .inBuf i) (h2 : ∀ i, l ≠ .outBuf i)
    (h3 : l ≠ .reserved) : (a, l) ∈ registerMap := by
  unfold locate at h
  split at h
  · rename_i k hk; exact mem_of_lookup (h ▸ hk)
  · split at h
    · exact absurd h.symm (h1 _)
    · split at h
      · exact absurd h.symm (h2 _)
      · exact absurd h.symm h3

/-- CTRL is at 0x008 and STATUS at 0x00C only. -/
theorem locate_ctrl {cap : Nat} {a : BitVec 14} (h : locate cap a.toNat = .ctrl) : a = 0x008#14 := by
  have hm := locate_register h (by simp) (by simp) (by simp)
  have : ∀ p ∈ registerMap, p.2 = .ctrl → p.1 = 0x008 := by decide
  exact BitVec.eq_of_toNat_eq (this _ hm rfl)

theorem locate_status {cap : Nat} {a : BitVec 14} (h : locate cap a.toNat = .status) : a = 0x00C#14 := by
  have hm := locate_register h (by simp) (by simp) (by simp)
  have : ∀ p ∈ registerMap, p.2 = .status → p.1 = 0x00C := by decide
  exact BitVec.eq_of_toNat_eq (this _ hm rfl)

theorem locate_inBuf {cap a : Nat} (h1 : inBase ≤ a) (h2 : a < inBase + cap) : locate cap a = .inBuf (a - inBase) := by
  unfold locate
  rw [registerMap_lookup_none (by simp only [inBase] at h1; omega)]
  exact if_pos ⟨h1, h2⟩

theorem locate_outBuf {cap a : Nat} (hc : cap ≤ 4096) (h1 : outBase ≤ a) (h2 : a < outBase + cap) :
    locate cap a = .outBuf (a - outBase) := by
  unfold locate
  rw [registerMap_lookup_none (by simp only [outBase] at h1; omega)]
  have : ¬(inBase ≤ a ∧ a < inBase + cap) := by simp only [inBase, outBase] at *; omega
  exact (if_neg this).trans (if_pos ⟨h1, h2⟩)

/-- An address that names an IN_BUF word. -/
theorem locate_eq_inBuf {cap a i : Nat} (h : locate cap a = .inBuf i) :
    inBase ≤ a ∧ a < inBase + cap ∧ i = a - inBase := by
  unfold locate at h
  split at h
  · rename_i l hl
    have hall : registerMap.all (fun p => match p.2 with | .inBuf _ => false | _ => true) = true := rfl
    have := List.all_eq_true.1 hall _ (mem_of_lookup hl)
    subst h; cases this
  · split at h
    · rename_i hb; exact ⟨hb.1, hb.2, (Loc.inBuf.inj h).symm⟩
    · split at h <;> simp at h

/-- An address that names an OUT_BUF word. -/
theorem locate_eq_outBuf {cap a i : Nat} (h : locate cap a = .outBuf i) :
    outBase ≤ a ∧ a < outBase + cap ∧ i = a - outBase := by
  unfold locate at h
  split at h
  · rename_i l hl
    have hall : registerMap.all (fun p => match p.2 with | .outBuf _ => false | _ => true) = true := rfl
    have := List.all_eq_true.1 hall _ (mem_of_lookup hl)
    subst h; cases this
  · split at h
    · simp at h
    · split at h
      · rename_i hb; exact ⟨hb.1, hb.2, (Loc.outBuf.inj h).symm⟩
      · simp at h

/-- An address that is not a register's and not a buffer word's is reserved. -/
theorem locate_reserved {cap a : Nat} (h : registerMap.lookup a = none) (h1 : ¬(inBase ≤ a ∧ a < inBase + cap))
    (h2 : ¬(outBase ≤ a ∧ a < outBase + cap)) : locate cap a = .reserved := by
  unfold locate
  rw [h]
  exact (if_neg h1).trans (if_neg h2)

/-! ## What a turn keeps -/

/-- A word of which a byte is unwritten. -/
theorem readWord_error {s : State} {a : Nat} {f : Fault} (h : readWord s a = .error f) :
    ∃ k, k < 4 ∧ s.mem.read (a + k) = none ∧ f = s.unwrittenByte (a + k) := by
  unfold readWord at h
  split at h
  · rename_i x hx
    obtain ⟨h1, h2, h3⟩ := s.mem.readBytes_error _ _ _ hx
    cases h
    obtain ⟨k, rfl⟩ := Nat.exists_eq_add_of_le h1
    exact ⟨k, by omega, h3, rfl⟩
  · cases h

/-- From `s` to `t` a recorded model fault stays, and one newly recorded is of a datum unwritten in `s`. -/
def State.records (s t : State) : Prop :=
  (s.modelFault ≠ none → t.modelFault = s.modelFault) ∧
  (s.modelFault = none → ∀ f, t.modelFault = some f → ∃ x, s.isWritten x = false ∧ f = .unwrittenRead x)

theorem State.records_of_eq {s t : State} (h : t.modelFault = s.modelFault) : s.records t :=
  ⟨fun _ => h, fun hs f hf => by rw [h, hs] at hf; cases hf⟩

theorem State.records_of_noted {s t : State} (h : s.noted t) : s.records t :=
  ⟨h.2.1, fun hs f hf => (h.2.2 hs f hf).imp fun _ hx => ⟨hx.1, hx.2.2⟩⟩

/-- A command that answers a next state leaves the block Idle, and keeps the turns, the configuration and the draws. -/
theorem exec_keeps {i : Instr} {s t : State} (h : exec i s = .next t) :
    t.phase = .idle ∧ t.turns = s.turns ∧ t.config = s.config ∧ t.draws = s.draws ∧ s.records t := by
  have hr : ∀ {u}, s.noted u → s.records u := State.records_of_noted
  cases exec_next h with
  | failed u e hu he => rw [hu.1]; exact ⟨rfl, rfl, rfl, rfl, (hr hu).1, (hr hu).2⟩
  | answered u v hu hw hk => rw [hu.1]; exact ⟨rfl, rfl, rfl, rfl, (hr hu).1, (hr hu).2⟩
  | scheduled u hu hi => rw [hu.1]; exact ⟨rfl, rfl, rfl, rfl, (hr hu).1, (hr hu).2⟩
  | emitted u out hu hw hl hm => rw [hu.1]; exact ⟨rfl, rfl, rfl, rfl, (hr hu).1, (hr hu).2⟩
  | loaded m hi hl hm => exact ⟨rfl, rfl, rfl, rfl, State.records_of_eq rfl⟩

/-- The same of the core's step. -/
theorem coreStep_keeps {s t : State} (h : coreStep s = .next t) :
    t.phase = .idle ∧ t.turns = s.turns ∧ t.config = s.config ∧ t.draws = s.draws ∧ s.records t := by
  cases hd : decode s.latched with
  | error e =>
    rw [coreStep_of_illegal hd] at h
    rcases illegalCommand_cases s with ⟨_, h'⟩ | ⟨_, h'⟩ <;> rw [h'] at h <;> cases h <;>
      exact ⟨rfl, rfl, rfl, rfl, State.records_of_eq rfl⟩
  | ok i => rw [coreStep_of_decode hd] at h; exact exec_keeps h

/-- A host access keeps the turns and the configuration, and counts no draw down. -/
theorem hostAccess_keeps {a : Access} {s t : State} (h : hostAccess a s = .next t) :
    t.turns = s.turns ∧ t.config = s.config ∧ s.draws ≤ t.draws ∧ s.records t := by
  rcases hostAccess_next h with rfl | ⟨_, _, v, u, hr, rfl⟩ | ⟨_, v, _, rfl⟩
  · exact ⟨rfl, rfl, Nat.le_refl _, State.records_of_eq rfl⟩
  · rcases hostRead_ok hr with hu | rfl
    · rw [hu.1]; exact ⟨rfl, rfl, Nat.le_refl _, (State.records_of_noted hu).1, (State.records_of_noted hu).2⟩
    · exact ⟨rfl, rfl, Nat.le_succ _, State.records_of_eq rfl⟩
  · unfold hostWrite
    split
    · split <;> exact ⟨rfl, rfl, Nat.le_refl _, State.records_of_eq rfl⟩
    · split
      · exact ⟨rfl, rfl, Nat.le_refl _, State.records_of_eq rfl⟩
      · split
        · exact ⟨rfl, rfl, Nat.le_refl _, State.records_of_eq rfl⟩
        · unfold writeIdle; split <;> exact ⟨rfl, rfl, Nat.le_refl _, State.records_of_eq rfl⟩

/-- A host access of a BUSY block leaves it BUSY with the word it has latched, unless it is a soft reset. -/
theorem hostAccess_busy {a : Access} {s t : State} (hb : s.phase = .busy) (h : hostAccess a s = .next t) :
    (t.phase = .busy ∧ t.latched = s.latched) ∨ ∃ v : Word, v.getLsbD 0 = true ∧ a = writeAt 0x008 v := by
  rcases hostAccess_next h with rfl | ⟨_, _, v, u, hr, rfl⟩ | ⟨hw, v, hk, rfl⟩
  · exact .inl ⟨hb, rfl⟩
  · rcases hostRead_ok hr with hu | rfl
    · rw [hu.1]; exact .inl ⟨hb, rfl⟩
    · exact .inl ⟨hb, rfl⟩
  · unfold hostWrite
    split
    · rename_i hl
      split
      · rename_i hv
        have := locate_ctrl hl
        simp only [Access.wellFormed] at hw
        exact .inr ⟨v, hv, by cases a; simp_all [writeAt]⟩
      · exact .inl ⟨hb, rfl⟩
    · split <;> exact .inl ⟨hb, rfl⟩

/-! ## Runs and executions -/

/-- An event that happens next, ahead of any other turn. -/
theorem step_withTurn_host (s : State) (a : Access) : step (s.withTurn (.host a)) = hostAccess a s :=
  step_of_hostTurn ⟨s.turns, rfl, rfl⟩

theorem step_withTurn_core {s : State} (h : s.phase = .busy) : step (s.withTurn .core) = coreStep s :=
  step_of_coreTurn ⟨h, .inr ⟨s.turns, rfl, rfl⟩⟩

theorem step_withTurn_core_idle {s : State} (h : s.phase = .idle) : step (s.withTurn .core) = .next s := by
  have : (s.withTurn .core).coreMove = .rest := by
    unfold State.coreMove; rw [show (s.withTurn .core).phase = .idle from h]
  rw [step, State.nextMove]
  simp only [State.withTurn] at this ⊢
  rw [this]

/-- What a model's step (R268) can be. -/
theorem modelStep_of_faulted {s : State} (h : s.modelFault ≠ none) : modelStep s = s := by
  obtain ⟨f, hf⟩ := Option.ne_none_iff_exists'.1 h
  simp only [modelStep, hf]

theorem modelStep_of_next {s t : State} (hs : s.modelFault = none) (h : step s = .next t) (ht : t.modelFault = none) :
    modelStep s = t := by
  simp only [modelStep, hs, h, ht]

theorem modelStep_of_recorded {s t : State} {f : Fault} (hs : s.modelFault = none) (h : step s = .next t)
    (ht : t.modelFault = some f) : modelStep s = { s with modelFault := some f } := by
  simp only [modelStep, hs, h, ht]

theorem modelStep_of_fault {s : State} {f : Fault} (hs : s.modelFault = none) (h : step s = .fault f) :
    modelStep s = { s with modelFault := some f } := by
  simp only [modelStep, hs, h]

/-- A run that has ended rests. -/
theorem modelStep_of_ended {s : State} (h : s.ended) : modelStep s = s := by
  obtain ⟨ht, hp, hm⟩ := h
  exact modelStep_of_next hm (by simp only [step, State.nextMove, ht, State.coreMove, hp]) hm

theorem modelRun_of_fixed {s : State} (h : modelStep s = s) : ∀ n, modelRun n s = s
  | 0 => rfl
  | n + 1 => by rw [modelRun, h, modelRun_of_fixed h n]

theorem modelRun_add (m n : Nat) (s : State) : modelRun (m + n) s = modelRun n (modelRun m s) := by
  induction m generalizing s with
  | zero => rw [Nat.zero_add]; rfl
  | succ m ih => rw [Nat.succ_add, modelRun, modelRun, ih]

end Sys2Proof.Machine
end

