-- ==== Sys2Proof/Tests/Slice0.lean ====
section
/-! SUPPORT. The model's own tests: the checks of WellFormed, words decoded, one step of each command against 95_test_vectors.md, host accesses, and for each obligation a witness that its hypotheses can be met. -/

namespace Sys2Proof.Tests

open Sys2Proof Sys2Proof.Machine

/-! ## WellFormed: a term each check refuses -/

theorem wellFormed_refuses_reserved_bit : wordReservedClear 0x00000040#32 = false := by decide
theorem wellFormed_refuses_reserved_bit_31 : wordReservedClear 0x80000010#32 = false := by decide
theorem wellFormed_refuses_unassigned_op : wordOpAssigned 0x00000014#32 = false := by decide
theorem wellFormed_refuses_dir : wordDirAllowed 0x0000010A#32 = false := by decide
theorem wellFormed_refuses_prim : wordPrimAllowed 0x00000209#32 = false := by decide
theorem wellFormed_refuses_capacity :
    ({ defaultConfig with msgCap := 24 } : Config).capWellFormed = false ∧
    ({ defaultConfig with msgCap := 0 } : Config).capWellFormed = false ∧
    ({ defaultConfig with msgCap := 4112 } : Config).capWellFormed = false := by decide
theorem wellFormed_refuses_byte_access :
    ({ addr := 0x1000, width := 8, kind := .read } : Access).wellFormed = false := by decide
theorem wellFormed_refuses_misaligned_access : (readAt 0x0011).wellFormed = false := by decide

/-! ## Decode: words put together by hand from R100 and R103 (95_test_vectors.md section 2.8 among them)

The word is [31:10] = 0, PRIM [9], DIR [8], [7:6] = 0, OP [5:0]. -/

theorem decode_permutation :
    decode 0b00000000000000000000000000000001#32 = .ok .permIp ∧
    decode 0b00000000000000000000000000000010#32 = .ok .permIpinv ∧
    decode 0b00000000000000000000000000000011#32 = .ok .permEp ∧
    decode 0b00000000000000000000000000000100#32 = .ok .permP4 := by decide
theorem decode_substitution :
    decode 0b00000000000000000000000000000101#32 = .ok .sbox0 ∧
    decode 0b00000000000000000000000000000110#32 = .ok .sbox1 := by decide
theorem decode_round_and_schedule :
    decode 0b00000000000000000000000000000111#32 = .ok .roundF ∧
    decode 0b00000000000000000000000000001000#32 = .ok .keysched := by decide
theorem decode_toy :
    decode 0b00000000000000000000000000001001#32 = .ok .toyEnc ∧
    decode 0b00000000000000000000000100001001#32 = .ok .toyDec := by decide
theorem decode_padding :
    decode 0b00000000000000000000000000001010#32 = .ok (.pad .toy) ∧
    decode 0b00000000000000000000001000001010#32 = .ok (.pad .ext) ∧
    decode 0b00000000000000000000000000001011#32 = .ok .unpadLen ∧
    decode 0b00000000000000000000000000001100#32 = .ok (.unpadScan .toy) ∧
    decode 0b00000000000000000000001000001100#32 = .ok (.unpadScan .ext) ∧
    decode 0b00000000000000000000000000001101#32 = .ok .xfer := by decide
theorem decode_modes_toy :
    decode 0b00000000000000000000000000010000#32 = .ok (.ecbEnc .toy) ∧
    decode 0b00000000000000000000000100010000#32 = .ok (.ecbDec .toy) ∧
    decode 0b00000000000000000000000000010001#32 = .ok (.cbcEnc .toy) ∧
    decode 0b00000000000000000000000100010001#32 = .ok (.cbcDec .toy) ∧
    decode 0b00000000000000000000000000010010#32 = .ok (.cfbEnc .toy) ∧
    decode 0b00000000000000000000000100010010#32 = .ok (.cfbDec .toy) ∧
    decode 0b00000000000000000000000000010011#32 = .ok (.ctrEnc .toy) ∧
    decode 0b00000000000000000000000100010011#32 = .ok (.ctrDec .toy) := by decide
theorem decode_modes_ext :
    decode 0b00000000000000000000001000010000#32 = .ok (.ecbEnc .ext) ∧
    decode 0b00000000000000000000001100010000#32 = .ok (.ecbDec .ext) ∧
    decode 0b00000000000000000000001000010001#32 = .ok (.cbcEnc .ext) ∧
    decode 0b00000000000000000000001100010001#32 = .ok (.cbcDec .ext) ∧
    decode 0b00000000000000000000001000010010#32 = .ok (.cfbEnc .ext) ∧
    decode 0b00000000000000000000001100010010#32 = .ok (.cfbDec .ext) ∧
    decode 0b00000000000000000000001000010011#32 = .ok (.ctrEnc .ext) ∧
    decode 0b00000000000000000000001100010011#32 = .ok (.ctrDec .ext) := by decide
theorem decode_illegal_op :
    decode 0x00000000#32 = .error .noSuchCommand ∧ decode 0x0000000E#32 = .error .noSuchCommand ∧
    decode 0x0000000F#32 = .error .noSuchCommand ∧ decode 0x00000014#32 = .error .noSuchCommand ∧
    decode 0x0000003F#32 = .error .noSuchCommand ∧ decode 0x00000101#32 = .error .noSuchCommand ∧
    decode 0x0000010A#32 = .error .noSuchCommand := by decide
theorem decode_illegal_prim :
    decode 0x00000209#32 = .error .primNotTaken ∧ decode 0x0000020B#32 = .error .primNotTaken ∧
    decode 0x0000020D#32 = .error .primNotTaken ∧ decode 0x00000309#32 = .error .primNotTaken := by decide
theorem decode_illegal_reserved :
    decode 0x00000040#32 = .error .reservedBitSet ∧ decode 0x00000410#32 = .error .reservedBitSet ∧
    decode 0x80000010#32 = .error .reservedBitSet := by decide

/-! ## One step of each command

The state after reset with the operands written, a command word accepted, and one step. The expected values
are those of 95_test_vectors.md, by section. -/

/-- Every register marked written. -/
def allWritten : Written where
  din := true
  din2 := true
  dout := true
  keyToy := true
  ivToy := true
  keyExt := ⟨true, true, true, true⟩
  ivExt := ⟨true, true, true, true⟩

/-- The state after reset with DIN, DIN2 and KEY_TOY written. -/
def operands (din din2 : Word) (key : ToyKey) : State :=
  { State.reset with din := din, din2 := din2, keyToy := key, written := allWritten }

/-- The golden key and IV 0xAA of section 2.7, and a message in IN_BUF. -/
def message (m : List Byte) : State :=
  { operands 0 0 0x1FD with
    ivToy := 0xAA, mem := Memory.writeBytes [] inBase m, lenIn := BitVec.ofNat 13 m.length }

/-- The state after one step that performs the command `w`. -/
def perform (w : Nat) (s : State) : Option State :=
  match step (s.withFetchWord 32 w) with
  | .next t => some t
  | _ => none

/-- STATUS and DOUT after a command. -/
def answer (w : Nat) (s : State) : Option (Word × Word) :=
  (perform w s).map fun t => (statusWord t.phase t.status, t.dout)

/-- STATUS, LEN_OUT and that many bytes of OUT_BUF after a command. -/
def output (w : Nat) (s : State) : Option (Word × Nat × List (Option Byte)) :=
  (perform w s).map fun t =>
    (statusWord t.phase t.status, t.lenOut.toNat,
      (List.range t.lenOut.toNat).map fun k => t.mem.read (outBase + k))

-- Section 2.1.
theorem test_permIp : answer 0x01 (operands 0xA5 0 0) = some (0x002, 0x74) := by decide
theorem test_permIp_operand : answer 0x01 (operands 0xFFFFFF00 0 0) = some (0x176, 0) := by decide
theorem test_permIpinv : answer 0x02 (operands 0xA5 0 0) = some (0x002, 0x63) := by decide
theorem test_permIpinv_operand : answer 0x02 (operands 0x1FF 0 0) = some (0x176, 0) := by decide
theorem test_permEp : answer 0x03 (operands 0xA 0 0) = some (0x002, 0x55) := by decide
theorem test_permEp_operand : answer 0x03 (operands 0x10 0 0) = some (0x176, 0) := by decide
theorem test_permP4 : answer 0x04 (operands 0x3 0 0) = some (0x002, 0x6) := by decide
theorem test_permP4_operand : answer 0x04 (operands 0x1F 0 0) = some (0x176, 0) := by decide
-- Section 2.2.
theorem test_sbox0 : answer 0x05 (operands 0x6 0 0) = some (0x002, 2) := by decide
theorem test_sbox0_operand : answer 0x05 (operands 0x10 0 0) = some (0x176, 0) := by decide
theorem test_sbox1 : answer 0x06 (operands 0x8 0 0) = some (0x002, 3) := by decide
theorem test_sbox1_operand : answer 0x06 (operands 0x80000000 0 0) = some (0x176, 0) := by decide
-- Section 2.3.
theorem test_roundF : answer 0x07 (operands 0xE 0xFC 0) = some (0x002, 0x2) := by decide
theorem test_roundF_operand : answer 0x07 (operands 0x0 0x100 0) = some (0x176, 0) := by decide
-- Section 2.4, V-KS-3 and V-KS-7.
theorem test_keysched : (perform 0x08 (operands 0 0 0x1FD)).map (fun t => (t.subkeys, t.dout)) =
    some (0x15FFC, 0x5FFC) := by decide
theorem test_keysched_one : answer 0x08 (operands 0 0 0x001) = some (0x002, 0x0208) := by decide
-- R170: another KS, by its values.
theorem test_keysched_listed : (perform 0x08 { operands 0 0 0x3FF with
    config := { defaultConfig with ks := .listed (Vector.replicate 1024 (0x12, 0x34)) } }).map (fun t => (t.subkeys, t.dout)) =
    some (0x11234, 0x1234) := by decide +kernel
-- Section 2.5, V-TOY-2 and V-TOY-8; V-GK-1.
theorem test_toyEnc : answer 0x09 (operands 0x01 0 0x1FD) = some (0x002, 0x4D) := by decide +kernel
theorem test_toyEnc_operand : answer 0x09 (operands 0x100 0 0x1FD) = some (0x176, 0) := by decide
theorem test_toyDec : answer 0x109 (operands 0x4D 0 0x1FD) = some (0x002, 0x01) := by decide +kernel
theorem test_toyDec_published : answer 0x109 (operands 0x38 0 0x282) = some (0x002, 0x97) := by decide +kernel
-- Section 2.6.
theorem test_pad : output 0x0A (message [0x01, 0x23]) = some (0x002, 3, [some 0x01, some 0x23, some 0x80]) := by
  decide
theorem test_pad_ext : output 0x20A (message [0, 1, 2, 3, 4, 5, 6, 7, 8, 9, 10, 11, 12, 13, 14]) =
    some (0x002, 16, [some 0, some 1, some 2, some 3, some 4, some 5, some 6, some 7, some 8, some 9, some 10,
      some 11, some 12, some 13, some 14, some 0x80]) := by decide
theorem test_unpadLen : output 0x0B { message [1, 2, 3] with din := 2 } = some (0x002, 2, [some 1, some 2]) := by
  decide
theorem test_unpadLen_whole_word : output 0x0B { message [1, 2, 3] with din := 0x00010000 } = some (0x116, 0, []) := by
  decide
theorem test_unpadScan_last_block : output 0x0C (message [0x01, 0x80, 0x00]) = some (0x136, 0, []) := by
  decide
theorem test_unpadScan_ext : output 0x20C (message [0x80, 0x80, 0x80, 0x80, 0x80, 0x80, 0x80, 0x80, 0x80, 0x80, 0x80,
    0x80, 0x80, 0x80, 0x80, 0x80]) = some (0x002, 15, List.replicate 15 (some 0x80)) := by decide
theorem test_xfer : (perform 0x0D { State.reset with
    mem := Memory.writeBytes [] outBase [0x01, 0x23, 0x80], lenOut := 3 }).map
      (fun t => (t.lenIn, t.mem.readBytes inBase 3 |>.toOption)) = some (3, some [0x01, 0x23, 0x80]) := by
  decide
theorem test_xfer_after_reset : (perform 0x0D State.reset).map (fun t => (t.lenIn, t.mem)) = some (0, []) := by
  decide
-- Section 2.7.
theorem test_ecbEnc : output 0x010 (message [1, 2, 4, 8]) =
    some (0x002, 4, [some 0x4D, some 0x36, some 0xB8, some 0xD7]) := by decide +kernel
theorem test_ecbDec : output 0x110 (message [1, 2, 4, 8]) =
    some (0x002, 4, [some 0x3A, some 0xE4, some 0xC2, some 0xBB]) := by decide +kernel
theorem test_cbcEnc : output 0x011 (message [0x01, 0x23, 0x45, 0x67]) =
    some (0x002, 4, [some 0xF4, some 0x0B, some 0xE9, some 0xFB]) := by decide +kernel
theorem test_cbcDec : output 0x111 (message [0x01, 0x23, 0x45, 0x67]) =
    some (0x002, 4, [some 0x90, some 0x30, some 0xCC, some 0xA5]) := by decide +kernel
theorem test_cfbEnc : output 0x012 (message [0x01, 0x23, 0x45, 0x67]) =
    some (0x002, 4, [some 0x17, some 0xDE, some 0xB7, some 0x58]) := by decide +kernel
theorem test_cfbDec : output 0x112 (message [0x01, 0x23, 0x45, 0x67]) =
    some (0x002, 4, [some 0x1E, some 0x60, some 0x04, some 0xDB]) := by decide +kernel
theorem test_ctrEnc_golden : output 0x013 { message [1, 2, 4] with ivToy := 0 } =
    some (0x002, 3, [some 0x38, some 0x4F, some 0x32]) := by decide +kernel
theorem test_ctrDec_wraps : output 0x113 { message [0, 0] with ivToy := 0xFF } =
    some (0x002, 2, [some 0xDD, some 0x39]) := by decide +kernel

/-! The modes over 128 bits, with the stub of section 4 in place of the production primitive. -/

/-- Section 4's stub: a rotation left by 8 bits of the block XOR the key. -/
def stub (k b : ExtBlock) : ExtBlock := ((b ^^^ k) <<< 8) ||| ((b ^^^ k) >>> 120)

theorem test_keyExt_order :
    (⟨0x2B7E1516, 0x28AED2A6, 0xABF71588, 0x09CF4F3C⟩ : Quad Word).value = 0x2B7E151628AED2A6ABF7158809CF4F3C#128 := by
  decide
theorem test_cbcEnc_stub : bytesOf (cbcEncrypt (stub 0x2B7E151628AED2A6ABF7158809CF4F3C#128)
    0x000102030405060708090A0B0C0D0E0F#128 (blocksOf 128 ((List.range 32).map fun k => BitVec.ofNat 8 k))) =
    [0x7E, 0x15, 0x16, 0x28, 0xAE, 0xD2, 0xA6, 0xAB, 0xF7, 0x15, 0x88, 0x09, 0xCF, 0x4F, 0x3C, 0x2B,
     0x7A, 0x11, 0x2D, 0x92, 0x69, 0x62, 0x1A, 0x44, 0xFB, 0x87, 0x9A, 0xDA, 0x9D, 0x6D, 0x08, 0x45] := by
  decide
theorem test_cfbEnc_stub : bytesOf (cfbEncrypt (stub 0x2B7E151628AED2A6ABF7158809CF4F3C#128)
    0x000102030405060708090A0B0C0D0E0F#128 (blocksOf 64 ((List.range 32).map fun k => BitVec.ofNat 8 k))) =
    [0x7F, 0x16, 0x17, 0x2F, 0xAF, 0xD1, 0xA7, 0xA4, 0x7F, 0x16, 0x17, 0x2F, 0xAF, 0xD1, 0xA7, 0xDB,
     0x78, 0x13, 0x2B, 0x94, 0x6B, 0x60, 0x14, 0xC3, 0x70, 0x1B, 0x23, 0x9C, 0x63, 0x68, 0x63, 0xCC] := by
  decide

/-! ## Errors and their priority (section 2.9), and the host port (section 2.10) -/

/-- The configuration with EXT_PRESENT = 0. -/
def noExt : Config := { defaultConfig with extPresent := false }

/-- The configuration with MSG_CAP = 16. -/
def cap16 : Config := { defaultConfig with msgCap := 16 }

/-- A malformed TBL (R293): IP with an entry out of range. -/
def badTables : Tables := { defaultTables with ip := [1, 5, 2, 0, 3, 7, 4, 8] }

theorem test_absent_before_length :
    answer 0x210 { State.resetFor noExt with lenIn := 15 } = some (0x156, 0) := by decide
theorem test_illegal_before_absent : answer 0x209 (State.resetFor noExt) = some (0x146, 0) := by decide
theorem test_capacity_before_length : answer 0x210 { State.reset with lenIn := 5000 } = some (0x166, 0) := by
  decide
theorem test_length_before_key : (perform 0x210 { State.reset with lenIn := 15 }).map
    (fun t => (statusWord t.phase t.status, t.modelFault)) = some (0x116, none) := by decide
theorem test_fault_first : answer 0x00000000 (State.resetFor { defaultConfig with tbl := badTables }) =
    some (0x526, 0) := by decide
theorem test_fault_after_reset : (State.resetFor { defaultConfig with tbl := badTables }).status.fault = true := by
  decide

/-- A state in which the host makes one access. -/
def hostAt (a : Access) (s : State) : State := { s with turns := [.host a] }

/-- What the host port answers. -/
def reply (a : Access) (s : State) : Option Response :=
  match step (hostAt a s) with
  | .next t => t.response
  | _ => none

theorem test_id : reply (readAt 0x000) State.reset = some (.data 0x46435031) := by decide
theorem test_cfg : reply (readAt 0x004) State.reset = some (.data 0x10000001) := by decide
theorem test_reserved : reply (readAt 0x034) State.reset = some (.data 0) := by decide
theorem test_misaligned : reply (readAt 0x002) State.reset = some .busError := by decide
theorem test_status_busy : reply (readAt 0x00C) (State.reset.acceptCommand 1) = some (.data 1) := by decide
theorem test_lenIn_bits : (match step (hostAt (writeAt 0x02C 0xFFFFFFFF) State.reset) with
    | .next t => some t.lenIn
    | _ => none) = some 0x1FFF := by decide
theorem test_word_order : (match step (hostAt (writeAt 0x1000 0x01020408) State.reset) with
    | .next t => t.mem
    | _ => []) = [(0x1000, 0x01), (0x1001, 0x02), (0x1002, 0x04), (0x1003, 0x08)] := by decide
theorem test_unwritten_byte : (match step (hostAt (readAt 0x2000) { State.reset with
    mem := Memory.writeBytes [] outBase [1, 2, 3] }) with
    | .fault f => some f
    | _ => none) = some (.unwrittenRead (.byte 0x2003)) := by decide
theorem test_soft_reset_keeps_nothing : (match step (hostAt (writeAt 0x008 1) (message [1, 2])) with
    | .next t => some (t.mem, t.keyToy, t.written)
    | _ => none) = some ([], 0, Written.none) := by decide
-- V-KS-3 and the SKVALID sequence of section 2.4.
theorem test_skvalid : (match step (hostAt (writeAt 0x020 0) { State.reset with subkeys := 0x15FFC }) with
    | .next t => some t.subkeys
    | _ => none) = some 0x05FFC := by decide

/-! ## Witnesses: for each obligation, states and operands that meet its hypotheses

`witness_<Name>` is for `Obligations.<Name>`; an obligation with no hypotheses has none. -/

/-- What a `do`-free run of one command leaves: the next state, where there is one. -/
def ran (i : Instr) (s : State) : Option State :=
  match exec i s with
  | .next t => some t
  | _ => none

theorem next_of_ran {i : Instr} {s : State} (h : (ran i s).isSome = true) : ∃ t, exec i s = .next t := by
  unfold ran at h
  split at h
  · rename_i t ht; exact ⟨t, ht⟩
  · cases h

theorem next_of_ran_eq {i : Instr} {s t : State} (h : ran i s = some t) : exec i s = .next t := by
  unfold ran at h
  split at h
  · rename_i u hu; rw [hu]; exact congrArg _ (Option.some.inj h)
  · cases h

/-- A run whose ERRCODE is `c`. -/
theorem raised_of_ran {i : Instr} {s : State} {c : BitVec 4} (h : (ran i s).any (fun t => t.status.errCode == c) = true) :
    ∃ t, exec i s = .next t ∧ t.status.errCode = c := by
  cases hr : ran i s with
  | none => rw [hr] at h; cases h
  | some t => rw [hr] at h; exact ⟨t, next_of_ran_eq hr, by simpa using h⟩

theorem holds_of_readBytes {m : Memory} {a : Nat} {bs : List Byte} (h : m.readBytes a bs.length = .ok bs) :
    m.holds a bs := ((m.readBytes_ok_iff a bs.length bs).1 h).2

theorem ready_reset (p : Prim) : State.reset.ready p := ⟨by decide, fun _ => by decide⟩

/-- A BUSY state, with its core turn to come (`queued`) or no turn at all (`busy`). -/
def busy (w : Word) (s : State) : State := s.acceptCommand w
def queued (w : Word) (s : State) : State := { s.acceptCommand w with turns := [.core] }

theorem coreTurn_busy {w : Word} : (busy w State.reset).coreTurn (busy w State.reset) := ⟨rfl, .inl ⟨rfl, rfl⟩⟩
theorem coreTurn_queued {w : Word} : (queued w State.reset).coreTurn (busy w State.reset) := ⟨rfl, .inr ⟨[], rfl, rfl⟩⟩
theorem hostTurn_at (a : Access) {s : State} (h : s.turns = []) : (hostAt a s).hostTurn a s :=
  ⟨[], rfl, by rw [← h]; rfl⟩

/-- The state after reset with EXT_PRESENT = 0, and with MSG_CAP = 16. -/
def absent : State := State.resetFor noExt
def small (m : List Byte) : State := { message m with config := cap16 }

/-- Fifteen bytes: with MSG_CAP = 16 the longest message PAD takes. -/
def fifteen : List Byte := [0, 1, 2, 3, 4, 5, 6, 7, 8, 9, 10, 11, 12, 13, 14]
def sixteen : List Byte := fifteen ++ [15]

theorem hasMessage_of {s : State} {m : List Byte} (h1 : m.length = s.lenIn.toNat)
    (h2 : s.mem.readBytes inBase m.length = .ok m) : s.hasMessage m := ⟨h1, holds_of_readBytes h2⟩

theorem witness_IllegalWordsChangeOnlyStatus :
    (queued 0 State.reset).coreTurn (busy 0 State.reset) ∧ (busy 0 State.reset).coreTurn (busy 0 State.reset) ∧
    (busy 0 State.reset).status.fault = false ∧ wordWellFormed (busy 0 State.reset).latched = false :=
  ⟨coreTurn_queued, coreTurn_busy, by decide, by decide⟩

theorem witness_StepRunsTheLatchedCommand :
    ((queued 0x001 State.reset).coreTurn (busy 0x001 State.reset) ∧ decode (busy 0x001 State.reset).latched = .ok .permIp) ∧
    (hostAt (readAt 0) State.reset).hostTurn (readAt 0) State.reset ∧
    (State.reset.phase = .idle ∧ State.reset.turns = []) ∧
    ({ State.reset with turns := [.core] }.phase = .idle ∧ { State.reset with turns := [.core] }.turns = .core :: []) :=
  ⟨⟨coreTurn_queued, by decide⟩, hostTurn_at _ rfl, ⟨rfl, rfl⟩, rfl, rfl⟩

theorem witness_CommonChecksInOrder :
    (∃ s t : State, s.coreTurn t ∧ t.status.fault = true) ∧
    ((busy 0 State.reset).coreTurn (busy 0 State.reset) ∧ (busy 0 State.reset).status.fault = false ∧
      decode (busy 0 State.reset).latched = .error .noSuchCommand) ∧
    ((busy 0x210 absent).coreTurn (busy 0x210 absent) ∧ (busy 0x210 absent).status.fault = false ∧
      decode (busy 0x210 absent).latched = .ok (.ecbEnc .ext) ∧ (busy 0x210 absent).config.extPresent = false) :=
  ⟨⟨busy 1 (State.resetFor { defaultConfig with tbl := badTables }), _, ⟨rfl, .inl ⟨rfl, rfl⟩⟩, by decide⟩,
    ⟨coreTurn_busy, by decide, by decide⟩, ⟨rfl, .inl ⟨rfl, rfl⟩⟩, by decide, by decide, by decide⟩

theorem witness_PrimitiveAbsentBeforeLengths :
    (absent.status.fault = false ∧ Instr.prim (.pad .ext) = .ext ∧ absent.config.extPresent = false) ∧
    (∃ t, exec (.pad .ext) absent = .next t ∧ t.status.errCode = 5) :=
  ⟨by decide, raised_of_ran (by decide)⟩

theorem witness_CommandsEndInOkOrRaise :
    (∃ t, exec .permIp (operands 0xA5 0 0) = .next t ∧ t.status.errCode = 0) ∧
    (∃ t, exec .permIp (operands 0x100 0 0) = .next t ∧ t.status.errCode = 7) :=
  ⟨raised_of_ran (by decide), raised_of_ran (by decide)⟩

theorem witness_CommandRegisterFrame :
    (∃ t, exec .xfer State.reset = .next t) ∧ ¬Instr.xfer.writesDout ∧
    (∃ t, exec .permIp { State.reset with modelFault := some (.unwrittenRead .din2) } = .next t) ∧
    (Instr.isMode (.ecbEnc .toy) ∧ ∃ t, exec (.ecbEnc .toy) (message [1]) = .next t) :=
  ⟨next_of_ran (by decide), by simp [Instr.writesDout], next_of_ran (by decide), ⟨.toy, by simp⟩,
    next_of_ran (by decide)⟩

/-- The first byte past the output of PAD, and past the message XFER moves. -/
theorem witness_CommandMemoryFrame :
    (∃ t, defaultConfig.capWellFormed = true ∧ exec (.pad .toy) (message [1]) = .next t ∧
      ¬(Instr.writesOut (.pad .toy) ∧ outBase ≤ outBase + t.lenOut.toNat ∧ outBase + t.lenOut.toNat < outBase + t.lenOut.toNat) ∧
      ¬(Instr.pad .toy = .xfer ∧ inBase ≤ outBase + t.lenOut.toNat ∧
        outBase + t.lenOut.toNat < inBase + (message [1]).lenOut.toNat)) ∧
    (∃ t, exec .xfer State.reset = .next t) := by
  obtain ⟨t, ht⟩ := next_of_ran (i := .pad .toy) (s := message [1]) (by decide)
  exact ⟨⟨t, by decide, ht, by omega, by simp⟩, next_of_ran (by decide)⟩

theorem witness_PermutePositions : (∀ e ∈ ([3, 0, 1, 2] : List Nat), e < 4) ∧
    0 < ([3, 0, 1, 2] : List Nat).length ∧ 3 < ([3, 0, 1, 2] : List Nat).length := by decide

theorem witness_PermutationCommands :
    (operands 0xFF 0 0).status.fault = false ∧ (operands 0xFF 0 0).din.extractLsb' 8 24 = 0 ∧
    (operands 0xF 0 0).din.extractLsb' 4 28 = 0 := by decide

theorem witness_SubstituteRowAndColumn :
    (defaultTables.s0.length = 4 ∧ ∀ r ∈ defaultTables.s0, r.length = 4 ∧ ∀ e ∈ r, e < 4) ∧
    (defaultTables.s1.length = 4 ∧ ∀ r ∈ defaultTables.s1, r.length = 4 ∧ ∀ e ∈ r, e < 4) := by decide

theorem witness_SubstitutionCommands :
    (operands 0xF 0 0).status.fault = false ∧ (operands 0xF 0 0).din.extractLsb' 4 28 = 0 := by decide

theorem witness_RoundFunctionCommand :
    (operands 0xF 0xFF 0).status.fault = false ∧ (operands 0xF 0xFF 0).din.extractLsb' 4 28 = 0 ∧
    (operands 0xF 0xFF 0).din2.extractLsb' 8 24 = 0 ∧
    ∃ e : BitVec 8, e = permute 8 ((operands 0xF 0xFF 0).din.extractLsb' 0 4) (operands 0xF 0xFF 0).config.tbl.ep ^^^
      (operands 0xF 0xFF 0).din2.extractLsb' 0 8 := ⟨by decide, by decide, by decide, _, rfl⟩

theorem witness_SubkeysSelectKeyBits : 0 < 8 ∧ 7 < 8 := by decide

theorem witness_KeyScheduleCommand : (operands 0 0 0x1FD).status.fault = false ∧
    ks (operands 0 0 0x1FD).config.ks (operands 0 0 0x1FD).keyToy = (0x5F, 0xFC) := by decide

/-- The golden key's two subkeys in either order, and a block whose halves differ. -/
theorem witness_ToyCommands :
    (∃ (ka kb : Subkey) (l0 r0 l1 r1 l2 r2 : Half), l0 ++ r0 = permute 8 0x01#8 defaultConfig.tbl.ip ∧ l1 = r0 ∧
      r1 = l0 ^^^ roundF defaultConfig.tbl r0 ka ∧ l2 = l1 ^^^ roundF defaultConfig.tbl r1 kb ∧ r2 = r1 ∧
      ks defaultConfig.ks 0x1FD = (ka, kb)) ∧
    (∃ ka kb : Subkey, ks defaultConfig.ks 0x1FD = (kb, ka)) ∧
    (operands 0xFF 0 0x1FD).status.fault = false ∧ (operands 0xFF 0 0x1FD).din.extractLsb' 8 24 = 0 :=
  ⟨⟨0x5F, 0xFC, (permute 8 0x01#8 defaultConfig.tbl.ip).extractLsb' 4 4,
      (permute 8 0x01#8 defaultConfig.tbl.ip).extractLsb' 0 4, _, _, _, _, by decide, rfl, rfl, rfl, rfl, by decide⟩,
    ⟨_, _, rfl⟩, by decide, by decide⟩

theorem default_ip_round_trip : ∀ x : Block, permute 8 (permute 8 x defaultTables.ip : Block) defaultTables.ipinv = x := by
  decide +kernel
theorem default_ipinv_round_trip : ∀ x : Block, permute 8 (permute 8 x defaultTables.ipinv : Block) defaultTables.ip = x := by
  decide +kernel

theorem witness_ToyCipherRoundTrip :
    Function.Bijective (fun x : Block => (permute 8 x defaultConfig.tbl.ip : Block)) ∧
    (∀ x : Block, permute 8 (permute 8 x defaultConfig.tbl.ip : Block) defaultConfig.tbl.ipinv = x) :=
  ⟨Function.bijective_iff_has_inverse.2
    ⟨fun x => permute 8 x defaultTables.ipinv, default_ip_round_trip, default_ipinv_round_trip⟩, default_ip_round_trip⟩

/-- The default KS, and another that gives the golden key those subkeys. -/
theorem witness_GoldenVector :
    (defaultConfig.tbl = defaultTables ∧ ks defaultConfig.ks 0b0111111101#10 = (0b01011111#8, 0b11111100#8)) ∧
    ks (.listed (Vector.replicate 1024 (0x5F, 0xFC))) 0b0111111101#10 = (0b01011111#8, 0b11111100#8) := by
  decide +kernel

theorem witness_IllegalOperandRefused :
    State.reset.status.fault = false ∧
    (Instr.permIp ∈ [Instr.permIp, .permIpinv, .toyEnc, .toyDec] ∧ (operands 0x100 0 0).din.extractLsb' 8 24 ≠ 0) ∧
    (Instr.roundF ∈ [Instr.permEp, .permP4, .sbox0, .sbox1, .roundF] ∧ (operands 0x10 0 0).din.extractLsb' 4 28 ≠ 0) ∧
    ((operands 0 0x80000000 0).din2.extractLsb' 8 24 ≠ 0) ∧
    (∃ t, exec .toyDec (operands 0x100 0 0) = .next t ∧ t.status.errCode = 7) :=
  ⟨by decide, by decide, by decide, by decide, raised_of_ran (by decide)⟩

theorem witness_PadToTheNextMultiple : 0 < 16 ∧ 16 % 16 = 0 ∧ fifteen.length < 16 ∧ ([] : List Byte).length < 16 := by
  decide

/-- The longest message: its padded length is MSG_CAP. -/
theorem witness_PadCommand :
    (small fifteen).ready .ext ∧ (small fifteen).hasMessage fifteen ∧
    (pad (Prim.blockBytes .ext) fifteen).length = (small fifteen).config.msgCap :=
  ⟨⟨by decide, fun _ => by decide⟩, hasMessage_of (by decide) rfl, by decide⟩

/-- DIN = LEN_IN = MSG_CAP. -/
theorem witness_UnpadLenCommand :
    ∃ s : State, s.ready .toy ∧ s.lenIn.toNat ≤ s.config.msgCap ∧ s.din.toNat ≤ s.lenIn.toNat ∧
      sixteen.length = s.din.toNat ∧ s.mem.holds inBase sixteen :=
  ⟨{ small sixteen with din := 16 }, ⟨by decide, nofun⟩, by decide, by decide, by decide, holds_of_readBytes rfl⟩

theorem witness_UnpadScanFindsTheMarker :
    (∃ m : List Byte, (message m).ready .toy ∧ (message m).lenIn.toNat ≤ (message m).config.msgCap ∧
      (message m).hasMessage m ∧ m.length ≠ 0 ∧ m.length % Prim.blockBytes .toy = 0 ∧
      0 < Prim.blockBytes .toy ∧ m = [1] ++ 0x80#8 :: List.replicate 0 0x00#8) ∧
    (∃ m : List Byte, (message m).hasMessage m ∧ m.length % Prim.blockBytes .toy = 0 ∧
      ∀ (x : List Byte) (z : Nat), z < Prim.blockBytes .toy → m ≠ x ++ 0x80#8 :: List.replicate z 0x00#8) ∧
    (∃ t, exec (.unpadScan .toy) (message [0x12, 0x00]) = .next t ∧ t.status.errCode = 3) := by
  refine ⟨⟨[1, 0x80], ⟨by decide, nofun⟩, by decide, hasMessage_of (by decide) rfl, by decide, by decide, by decide, rfl⟩,
    ⟨[0x12, 0x00], hasMessage_of (by decide) rfl, by decide, fun x z hz h => ?_⟩, raised_of_ran (by decide)⟩
  have hz0 : z = 0 := by simp [Prim.blockBytes] at hz; exact hz
  subst hz0
  have := congrArg List.getLast? h
  simp at this

/-- OUT_BUF holds one byte and LEN_OUT = 1. -/
def oneOut : State := { State.reset with mem := [(outBase, 0x80)], lenOut := 1 }

theorem inv_oneOut : oneOut.Inv where
  memWf := by decide
  memInBuffers := by decide
  lenOutFits := by decide
  outWritten := by
    intro k hk
    have : k = 0 := by have : oneOut.lenOut.toNat = 1 := rfl; omega
    subst this; rfl
  capLegal := by decide
  faultIsCheck := by decide
  busyClear := nofun
  errDone := nofun
  errCodeLegal := by decide
  subkeysValid := fun h => absurd h (by decide)

theorem witness_XferCommand :
    oneOut.Inv ∧ oneOut.ready .toy ∧ ([0x80] : List Byte).length = oneOut.lenOut.toNat ∧
      oneOut.mem.holds outBase [0x80] :=
  ⟨inv_oneOut, ⟨by decide, nofun⟩, by decide, holds_of_readBytes rfl⟩

theorem witness_PaddingRoundTrip :
    ∃ s : State, s.ready .ext ∧ s.config.capWellFormed = true ∧ s.hasMessage fifteen ∧
      (pad (Prim.blockBytes .ext) fifteen).length ≤ s.config.msgCap ∧ s.din.toNat = fifteen.length :=
  ⟨{ small fifteen with din := 15 }, ⟨by decide, fun _ => by decide⟩, by decide, hasMessage_of (by decide) rfl,
    by decide, by decide⟩

/-- LEN_IN one above MSG_CAP; and LEN_IN = MSG_CAP for PAD. -/
theorem witness_CapacityExceededRefused :
    (Instr.unpadLen.writesOut ∧ ∃ s : State, s.ready .toy ∧ s.config.capWellFormed = true ∧
      s.lenIn.toNat > s.config.msgCap) ∧
    (Instr.writesOut (.pad .toy) ∧ (small sixteen).ready .toy ∧ (small sixteen).lenIn.toNat ≥ (small sixteen).config.msgCap) ∧
    (∃ t, exec (.pad .toy) (small sixteen) = .next t ∧ t.status.errCode = 6) :=
  ⟨⟨.inl ⟨.toy, by simp⟩, { State.reset with lenIn := 4097 }, ready_reset _, by decide, by decide⟩,
    ⟨.inl ⟨.toy, by simp⟩, ⟨by decide, nofun⟩, by decide⟩, raised_of_ran (by decide)⟩

theorem witness_InvalidInputLengthRefused :
    (∃ s : State, s.ready .ext ∧ s.lenIn.toNat ≤ s.config.msgCap ∧ lengthInvalid s (.ctrDec .ext)) ∧
    (∃ s : State, s.ready .ext ∧ s.lenIn.toNat ≤ s.config.msgCap ∧ lengthInvalid s (.cfbEnc .ext)) ∧
    (State.reset.ready .toy ∧ lengthInvalid State.reset (.unpadScan .toy)) ∧
    (∃ s : State, s.ready .toy ∧ s.lenIn.toNat ≤ s.config.msgCap ∧ lengthInvalid s .unpadLen) ∧
    (∃ t, exec (.cfbDec .ext) { State.reset with lenIn := 12 } = .next t ∧ t.status.errCode = 1) :=
  ⟨⟨{ State.reset with lenIn := 15 }, ready_reset _, by decide, by show ¬_; decide⟩,
    ⟨{ State.reset with lenIn := 12 }, ready_reset _, by decide, rfl, by decide⟩,
    ⟨ready_reset _, .inl (by decide)⟩,
    ⟨{ State.reset with din := 1 }, ready_reset _, by decide, by show _ < _; decide⟩, raised_of_ran (by decide)⟩

/-- The last block, segment, nibble and byte of sixteen bytes. -/
theorem witness_BlocksFromBytes : 16 * 0 + 15 < sixteen.length ∧ sixteen.length % 16 = 0 ∧
    8 * 1 + 7 < sixteen.length ∧ sixteen.length % 8 = 0 ∧ 15 < sixteen.length ∧
    2 * 15 + 1 < (nibblesOf sixteen).length := by decide

/-- A message of both primitives' modes at the full capacity of 16 bytes. -/
theorem modes_hypotheses : (small sixteen).hasMessage sixteen ∧
    (small sixteen).lenIn.toNat ≤ (small sixteen).config.msgCap ∧ (small sixteen).ready .toy ∧
    (small sixteen).ready .ext ∧ sixteen.length % 16 = 0 ∧ sixteen.length % 8 = 0 :=
  ⟨hasMessage_of (by decide) rfl, by decide, ⟨by decide, nofun⟩, ⟨by decide, fun _ => by decide⟩, by decide, by decide⟩

/-- The external key and IV of a state, spelled in words. -/
def extInputs (s : State) : Prop := ∃ key iv : ExtBlock,
  key = s.keyExt.w0 ++ s.keyExt.w1 ++ s.keyExt.w2 ++ s.keyExt.w3 ∧
  iv = s.ivExt.w0 ++ s.ivExt.w1 ++ s.ivExt.w2 ++ s.ivExt.w3

theorem extInputs_exist (s : State) : extInputs s := ⟨_, _, rfl, rfl⟩

theorem witness_EcbCommands : (small sixteen).hasMessage sixteen ∧
    (small sixteen).lenIn.toNat ≤ (small sixteen).config.msgCap ∧ (small sixteen).ready .toy ∧
    (small sixteen).ready .ext ∧ sixteen.length % 16 = 0 ∧ extInputs (small sixteen) :=
  ⟨modes_hypotheses.1, by decide, modes_hypotheses.2.2.1, modes_hypotheses.2.2.2.1, by decide, extInputs_exist _⟩
theorem witness_CbcCommands : (small sixteen).hasMessage sixteen ∧
    (small sixteen).lenIn.toNat ≤ (small sixteen).config.msgCap ∧ (small sixteen).ready .toy ∧
    (small sixteen).ready .ext ∧ sixteen.length % 16 = 0 ∧ extInputs (small sixteen) := witness_EcbCommands
theorem witness_CfbCommands : (small sixteen).hasMessage sixteen ∧
    (small sixteen).lenIn.toNat ≤ (small sixteen).config.msgCap ∧ (small sixteen).ready .toy ∧
    (small sixteen).ready .ext ∧ sixteen.length % 8 = 0 ∧ extInputs (small sixteen) :=
  ⟨modes_hypotheses.1, by decide, modes_hypotheses.2.2.1, modes_hypotheses.2.2.2.1, by decide, extInputs_exist _⟩
theorem witness_CtrCommands :
    ((fun p => Instr.ctrDec p) = Instr.ctrEnc ∨ (fun p => Instr.ctrDec p) = Instr.ctrDec) ∧
    (small sixteen).hasMessage sixteen ∧ (small sixteen).ready .toy ∧ (small sixteen).ready .ext ∧
    sixteen.length % 16 = 0 ∧ extInputs (small sixteen) :=
  ⟨.inr rfl, modes_hypotheses.1, modes_hypotheses.2.2.1, modes_hypotheses.2.2.2.1, by decide, extInputs_exist _⟩

theorem witness_ModesBlockByBlock : 0 < ([1, 2] : List Block).length ∧ 1 < ([1, 2] : List Block).length := by decide

theorem witness_CfbSegmentBySegment : 4 ≤ 8 ∧ 64 ≤ 128 ∧ 8 ≤ 8 ∧ 0 < ([1] : List (BitVec 4)).length ∧ 7 < 8 := by decide

theorem witness_ModesRoundTrip : ∀ b : Block, (fun b : Block => b ^^^ 0x5A) ((fun b : Block => b ^^^ 0x5A) b) = b := by
  intro b
  show b ^^^ 0x5A#8 ^^^ 0x5A#8 = b
  rw [BitVec.xor_assoc, BitVec.xor_self, BitVec.xor_zero]

/-- Under the default TBL and KS decryption undoes encryption of each of the 256 blocks (V-TOY, section 2.5). -/
theorem default_round_trip : ∀ b : Block, toyDecrypt cap16 0x1FD (toyEncrypt cap16 0x1FD b) = b := by
  decide +kernel

/-- Nothing can be shown of the opaque production primitive, so for ECB.X and CBC.X the message is the empty one. -/
theorem witness_ModeCommandsRoundTrip :
    ((small sixteen).ready (Instr.prim (.ecbEnc .toy)) ∧ (small sixteen).lenIn.toNat ≤ (small sixteen).config.msgCap ∧
      (small sixteen).hasMessage sixteen ∧ ∀ b, toyDecrypt (small sixteen).config (small sixteen).keyToy
        (toyEncrypt (small sixteen).config (small sixteen).keyToy b) = b) ∧
    ((small []).ready (Instr.prim (.ecbEnc .ext)) ∧ (small []).hasMessage [] ∧ ([] : List Byte).length % 16 = 0 ∧
      ∀ b ∈ blocksOf 128 [], Config.extDec (small []).keyExt.value (Config.extEnc (small []).keyExt.value b) = b) ∧
    ((small []).ready (Instr.prim (.cbcEnc .ext)) ∧
      ∀ b ∈ List.zipWith (· ^^^ ·) (blocksOf 128 []) ((small []).ivExt.value ::
          cbcEncrypt (Config.extEnc (small []).keyExt.value) (small []).ivExt.value (blocksOf 128 [])),
        Config.extDec (small []).keyExt.value (Config.extEnc (small []).keyExt.value b) = b) ∧
    ((small sixteen).ready (Instr.prim (.cfbEnc .ext)) ∧ sixteen.length % Prim.segmentUnit .ext = 0) ∧
    ((small sixteen).ready (Instr.prim (.ctrEnc .ext)) ∧ sixteen.length % Prim.blockBytes .ext = 0) :=
  ⟨⟨modes_hypotheses.2.2.1, by decide, modes_hypotheses.1, default_round_trip⟩,
    ⟨⟨by decide, fun _ => by decide⟩, hasMessage_of (by decide) rfl, by decide, nofun⟩,
    ⟨⟨by decide, fun _ => by decide⟩, nofun⟩,
    ⟨modes_hypotheses.2.2.2.1, by decide⟩, modes_hypotheses.2.2.2.1, by decide⟩

/-- The continuation value of CFB, the register half as wide as the segment's message; and two messages of whole
segments. -/
theorem witness_ModesContinue :
    (∃ fr : Block, fr.toNat = (cfbEncrypt (fun b => b) 0xAA#8 [0x1#4, 0x2#4, 0x3#4]).foldl
      (fun n c => n * 2 ^ 4 + c.toNat) (0xAA#8).toNat % 2 ^ 8) ∧
    (0x23#8).toNat = ([0x1#4, 0x2#4, 0x3#4] : List (BitVec 4)).foldl (fun n c => n * 2 ^ 4 + c.toNat) (0xAA#8).toNat %
      2 ^ 8 ∧
    sixteen.length % 8 = 0 ∧ ([] : List Byte).length % 8 = 0 :=
  ⟨⟨BitVec.ofNat 8 _, BitVec.toNat_ofNat _ _⟩, by decide, by decide, by decide⟩

/-- The same inputs, with a different DOUT. -/
theorem witness_ModesLeaveTheirOperands :
    Instr.isMode (.ecbEnc .toy) ∧ (∃ t, exec (.ecbEnc .toy) (message [1, 2]) = .next t) ∧
    (∃ t, exec (.ecbEnc .toy) { message [1, 2] with dout := 7 } = .next t) :=
  ⟨⟨.toy, by simp⟩, next_of_ran (by decide), next_of_ran (by decide)⟩

theorem witness_BusErrorChangesNothing :
    ((hostAt (readAt 0x0002) State.reset).hostTurn (readAt 0x0002) State.reset ∧ (readAt 0x0002).wellFormed = false) ∧
    ((hostAt ⟨0x1000, 8, .write 1⟩ State.reset).hostTurn ⟨0x1000, 8, .write 1⟩ State.reset ∧
      (⟨0x1000, 8, .write 1⟩ : Access).wellFormed = false) :=
  ⟨⟨hostTurn_at _ rfl, by decide⟩, hostTurn_at _ rfl, by decide⟩

theorem witness_IdAndCfgAreConstant :
    (∀ acc : Access, (hostAt acc State.reset).hostTurn acc State.reset) ∧ State.reset.phase = .idle ∧
    (0x030 : BitVec 14) ∈ ([0x000, 0x004, 0x01C, 0x028, 0x030] : List (BitVec 14)) :=
  ⟨fun _ => hostTurn_at _ rfl, rfl, by simp⟩

/-- The first and last words of each reserved range, with MSG_CAP = 16; Idle and BUSY. -/
theorem witness_ReservedOffsets :
    cap16.capWellFormed = true ∧
    (∀ a ∈ ([0x034, 0x03C, 0x060, 0xFFC, 0x1010, 0x1FFC, 0x2010, 0x2FFC, 0x3000, 0x3FFC] : List (BitVec 14)),
      a.toNat % 4 = 0 ∧
      ((0x034 ≤ a.toNat ∧ a.toNat < 0x040) ∨ (0x060 ≤ a.toNat ∧ a.toNat < 0x1000) ∨ 0x3000 ≤ a.toNat ∨
       (0x1000 + cap16.msgCap ≤ a.toNat ∧ a.toNat < 0x2000) ∨
       (0x2000 + cap16.msgCap ≤ a.toNat ∧ a.toNat < 0x3000))) ∧
    (∀ acc : Access, (hostAt acc (State.resetFor cap16)).hostTurn acc (State.resetFor cap16)) ∧
    (State.resetFor cap16).phase = .idle ∧
    (∀ acc : Access, (hostAt acc (busy 1 (State.resetFor cap16))).hostTurn acc (busy 1 (State.resetFor cap16))) ∧
    (busy 1 (State.resetFor cap16)).phase = .busy :=
  ⟨by decide, by simp [cap16], fun _ => hostTurn_at _ rfl, rfl, fun _ => hostTurn_at _ rfl, rfl⟩

theorem witness_StatusReadAndClear :
    (hostAt (readAt 0x00C) State.reset).hostTurn (readAt 0x00C) State.reset ∧
    (hostAt (writeAt 0x00C 0x300) (busy 1 State.reset)).hostTurn (writeAt 0x00C 0x300) (busy 1 State.reset) :=
  ⟨hostTurn_at _ rfl, hostTurn_at _ rfl⟩

theorem witness_ResetControlState :
    ∃ r, (hostAt (writeAt 0x008 1) (busy 1 State.reset)).hostTurn (writeAt 0x008 1) (busy 1 State.reset) ∧
      (1 : Word).getLsbD 0 = true ∧ step (hostAt (writeAt 0x008 1) (busy 1 State.reset)) = .next r ∧
      r.config.tbl = defaultTables :=
  ⟨_, hostTurn_at _ rfl, by decide, rfl, rfl⟩

theorem witness_SoftResetAtAnyTime :
    (hostAt (writeAt 0x008 1) State.reset).hostTurn (writeAt 0x008 1) State.reset ∧ (1 : Word).getLsbD 0 = true ∧
    (hostAt (writeAt 0x008 2) (busy 1 State.reset)).hostTurn (writeAt 0x008 2) (busy 1 State.reset) ∧
    (2 : Word).getLsbD 0 = false :=
  ⟨hostTurn_at _ rfl, by decide, hostTurn_at _ rfl, by decide⟩

theorem witness_CmdWriteStartsTheCommand :
    (hostAt (writeAt 0x010 1) State.reset).hostTurn (writeAt 0x010 1) State.reset ∧ State.reset.phase = .idle ∧
    (hostAt (writeAt 0x010 1) (busy 1 State.reset)).hostTurn (writeAt 0x010 1) (busy 1 State.reset) ∧
    (busy 1 State.reset).phase = .busy ∧
    (hostAt (readAt 0x010) State.reset).hostTurn (readAt 0x010) State.reset :=
  ⟨hostTurn_at _ rfl, rfl, hostTurn_at _ rfl, rfl, hostTurn_at _ rfl⟩

theorem witness_BusyKeepsTheOperands :
    (hostAt (writeAt 0x014 5) (busy 1 State.reset)).hostTurn (writeAt 0x014 5) (busy 1 State.reset) ∧
    (busy 1 State.reset).phase = .busy ∧ (0x014 : BitVec 14).toNat % 4 = 0 ∧ (0x014 : BitVec 14) ≠ 0x008 ∧
    (0x014 : BitVec 14) ≠ 0x00C ∧
    (∃ r, step (hostAt (writeAt 0x014 5) (busy 1 State.reset)) = .next r) ∧
    ¬((writeAt 0x014 5).addr = 0x008 ∧ ∃ v : Word, (writeAt 0x014 5).kind = .write v ∧ v.getLsbD 0 = true) :=
  ⟨hostTurn_at _ rfl, rfl, by decide, by decide, by decide, ⟨_, rfl⟩, fun h => absurd h.1 (by decide)⟩

/-- The registers, and the first and last words of OUT_BUF, while BUSY; an operand register; and any read while
Idle. -/
theorem witness_BusyReadsAreFree :
    defaultConfig.capWellFormed = true ∧ (busy 1 State.reset).phase = .busy ∧
    (∀ acc : Access, (hostAt acc (busy 1 State.reset)).hostTurn acc (busy 1 State.reset)) ∧
    (∀ a ∈ ([0x01C, 0x028, 0x030, 0x2000, 0x2FFC] : List (BitVec 14)),
      (a = 0x01C ∨ a = 0x028 ∨ a = 0x030 ∨
        (a.toNat % 4 = 0 ∧ 0x2000 ≤ a.toNat ∧ a.toNat < 0x2000 + defaultConfig.msgCap))) ∧
    (((0x014, (busy 1 State.reset).din) : BitVec 14 × Word) ∈
      [((0x010, 1) : BitVec 14 × Word), (0x014, (busy 1 State.reset).din)]) ∧
    (∀ acc : Access, (hostAt acc State.reset).hostTurn acc State.reset) ∧ State.reset.phase = .idle :=
  ⟨by decide, rfl, fun _ => hostTurn_at _ rfl, by simp [defaultConfig], List.mem_cons_of_mem _ List.mem_cons_self,
    fun _ => hostTurn_at _ rfl, rfl⟩

/-- The first and last words of each buffer. -/
theorem witness_BufferWordOrder :
    (message sixteen).config.capWellFormed = true ∧ (message sixteen).phase = .idle ∧
    (∀ acc : Access, (hostAt acc (message sixteen)).hostTurn acc (message sixteen)) ∧
    (∀ a ∈ ([0x1000, 0x1FFC] : List (BitVec 14)),
      a.toNat % 4 = 0 ∧ 0x1000 ≤ a.toNat ∧ a.toNat < 0x1000 + defaultConfig.msgCap) ∧
    (∀ a ∈ ([0x2000, 0x2FFC] : List (BitVec 14)),
      a.toNat % 4 = 0 ∧ 0x2000 ≤ a.toNat ∧ a.toNat < 0x2000 + defaultConfig.msgCap) ∧
    (message sixteen).mem.holds (0x1000 : BitVec 14).toNat [0, 1, 2, 3] ∧
    (⟨0x1000, 8, .read⟩ : Access).width = 8 :=
  ⟨by decide, rfl, fun _ => hostTurn_at _ rfl, by simp [defaultConfig], by simp [defaultConfig], holds_of_readBytes rfl, rfl⟩

theorem witness_OperandRegisterWrites : State.reset.phase = .idle ∧
    (∀ acc : Access, (hostAt acc State.reset).hostTurn acc State.reset) := ⟨rfl, fun _ => hostTurn_at _ rfl⟩

theorem witness_KeyWriteClearsSkvalid :
    ((hostAt (writeAt 0x020 5) State.reset).hostTurn (writeAt 0x020 5) State.reset ∧ State.reset.phase = .idle) ∧
    (∃ s t : State, s.subkeys.getLsbD 16 = true ∧ s.subkeysValid ∧ step s = .next t) :=
  ⟨⟨hostTurn_at _ rfl, rfl⟩, { State.reset with subkeys := 0x10000 }, _, by decide, fun _ => by decide, rfl⟩

theorem witness_ReadsChangeNothing :
    (hostAt (readAt 0x014) State.reset).hostTurn (readAt 0x014) State.reset ∧ (readAt 0x014).kind = .read ∧
    ∃ r, step (hostAt (readAt 0x014) State.reset) = .next r := ⟨hostTurn_at _ rfl, rfl, _, rfl⟩

theorem witness_TableCheckAtReset : State.reset.config = defaultConfig := rfl

theorem witness_StepKeepsTheInvariant : oneOut.Inv ∧ step oneOut = .next oneOut := ⟨inv_oneOut, rfl⟩

/-- A BUSY state that is to perform ECB_ENC of one byte, with its key and its byte unwritten, its byte alone, or its key
alone. -/
def unwrittenBoth : State := busy 0x010 { State.reset with lenIn := 1 }
def unwrittenOne : State := busy 0x010 { operands 0 0 0 with lenIn := 1 }
def unwrittenKey : State := busy 0x010 { message [1] with written := Written.none }

/-- A faulted state; a step that reads written data only, one that reads an unwritten byte after an unwritten key, one
after a written key, and one that reads an unwritten key and a written byte. -/
theorem witness_StepKeepsConfigAndModelFault :
    (∃ s t : State, s.modelFault ≠ none ∧ step s = .next t) ∧
    (State.reset.isWritten .din = false ∧ (operands 0 0 0).isWritten .din = true ∧ State.reset.modelFault = none) ∧
    ((hostAt (readAt 0x014) (operands 0 0 0)).modelFault = none ∧
      (hostAt (readAt 0x014) (operands 0 0 0)).stepReads = [.din] ∧
      ∀ x ∈ ([.din] : List Datum), (hostAt (readAt 0x014) (operands 0 0 0)).isWritten x = true) ∧
    (unwrittenBoth.stepReads = [] ++ .keyToy :: [.byte inBase] ∧ unwrittenBoth.isWritten .keyToy = false ∧
      unwrittenBoth.modelFault = none ∧ unwrittenBoth.mem.read inBase = none) ∧
    (unwrittenOne.stepReads = [.keyToy] ++ .byte inBase :: [] ∧ unwrittenOne.isWritten .keyToy = true ∧
      unwrittenOne.isWritten (.byte inBase) = false ∧ unwrittenOne.modelFault = none) ∧
    (unwrittenKey.stepReads = [] ++ .keyToy :: [.byte inBase] ∧ unwrittenKey.isWritten .keyToy = false ∧
      unwrittenKey.modelFault = none ∧ unwrittenKey.mem.read inBase ≠ none) :=
  ⟨⟨{ hostAt (writeAt 0x008 1) State.reset with modelFault := some (.unwrittenRead .din) }, _, by decide, rfl⟩,
    ⟨rfl, rfl, rfl⟩, ⟨rfl, rfl, by decide⟩, ⟨rfl, rfl, rfl, rfl⟩, ⟨rfl, rfl, rfl, rfl⟩, rfl, rfl, rfl, by decide⟩

/-- What R268 says of its own example: CBC_ENC.X with LEN_IN = 15 reads nothing, so an unwritten KEY_EXT is no fault. -/
theorem test_reads_none_before_length : commandReads (.cbcEnc .ext) { State.reset with lenIn := 15 } = [] := by decide

/-- R203: the scan of UNPAD_SCAN.T reads the last byte, and then the bytes before the marker. -/
theorem test_reads_unpadScan : commandReads (.unpadScan .toy) (message [1, 2, 0x80]) =
    [.byte 0x1002, .byte 0x1000, .byte 0x1001] := by decide

/-- A command that a host access accepts is performed in the second step; a BUSY block with a poll and a core turn to
come; a run that ends, and a faulted one. -/
theorem witness_EveryLatchedCommandIsPerformed :
    (∃ s t : State, s.turns.length = 1 ∧ Sys2Proof.core.run (s.turns.length + 1) s = .next t) ∧
    (∃ s : State, s.phase = .busy ∧ s.turns = [.host (readAt 0x00C), .core] ∧
      ∀ v : Word, v.getLsbD 0 = true → .host (writeAt 0x008 v) ∉ s.turns) ∧
    State.reset.runEnds State.reset ∧
    ({ State.reset with modelFault := some (.unwrittenRead .din) } : State).modelFault ≠ none := by
  refine ⟨?_, ⟨{ busy 1 State.reset with turns := [.host (readAt 0x00C), .core] }, rfl, rfl, ?_⟩,
    ⟨0, rfl, rfl, rfl, rfl⟩, by decide⟩
  · obtain ⟨t, ht⟩ := next_of_ran (i := .permIp) (s := { busy 1 State.reset with response := some .written }) (by decide)
    have h1 : Sys2Proof.core.step (hostAt (writeAt 0x010 1) State.reset) =
        .next { busy 1 State.reset with response := some .written } := rfl
    have h2 : Sys2Proof.core.step { busy 1 State.reset with response := some .written } = .next t := ht
    exact ⟨hostAt (writeAt 0x010 1) State.reset, t, rfl, (run_of_next 1 h1).trans (run_of_next 0 h2)⟩
  · intro v _ h
    simp [readAt, writeAt] at h

theorem witness_MarksOnlyRecord :
    (∃ t, exec .permIp State.reset = .next t) ∧
    exec (.ecbEnc .toy) { State.reset with lenIn := 1 } = .fault (.unwrittenRead .keyToy) :=
  ⟨next_of_ran (by decide), rfl⟩

/-- Registers written, and of the first `n` bytes of IN_BUF only the first `k`. -/
def partly (n k : Nat) : State :=
  { message (List.replicate k 1) with lenIn := BitVec.ofNat 13 n, din := BitVec.ofNat 32 n }

/-- Every register of such a state is written. -/
theorem partly_registers (n k : Nat) (x : Datum) (h : ∀ a, x ≠ .byte a) : (partly n k).isWritten x = true := by
  match x with
  | .din => rfl
  | .din2 => rfl
  | .dout => rfl
  | .keyToy => rfl
  | .ivToy => rfl
  | .keyExt 0 => rfl
  | .keyExt 1 => rfl
  | .keyExt 2 => rfl
  | .keyExt 3 => rfl
  | .ivExt 0 => rfl
  | .ivExt 1 => rfl
  | .ivExt 2 => rfl
  | .ivExt 3 => rfl
  | .byte a => exact absurd rfl (h a)

/-- A byte of the message, and a byte of the output, that nothing has written, read by a command. -/
theorem witness_CommandsStopOnlyAtUnwrittenBytes :
    exec (.pad .toy) { State.reset with lenIn := 1 } = .fault (.unwrittenRead (.byte inBase)) ∧
    exec .xfer { oneOut with lenOut := 2 } = .fault (.unwrittenRead (.byte (outBase + 1))) ∧
    commandReads (.ecbEnc .toy) { State.reset with lenIn := 1 } = [] ++ .keyToy :: [.byte inBase] ∧
    State.reset.isWritten .keyToy = false ∧ State.reset.mem.read inBase = none := ⟨rfl, rfl, rfl, rfl, rfl⟩

/-- The range clauses: the last byte of two unwritten, for UNPAD_LEN, a mode, PAD and XFER; and for UNPAD_SCAN the byte
it scans first, and a byte before its marker. -/
theorem witness_CommandsStopOnlyAtUnwrittenBytes_ranges :
    ((partly 2 1).ready .toy ∧ (partly 2 1).modelFault = none ∧
      (∀ x, (∀ a, x ≠ .byte a) → (partly 2 1).isWritten x = true) ∧
      (partly 2 1).lenIn.toNat ≤ (partly 2 1).config.msgCap ∧
      ¬lengthInvalid (partly 2 1) .unpadLen ∧ 2 = (partly 2 1).din.toNat ∧
      ¬lengthInvalid (partly 2 1) (.ctrDec .toy) ∧ Instr.isMode (.ctrDec .toy) ∧ 2 = (partly 2 1).lenIn.toNat ∧
      2 + (Prim.blockBytes .toy - 2 % Prim.blockBytes .toy) ≤ (partly 2 1).config.msgCap ∧
      (partly 2 1).mem.read (inBase + 1) = none ∧ ∀ j, j < 1 → (partly 2 1).mem.read (inBase + j) ≠ none) ∧
    (∃ s : State, s.ready .toy ∧ 1 < s.lenOut.toNat ∧ s.mem.read (outBase + 1) = none ∧
      ∀ j, j < 1 → s.mem.read (outBase + j) ≠ none) ∧
    (¬lengthInvalid (partly 2 1) (.unpadScan .toy) ∧ (partly 2 1).lenIn.toNat - Prim.blockBytes .toy = 1 ∧
      ∀ j, 1 < j → j < (partly 2 1).lenIn.toNat → (partly 2 1).mem.read (inBase + j) = some 0x00#8) ∧
    (∃ s : State, s.lenIn.toNat = 2 ∧ ¬lengthInvalid s (.unpadScan .toy) ∧ s.mem.read (inBase + 1) = some 0x80#8 ∧
      s.mem.read (inBase + 0) = none) :=
  ⟨⟨⟨by decide, nofun⟩, rfl, partly_registers 2 1, by decide, by show ¬(_ > _); decide, by decide,
      by show ¬¬_; decide, ⟨.toy, by simp⟩, by decide, by decide, by decide, by decide⟩,
    ⟨{ oneOut with lenOut := 2 }, ⟨by decide, nofun⟩, by decide, by decide, by decide⟩,
    ⟨by show ¬(_ ∨ ¬_); decide, by decide,
      fun j h1 h2 => by have : (partly 2 1).lenIn.toNat = 2 := rfl; omega⟩,
    ⟨{ State.reset with lenIn := 2, mem := [(0x1001, 0x80)] }, rfl, by show ¬(_ ∨ ¬_); decide, rfl, rfl⟩⟩

/-- The host's clauses: the third byte of the first word of IN_BUF and the last of the last word of OUT_BUF, unwritten;
and an illegal word. -/
theorem witness_CommandsStopOnlyAtUnwrittenBytes_host :
    (∃ s t : State, t.config.capWellFormed = true ∧ s.hostTurn (readAt 0x1000) t ∧
      t.mem.read (0x1000 + 2) = none ∧ ∀ j, j < 2 → t.mem.read (0x1000 + j) ≠ none) ∧
    (∃ s t : State, t.config.capWellFormed = true ∧ s.hostTurn (readAt 0x2FFC) t ∧ t.phase = .idle ∧
      t.mem.read (0x2FFC + 3) = none ∧ ∀ j, j < 3 → t.mem.read (0x2FFC + j) ≠ none) ∧
    (∃ s t : State, s.hostTurn (readAt 0x1000) t ∧ step s = .fault (.unwrittenRead (.byte 0x1002))) ∧
    ((busy 0 State.reset).coreTurn (busy 0 State.reset) ∧
      decode (busy 0 State.reset).latched = .error .noSuchCommand) :=
  ⟨⟨hostAt (readAt 0x1000) (message [1, 2]), message [1, 2], by decide, hostTurn_at _ rfl, by decide, by decide⟩,
    ⟨hostAt (readAt 0x2FFC) { State.reset with mem := Memory.writeBytes [] 0x2FFC [1, 2, 3] },
      { State.reset with mem := Memory.writeBytes [] 0x2FFC [1, 2, 3] }, by decide, hostTurn_at _ rfl, rfl, by decide,
      by decide⟩,
    ⟨hostAt (readAt 0x1000) (message [1, 2]), message [1, 2], hostTurn_at _ rfl, rfl⟩, coreTurn_busy, by decide⟩

/-- A fair execution: the core performs the command, and the host polls STATUS for ever. -/
theorem witness_FairExecutionsPerformEveryCommand :
    ∃ (state : Nat → State) (event : Nat → Turn), isExecution state event ∧ weaklyFair state event ∧
      (state 0).phase = .busy ∧ (∀ m, event m = .core ∨ event m = .host (readAt 0x00C)) ∧
      ∀ m, ∃ k, m ≤ k ∧ event k = .host (readAt 0x00C) := by
  obtain ⟨t, ht⟩ := next_of_ran (i := .permIp) (s := busy 1 State.reset) (by decide)
  have hi : t.phase = .idle := (exec_keeps ht).1
  have hp : ∀ s : State, hostAccess (readAt 0x00C) s =
      .next { s with response := some (.data (statusWord s.phase s.status)) } :=
    fun s => hostAccess_read_of (l := .status) (by decide) rfl rfl
  refine ⟨fun n => match n with
    | 0 => busy 1 State.reset
    | 1 => t
    | _ + 2 => { t with response := some (.data (statusWord t.phase t.status)) },
    fun n => match n with
    | 0 => .core
    | _ + 1 => .host (readAt 0x00C), fun n => ?_, fun n h => ?_, rfl, fun m => ?_, fun m => ⟨m + 1, by omega, rfl⟩⟩
  · match n with
    | 0 => exact ((step_withTurn_core rfl).trans (coreStep_of_decode (s := busy 1 State.reset) (i := .permIp) (by decide))).trans ht
    | 1 => exact (step_withTurn_host _ _).trans (hp t)
    | n + 2 => exact (step_withTurn_host _ _).trans (hp _)
  · have := h (n + 2) (by omega)
    exact absurd (hi.symm.trans this) (by decide)
  · cases m <;> simp

end Sys2Proof.Tests
end

section
/-! The invariant of a run, operation by operation: what each update of the state, each command and each host
access keeps of `State.Inv`. -/

namespace Sys2Proof.Machine

variable {s t : State}

/-! ## The invariant under each kind of update -/

/-- The invariant speaks of seven parts of the state only. -/
theorem State.Inv.of_same (h : s.Inv) (hmem : t.mem = s.mem := by rfl) (hlen : t.lenOut = s.lenOut := by rfl)
    (hcfg : t.config = s.config := by rfl) (hst : t.status = s.status := by rfl) (hph : t.phase = s.phase := by rfl)
    (hsub : t.subkeys = s.subkeys := by rfl) (hkey : t.keyToy = s.keyToy := by rfl) : t.Inv where
  memWf := hmem ▸ h.memWf
  memInBuffers := by rw [hmem, hcfg]; exact h.memInBuffers
  lenOutFits := by rw [hlen, hcfg]; exact h.lenOutFits
  outWritten := by rw [hlen, hmem]; exact h.outWritten
  capLegal := hcfg ▸ h.capLegal
  faultIsCheck := by rw [hst, hcfg]; exact h.faultIsCheck
  busyClear := by rw [hst, hph]; exact h.busyClear
  errDone := hst ▸ h.errDone
  errCodeLegal := hst ▸ h.errCodeLegal
  subkeysValid := by unfold State.subkeysValid; rw [hsub, hcfg, hkey]; exact h.subkeysValid

theorem State.Inv.of_noted (h : s.Inv) (ht : s.noted t) : t.Inv := by
  rw [ht.1]; exact h.of_same

/-- A STATUS update that leaves FAULT, and is legal in itself. -/
theorem State.Inv.withStatus (h : s.Inv) (p : Phase) (st : Status) (hf : st.fault = s.status.fault)
    (hb : p = .busy → st.done = false ∧ st.err = false) (hd : st.err = true → st.done = true)
    (hc : (st.err = false ↔ st.errCode = 0) ∧ st.errCode.toNat < 8) : { s with phase := p, status := st }.Inv :=
  { h with faultIsCheck := hf.trans h.faultIsCheck, busyClear := hb, errDone := hd, errCodeLegal := hc }

/-- STICKY_ERR and WERR are free (R41). -/
theorem State.Inv.withStickyWerr (h : s.Inv) (sticky werr : Bool) :
    { s with status := { s.status with stickyErr := sticky, werr := werr } }.Inv :=
  h.withStatus s.phase _ rfl h.busyClear h.errDone h.errCodeLegal

/-- Bytes stored inside one of the buffers, with an output length whose bytes are all written then. -/
theorem State.Inv.withBytesStored (h : s.Inv) {base : Nat} {bs : List Byte} {n : BitVec 13}
    (hin : (inBase ≤ base ∧ base + bs.length ≤ inBase + s.config.msgCap) ∨
      (outBase ≤ base ∧ base + bs.length ≤ outBase + s.config.msgCap))
    (hn : n.toNat ≤ s.config.msgCap)
    (hw : ∀ k, k < n.toNat → ((s.mem.writeBytes base bs).read (outBase + k)).isSome = true) :
    { s with mem := s.mem.writeBytes base bs, lenOut := n }.Inv :=
  { h with
    memWf := s.mem.writeBytes_wf _ _ h.memWf
    memInBuffers := fun c hc => by
      rcases Memory.mem_writeBytes hc with hc | hc
      · dsimp only; omega
      · exact h.memInBuffers c hc
    lenOutFits := hn
    outWritten := hw }

/-- Storing bytes unwrites none. -/
theorem Memory.isSome_read_writeBytes {m : Memory} {x : Nat} (base : Nat) (bs : List Byte)
    (h : (m.read x).isSome = true) : ((m.writeBytes base bs).read x).isSome = true := by
  rw [m.writeBytes_stored base bs x]
  split
  · rename_i hx; simp; omega
  · exact h

/-- The bounds a legal capacity has (D5). -/
theorem Config.capWellFormed_iff (c : Config) :
    c.capWellFormed = true ↔ (16 ≤ c.msgCap ∧ c.msgCap ≤ 4096) ∧ c.msgCap % 16 = 0 := by
  simp [Config.capWellFormed]

/-! ## The endings of a command -/

theorem State.Inv.ok (h : s.Inv) : s.ok.Inv := h.withStatus _ _ rfl nofun nofun (by simp [Status.succeeded])

theorem State.Inv.raise (h : s.Inv) (e : ErrorKind) : (s.raise e).Inv :=
  h.withStatus _ _ rfl nofun (fun _ => rfl) (by cases e <;> simp [Status.failed, ErrorKind.code])

theorem State.Inv.setDout (h : s.Inv) {w : Nat} (v : BitVec w) : (s.setDout v).Inv := h.of_same

theorem State.Inv.answered (h : s.Inv) (v : Word) : (s.answered v).Inv := (h.setDout v).ok.of_same

/-- KEYSCHED makes SUBKEYS valid (R173, R174). -/
theorem State.Inv.setSubkeys (h : s.Inv) : (s.setSubkeys (Machine.ks s.config.ks s.keyToy)).Inv :=
  { h with
    subkeysValid := fun _ => by
      rw [State.setSubkeys_subkeys, BitVec.append_assoc]
      exact BitVec.extractLsb'_append_eq_right }

/-- An output that fits fills OUT_BUF below LEN_OUT (R87, R204). -/
theorem State.Inv.emit (h : s.Inv) {out : List Byte} (hl : out.length ≤ s.config.msgCap) : (s.emit out).Inv := by
  have hcap := (Config.capWellFormed_iff _).1 h.capLegal
  have hn : (BitVec.ofNat 13 out.length).toNat = out.length := by simp; omega
  refine h.withBytesStored (.inr ⟨Nat.le_refl _, by omega⟩) (by omega) fun k hk => ?_
  have hk : k < out.length := hn ▸ hk
  rw [Memory.stored_holds (s.mem.writeBytes_stored outBase out) k hk]; rfl

theorem State.Inv.load (h : s.Inv) {m : List Byte} (n : BitVec 13) (hl : m.length = s.lenOut.toNat) :
    (s.load m n).Inv := by
  have hin := h.lenOutFits
  have hm := h.withBytesStored (bs := m) (.inl ⟨Nat.le_refl _, by omega⟩) hin
    fun k hk => Memory.isSome_read_writeBytes _ _ (h.outWritten k hk)
  exact hm.of_same

/-! ## The core's step -/

theorem exec_keeps_inv {i : Instr} (h : s.Inv) (ht : exec i s = .next t) : t.Inv := by
  cases exec_next ht with
  | failed u e hu _ => exact (h.of_noted hu).raise e
  | answered u v hu _ _ => exact (h.of_noted hu).answered v
  | scheduled u hu _ =>
    have hs := (h.of_noted hu).setSubkeys
    rw [show u.config = s.config by rw [hu.1], show u.keyToy = s.keyToy by rw [hu.1]] at hs
    exact hs.answered _
  | emitted u out hu _ hl _ =>
    exact ((h.of_noted hu).emit (by rwa [show u.config = s.config by rw [hu.1]])).ok
  | loaded m _ hl _ => exact (h.load _ hl).ok

theorem coreStep_keeps_inv (h : s.Inv) (ht : coreStep s = .next t) : t.Inv := by
  cases hd : decode s.latched with
  | error e =>
    rw [coreStep_of_illegal hd] at ht
    rcases illegalCommand_cases s with ⟨_, h'⟩ | ⟨_, h'⟩ <;> rw [h'] at ht <;> cases ht <;> exact h.raise _
  | ok i => rw [coreStep_of_decode hd] at ht; exact exec_keeps_inv h ht

/-! ## Host accesses -/

/-- A reset keeps the invariant where the capacity is legal (R291 to R293). -/
theorem State.resetFor_inv {c : Config} (hc : c.capWellFormed = true) : (State.resetFor c).Inv where
  memWf := .nil
  memInBuffers := nofun
  lenOutFits := Nat.zero_le _
  outWritten := nofun
  capLegal := hc
  faultIsCheck := rfl
  busyClear := nofun
  errDone := nofun
  errCodeLegal := by simp [State.resetFor]
  subkeysValid := fun hv => by simp [State.resetFor] at hv

theorem State.Inv.softReset (h : s.Inv) : s.softReset.Inv := (State.resetFor_inv h.capLegal).of_same

theorem State.Inv.acceptCommand (h : s.Inv) (w : Word) : (s.acceptCommand w).Inv :=
  (h.withStatus .busy s.status.accepted rfl (fun _ => ⟨rfl, rfl⟩) nofun (by simp [Status.accepted])).of_same

/-- A KEY_TOY write clears SKVALID (R174). -/
theorem State.Inv.withKeyToy (h : s.Inv) (k : ToyKey) :
    { s with keyToy := k, subkeys := 0#1 ++ s.subkeys.extractLsb' 0 16 }.Inv :=
  { h with subkeysValid := fun hv => by rw [BitVec.getLsbD_append] at hv; cases hv }

/-- An aligned word of IN_BUF lies within it. -/
theorem State.Inv.storeInBuf (h : s.Inv) {a i : Nat} (ha : a % 4 = 0) (hl : locate s.config.msgCap a = .inBuf i)
    (v : Word) : { s with mem := s.mem.writeBytes (inBase + i) (toBytes v) }.Inv := by
  obtain ⟨h1, h2, hi⟩ := locate_eq_inBuf hl
  have hcap := (Config.capWellFormed_iff _).1 h.capLegal
  have hlen : (toBytes v).length = 4 := by simp
  have hin : inBase ≤ inBase + i ∧ inBase + i + (toBytes v).length ≤ inBase + s.config.msgCap := by
    simp only [inBase] at *; omega
  have hm := h.withBytesStored (.inl hin) h.lenOutFits
    fun k hk => Memory.isSome_read_writeBytes _ _ (h.outWritten k hk)
  exact hm

theorem writeIdle_keeps_inv (h : s.Inv) {a : Nat} (ha : a % 4 = 0) (v : Word) :
    (writeIdle (locate s.config.msgCap a) v s).Inv := by
  cases hl : locate s.config.msgCap a with
  | cmd => exact h.acceptCommand v
  | keyToy => exact (h.withKeyToy _).of_same
  | inBuf i => exact h.storeInBuf ha hl v
  | _ => exact h.of_same

theorem hostWrite_keeps_inv (h : s.Inv) {a : Nat} (ha : a % 4 = 0) (v : Word) :
    (hostWrite (locate s.config.msgCap a) v s).Inv := by
  unfold hostWrite
  split
  · split
    · exact h.softReset
    · exact h
  · split
    · exact h.withStickyWerr _ _
    · split
      · exact h.withStickyWerr _ _
      · exact writeIdle_keeps_inv h ha v

theorem Access.aligned_of_wellFormed {a : Access} (h : a.wellFormed = true) : a.addr.toNat % 4 = 0 := by
  simpa using (Bool.and_eq_true_iff.1 h).2

theorem hostAccess_keeps_inv {a : Access} (h : s.Inv) (ht : hostAccess a s = .next t) : t.Inv := by
  rcases hostAccess_next ht with rfl | ⟨_, _, v, u, hr, rfl⟩ | ⟨hw, v, _, rfl⟩
  · exact h.of_same
  · rcases hostRead_ok hr with hu | rfl
    · exact (h.of_noted hu).of_same
    · exact h.of_same
  · exact (hostWrite_keeps_inv h (Access.aligned_of_wellFormed hw) v).of_same

/-- A turn taken leaves the invariant as it is. -/
theorem State.Inv.of_coreTurn (h : s.Inv) (ht : s.coreTurn t) : t.Inv := by
  obtain ⟨_, ⟨_, rfl⟩ | ⟨rest, _, rfl⟩⟩ := ht
  · exact h
  · exact h.of_same

theorem State.Inv.of_hostTurn (h : s.Inv) {a : Access} (ht : s.hostTurn a t) : t.Inv := by
  obtain ⟨rest, _, rfl⟩ := ht
  exact h.of_same

end Sys2Proof.Machine

open Sys2Proof Sys2Proof.Machine

/-- Settles O54: the core's step, a host access and a rest each keep the invariant. -/
theorem stepKeepsTheInvariant : Obligations.StepKeepsTheInvariant := by
  intro s t h ht
  rcases step_cases s with ⟨u, hu, hs⟩ | ⟨a, u, hu, hs⟩ | ⟨_, rest, hs⟩ <;> rw [hs] at ht
  · exact coreStep_keeps_inv (h.of_coreTurn hu) ht
  · exact hostAccess_keeps_inv (h.of_hostTurn hu) ht
  · cases ht; exact h.of_same

end

section
/-! Every command, host access and step reads exactly the data Sys2Proof/Machine/Reads.lean lists for it: the
operations' lemmas put together. -/

namespace Sys2Proof.Machine

variable {s t : State}

/-! ## Commands -/

/-- The state after the reads of DIN and of a second register. -/
theorem State.afterReads_din_then (s : State) (x : Datum) (hx : ∀ b, x ≠ .byte b := by nofun) :
    s.afterReads [.din, x] ((s.noteRead .din).noteRead x) :=
  State.afterReads_noteRead (State.afterReads_noteRead s.afterReads_nil .din) x hx

/-- A component command whose one operand is DIN. -/
theorem ReadsExactly.dinCommand {n w : Nat} {f : BitVec n → State → BitVec w} :
    ReadsExactly s (checkedReads .toy s [.din])
      (Machine.command .toy s fun s => Machine.withDin n s fun x s => (s.setDout (f x s)).succeed) :=
  .command fun _ => .withDin (fun _ => rfl) fun _ =>
    .of_after (State.afterReads_noteRead s.afterReads_nil .din) rfl

/-- TOY_ENC and TOY_DEC read KEY_TOY where DIN fits (R182, R183). -/
theorem ReadsExactly.toyCommand {f : Block → State → Block} :
    ReadsExactly s (toyReads s) (Machine.command .toy s fun s => Machine.withDin 8 s fun x s =>
      ((s.noteRead .keyToy).setDout (f x (s.noteRead .keyToy))).succeed) :=
  .command fun _ => .withDin (fun h => if_neg h) fun h => by
    rw [if_pos h]; exact .of_after (s.afterReads_din_then .keyToy) rfl

theorem ReadsExactly.roundF : ReadsExactly s (commandReads .roundF s) (exec .roundF s) := by
  rw [exec_roundF]
  refine .command fun _ => ?_
  rcases withDinDin2_cases 4 8 s fun h k s => (s.setDout (Machine.roundF s.config.tbl h k)).succeed
    with ⟨_, h⟩ | ⟨_, _, h⟩ <;> rw [h] <;> exact .of_after (s.afterReads_din_then .din2) rfl

/-- The copy at the end of a padding command reads the bytes it copies. -/
theorem ReadsExactly.copyOut {base n : Nat} {f : List Byte → List Byte} :
    ReadsExactly s (bytesFrom base n) (Machine.withBytes base n s fun m => (s.emit (f m)).succeed) :=
  .withBytes_only fun _ => ⟨_, rfl, rfl⟩

theorem ReadsExactly.pad {p : Prim} : ReadsExactly s (commandReads (.pad p) s) (exec (.pad p) s) := by
  rw [exec_pad]
  refine .withLength fun _ => ?_
  split
  · exact .of_none rfl
  · exact .copyOut

theorem ReadsExactly.unpadLen : ReadsExactly s (commandReads .unpadLen s) (exec .unpadLen s) := by
  have hn := State.afterReads_noteRead s.afterReads_nil .din
  rw [exec_unpadLen]
  refine .withLength fun _ => ?_
  rw [State.noteRead_din]
  split
  · exact .of_after hn rfl
  · exact .withBytes hn fun _ => ⟨_, rfl, rfl⟩

/-- How UNPAD_SCAN goes on from what the scan of the block at offset `n` answers (R203). -/
def scanOutcome (s : State) (n : Nat) : Except Nat (Option Nat) → Result
  | .error a => .fault (s.unwrittenByte a)
  | .ok none => s.fail .ambiguousPaddingRemoval
  | .ok (some k) => Machine.withBytes inBase (n + k) s fun m => (s.emit m).succeed

theorem ReadsExactly.scan (s : State) (n : Nat) : ∀ k,
    ReadsExactly s (scanReads s.mem (inBase + n) k) (scanOutcome s n (scanMarker s.mem (inBase + n) k))
  | 0 => .of_none rfl
  | k + 1 => by
    unfold scanReads scanMarker
    cases hr : s.mem.read (inBase + n + k) with
    | none =>
      refine ⟨inBase + n + k, .byte (inBase + n + k), List.mem_cons_self, hr, ?_, rfl⟩
      simp [State.firstUnwritten, State.isWritten_byte, hr]
    | some b =>
      refine .cons_written hr ?_
      dsimp only
      simp only [Option.some.injEq]
      split
      · exact .scan s n k
      · split
        · rw [show inBase + n + k - inBase = n + k by omega]; exact .copyOut
        · exact .of_none rfl

theorem ReadsExactly.unpadScan {p : Prim} : ReadsExactly s (commandReads (.unpadScan p) s) (exec (.unpadScan p) s) := by
  rw [exec_unpadScan]
  refine .withLength fun _ => ?_
  split
  · exact .of_none rfl
  · exact .scan s _ _

theorem ReadsExactly.keysched : ReadsExactly s (commandReads .keysched s) (exec .keysched s) := by
  rw [exec_keysched]
  refine .command fun _ => ?_
  exact .of_after (State.afterReads_noteRead s.afterReads_nil .keyToy) rfl

theorem ReadsExactly.xfer : ReadsExactly s (commandReads .xfer s) (exec .xfer s) := by
  rw [exec_xfer]
  refine .command fun _ => ?_
  exact .withBytes_only fun _ => ⟨_, rfl, rfl⟩

theorem ReadsExactly.blockMode {p : Prim} {usesIv : Bool}
    {f : (w : Nat) → Engine w → List (BitVec w) → List (BitVec w)} :
    ReadsExactly s (modeReads p (Prim.blockBytes p) (if usesIv then ivData p else []) s)
      (Machine.blockMode p usesIv f s) := .modeCommand

theorem ReadsExactly.segmentMode {p : Prim} {f : (w k : Nat) → Engine w → List (BitVec k) → List (BitVec k)} :
    ReadsExactly s (modeReads p (Prim.segmentUnit p) (ivData p) s) (Machine.segmentMode p f s) :=
  .modeCommand (u := true)

/-- A command reads the data of `commandReads`, in order. -/
theorem exec_readsExactly (i : Instr) (s : State) : ReadsExactly s (commandReads i s) (exec i s) := by
  cases i with
  | permIp => rw [exec_permIp]; exact .dinCommand
  | permIpinv => rw [exec_permIpinv]; exact .dinCommand
  | permEp => rw [exec_permEp]; exact .dinCommand
  | permP4 => rw [exec_permP4]; exact .dinCommand
  | sbox0 => rw [exec_sbox0]; exact .dinCommand
  | sbox1 => rw [exec_sbox1]; exact .dinCommand
  | roundF => exact .roundF
  | keysched => exact .keysched
  | toyEnc => rw [exec_toyEnc]; exact .toyCommand (f := fun x s => toyEncrypt s.config s.keyToy x)
  | toyDec => rw [exec_toyDec]; exact .toyCommand (f := fun x s => toyDecrypt s.config s.keyToy x)
  | pad p => exact .pad
  | unpadLen => exact .unpadLen
  | unpadScan p => exact .unpadScan
  | xfer => exact .xfer
  | ecbEnc p => rw [exec_ecbEnc]; exact .blockMode (usesIv := false)
  | ecbDec p => rw [exec_ecbDec]; exact .blockMode (usesIv := false)
  | cbcEnc p => rw [exec_cbcEnc]; exact .blockMode (usesIv := true)
  | cbcDec p => rw [exec_cbcDec]; exact .blockMode (usesIv := true)
  | cfbEnc p => rw [exec_cfbEnc]; exact .segmentMode
  | cfbDec p => rw [exec_cfbDec]; exact .segmentMode
  | ctrEnc p => rw [exec_ctrEnc]; exact .blockMode (usesIv := true)
  | ctrDec p => rw [exec_ctrDec]; exact .blockMode (usesIv := true)

/-! ## Host accesses -/

/-- The outcome of a host read, without what the host port answers. -/
def readOutcome : Except Fault (Word × State) → Result
  | .error f => .fault f
  | .ok (_, u) => .next u

theorem readWord_readsExactly (s : State) (a : Nat) :
    ReadsExactly s (bytesFrom a 4) (readOutcome ((readWord s a).map fun v => (v, s))) := by
  have h : readOutcome ((readWord s a).map fun v => (v, s)) = withBytes a 4 s fun _ => .next s := by
    unfold readWord withBytes
    cases s.mem.readBytes a 4 <;> rfl
  rw [h]
  exact .withBytes_only fun _ => ⟨_, rfl, rfl⟩

/-- A result read while BUSY answers a free value and reads nothing (R81). -/
theorem ReadsExactly.unlessBusy {l : List Datum} {x : Except Fault (Word × State)}
    (h : ReadsExactly s l (readOutcome x)) :
    ReadsExactly s (if s.phase = .busy then [] else l)
      (readOutcome (if s.phase = .busy then .ok s.draw else x)) := by
  split
  · exact .of_none rfl
  · exact h

/-- A host read reads the data of `locReads`, in order. -/
theorem hostRead_readsExactly (l : Loc) (s : State) : ReadsExactly s (locReads l s) (readOutcome (hostRead l s)) := by
  have hreg : ∀ x : Datum, (∀ b, x ≠ .byte b) → ReadsExactly s [x] (.next (s.noteRead x)) := fun x hx =>
    .of_after (State.afterReads_noteRead s.afterReads_nil x hx) rfl
  cases l with
  | din => exact hreg _ nofun
  | din2 => exact hreg _ nofun
  | keyToy => exact hreg _ nofun
  | ivToy => exact hreg _ nofun
  | keyExt j => exact hreg _ nofun
  | ivExt j => exact hreg _ nofun
  | dout => exact .unlessBusy (hreg _ nofun)
  | subkeys => simp only [hostRead]; split <;> exact .of_none rfl
  | lenOut => simp only [hostRead]; split <;> exact .of_none rfl
  | inBuf i => exact readWord_readsExactly s _
  | outBuf i => exact .unlessBusy (readWord_readsExactly s _)
  | _ => exact .of_none rfl

/-- A host write reads nothing. -/
theorem hostWrite_modelFault (l : Loc) (v : Word) (s : State) : (hostWrite l v s).modelFault = s.modelFault := by
  unfold hostWrite
  split
  · split <;> rfl
  · split
    · rfl
    · split
      · rfl
      · cases l <;> rfl

theorem hostAccess_readsExactly (a : Access) (s : State) : ReadsExactly s (accessReads a s) (hostAccess a s) := by
  unfold accessReads hostAccess
  by_cases hw : a.width ≠ 32 ∨ a.addr.extractLsb' 0 2 ≠ 0
  · rw [if_pos hw, if_neg (by tauto)]; exact .of_none rfl
  · rw [if_neg hw]
    cases hk : a.kind with
    | write v => rw [if_neg (by simp)]; exact .of_none (hostWrite_modelFault _ _ _)
    | read =>
      rw [if_pos (by simpa using hw)]
      have h := hostRead_readsExactly (locate s.config.msgCap a.addr.toNat) s
      cases hr : hostRead (locate s.config.msgCap a.addr.toNat) s with
      | error f => rw [hr] at h; exact h
      | ok x => rw [hr] at h; exact h

/-! ## The step -/

theorem illegalCommand_readsExactly (s : State) : ReadsExactly s [] (illegalCommand s) := by
  rcases illegalCommand_cases s with ⟨_, h⟩ | ⟨_, h⟩ <;> rw [h] <;> exact .of_none rfl

theorem State.isWritten_withTurns (s : State) (ts : List Turn) :
    State.isWritten { s with turns := ts } = s.isWritten := by
  funext x; cases x <;> rfl

/-- The turns to come change nothing in what is read. -/
theorem ReadsExactly.of_turns {ts : List Turn} {l : List Datum} {r : Result}
    (h : ReadsExactly { s with turns := ts } l r) : ReadsExactly s l r := by
  unfold ReadsExactly State.firstUnwritten at *
  rw [s.isWritten_withTurns] at h
  exact h

theorem State.records.of_turns {ts : List Turn} (h : State.records { s with turns := ts } t) : s.records t := by
  unfold State.records at *
  rw [s.isWritten_withTurns] at h
  exact h

theorem State.nextMove_snd (s : State) : ∃ ts, s.nextMove.2 = { s with turns := ts } := by
  unfold State.nextMove
  split <;> exact ⟨_, rfl⟩

/-- A step reads the data of `stepReads`, in order. -/
theorem step_readsExactly (s : State) : ReadsExactly s s.stepReads (step s) := by
  obtain ⟨ts, hts⟩ := s.nextMove_snd
  unfold step State.stepReads
  rcases hm : s.nextMove with ⟨move, u⟩
  rw [hm] at hts
  obtain rfl : u = { s with turns := ts } := hts
  cases move with
  | core =>
    refine .of_turns (ts := ts) ?_
    unfold coreStep
    dsimp only
    cases State.fetch { s with turns := ts } with
    | error e => exact illegalCommand_readsExactly _
    | ok i => exact exec_readsExactly i _
  | host a => exact (hostAccess_readsExactly _ _).of_turns
  | rest => exact .of_none rfl

/-- A step that reads no unwritten datum goes on and records nothing. -/
theorem step_of_reads_written (hf : s.modelFault = none) (hw : ∀ x ∈ s.stepReads, s.isWritten x = true) :
    ∃ t, step s = .next t ∧ t.modelFault = none := by
  have h := step_readsExactly s
  rw [ReadsExactly.eq_def, State.firstUnwritten_eq_none.2 hw, hf] at h
  cases hs : step s with
  | next t => rw [hs] at h; exact ⟨t, rfl, h.2⟩
  | fault e => rw [hs] at h; obtain ⟨_, _, _, _, hx, _⟩ := h; cases hx
  | refused r => rw [hs] at h; exact h.elim

/-- A step that reads an unwritten datum stops at the first of them, where one is a byte, or records it. -/
theorem step_of_reads_unwritten {x : Datum} (hf : s.modelFault = none) (hx : s.firstUnwritten s.stepReads = some x) :
    ((∃ a, .byte a ∈ s.stepReads ∧ s.mem.read a = none) ∧ step s = .fault (.unwrittenRead x)) ∨
    ((∀ a, .byte a ∈ s.stepReads → s.mem.read a ≠ none) ∧
      ∃ t, step s = .next t ∧ t.modelFault = some (.unwrittenRead x)) := by
  have h := step_readsExactly s
  rw [ReadsExactly.eq_def, hx, hf] at h
  cases hs : step s with
  | next t => rw [hs] at h; exact .inr ⟨h.1, t, rfl, h.2⟩
  | fault e =>
    rw [hs] at h
    obtain ⟨a, y, ha, hn, hy, he⟩ := h
    cases hy
    exact .inl ⟨⟨a, ha, hn⟩, by rw [he]; rfl⟩
  | refused r => rw [hs] at h; exact h.elim

/-- A step keeps the configuration and a recorded model fault, and counts no draw down. -/
theorem step_keeps (h : step s = .next t) : t.config = s.config ∧ s.draws ≤ t.draws ∧ s.records t := by
  rcases step_cases s with ⟨u, ⟨_, ⟨_, rfl⟩ | ⟨_, _, rfl⟩⟩, hs⟩ | ⟨a, u, ⟨_, _, rfl⟩, hs⟩ | ⟨_, _, hs⟩ <;>
    rw [hs] at h
  · obtain ⟨_, _, hc, hd, hr⟩ := coreStep_keeps h; exact ⟨hc, hd.ge, hr⟩
  · obtain ⟨_, _, hc, hd, hr⟩ := coreStep_keeps h; exact ⟨hc, hd.ge, State.records.of_turns hr⟩
  · obtain ⟨_, hc, hd, hr⟩ := hostAccess_keeps h; exact ⟨hc, hd, State.records.of_turns hr⟩
  · cases h; exact ⟨rfl, Nat.le_refl _, State.records_of_eq rfl⟩

end Sys2Proof.Machine
end

section
/-! What R268 has a model do at an unwritten read, from what a step reads. -/

namespace Sys2Proof.Machine

variable {s : State}

/-- The mark of a buffer byte is its entry (R56). -/
theorem State.isWritten_byte_iff (s : State) (a : Nat) : s.isWritten (.byte a) = true ↔ s.mem.read a ≠ none :=
  Option.ne_none_iff_isSome.symm

/-- A read noted while a fault is recorded, or of a written datum, does nothing (R268). -/
theorem State.noteRead_of_written_or_faulted {x : Datum} (h : s.isWritten x = true ∨ s.modelFault ≠ none) :
    s.noteRead x = s := by
  rcases h with h | h
  · exact s.noteRead_of_written x h
  · obtain ⟨f, hf⟩ := Option.ne_none_iff_exists'.1 h
    exact s.noteRead_keeps x f hf

/-- The first unwritten read is recorded, and nothing else is written (R268). -/
theorem State.noteRead_of_first {x : Datum} (h : s.isWritten x = false) (hf : s.modelFault = none) :
    s.noteRead x = { s with modelFault := some (.unwrittenRead x) } := by
  rw [s.noteRead_eq, s.noteRead_of_unwritten x h hf]

/-- A model's step that reads no unwritten datum is the machine's. -/
theorem modelStep_of_reads_written (hf : s.modelFault = none) (hw : ∀ x ∈ s.stepReads, s.isWritten x = true) :
    step s = .next (modelStep s) ∧ (modelStep s).modelFault = none := by
  obtain ⟨t, ht, hm⟩ := step_of_reads_written hf hw
  rw [modelStep_of_next hf ht hm]
  exact ⟨ht, hm⟩

/-- A model's step that reads an unwritten datum records the first of them and writes nothing else. -/
theorem modelStep_of_reads_unwritten {x : Datum} (hf : s.modelFault = none)
    (hx : s.firstUnwritten s.stepReads = some x) :
    modelStep s = { s with modelFault := some (.unwrittenRead x) } := by
  rcases step_of_reads_unwritten hf hx with ⟨_, hs⟩ | ⟨_, t, hs, ht⟩
  · exact modelStep_of_fault hf hs
  · exact modelStep_of_recorded hf hs ht

end Sys2Proof.Machine

open Sys2Proof Sys2Proof.Machine

/-- Settles O56: `step_keeps` for the frame, and for R268 that a step reads exactly the data of `stepReads`. -/
theorem stepKeepsConfigAndModelFault : Obligations.StepKeepsConfigAndModelFault := by
  refine ⟨fun s t h => ?_, fun s => ?_, fun s x => ?_, fun s => ⟨rfl, rfl, rfl, rfl⟩,
    fun s => modelStep_of_faulted, fun s => modelStep_of_reads_written, fun s l r x hf hs hl hx => ?_⟩
  · obtain ⟨hc, hd, hr, _⟩ := step_keeps h
    exact ⟨hc, hr, hd⟩
  · exact ⟨rfl, rfl, rfl, rfl, rfl, rfl, rfl, rfl, rfl, rfl, rfl, rfl, rfl, s.isWritten_byte_iff⟩
  · exact ⟨State.noteRead_of_first, State.noteRead_of_written_or_faulted⟩
  · have hfirst : s.firstUnwritten s.stepReads = some x := hs ▸ State.firstUnwritten_of_split hl hx
    refine ⟨modelStep_of_reads_unwritten hf hfirst, fun ⟨a, ha, hn⟩ => ?_, fun hb => ?_⟩ <;>
      rcases step_of_reads_unwritten hf hfirst with ⟨⟨b, hb', hn'⟩, hstep⟩ | ⟨hall, hstep⟩
    · exact hstep
    · exact absurd hn (hall a ha)
    · exact absurd hn' (hb b hb')
    · exact hstep

end

section
/-! The written marks and the model fault are bookkeeping: two states that differ in them alone give results
that differ in them alone, operation by operation. -/

namespace Sys2Proof.Machine

variable {s s' : State}

/-- `s` and `s'` differ at most in the written marks and the recorded model fault. -/
def State.sameData (s s' : State) : Prop := ∃ w f, s' = { s with written := w, modelFault := f }

/-- Two results are of one kind, and their states, where they have one, differ in the marks and the fault alone. -/
inductive SameResult : Result → Result → Prop where
  | next {t t' : State} (h : t.sameData t') : SameResult (.next t) (.next t')
  | fault (e e' : Fault) : SameResult (.fault e) (.fault e')

theorem SameResult.of_next {t : State} {r : Result} (h : SameResult (.next t) r) :
    ∃ t', r = .next t' ∧ t.sameData t' := by
  cases h with
  | next h => exact ⟨_, rfl, h⟩

theorem SameResult.of_fault {e : Fault} {r : Result} (h : SameResult (.fault e) r) : ∃ e', r = .fault e' := by
  cases h with
  | fault _ e' => exact ⟨e', rfl⟩

theorem State.sameData_marks (s : State) (w : Written) (f : Option Fault) :
    s.sameData { s with written := w, modelFault := f } := ⟨w, f, rfl⟩

/-- What does not depend on the marks and the fault is the same of both states. -/
theorem State.sameData.congr {α : Sort*} (F : State → α) (h : s.sameData s')
    (hF : ∀ s w f, F { s with written := w, modelFault := f } = F s := by intros; rfl) : F s' = F s := by
  obtain ⟨w, f, rfl⟩ := h
  exact hF s w f

/-! ## Reads noted -/

theorem State.sameData.of_noted {u u' : State} (h : s.sameData s') (hu : s.noted u) (hu' : s'.noted u') :
    u.sameData u' := by
  obtain ⟨w, f, rfl⟩ := h
  rw [hu.1, hu'.1]
  exact ⟨_, _, rfl⟩

theorem State.sameData.noteRead (h : s.sameData s') (x : Datum) (hx : ∀ b, x ≠ .byte b := by nofun) :
    (s.noteRead x).sameData (s'.noteRead x) := h.of_noted (s.noted_noteRead x hx) (s'.noted_noteRead x hx)

theorem State.sameData.noteInputs (h : s.sameData s') (p : Prim) (usesIv : Bool) :
    (s.noteInputs p usesIv).sameData (s'.noteInputs p usesIv) :=
  h.of_noted (s.noted_noteInputs p usesIv) (s'.noted_noteInputs p usesIv)

/-! ## The endings of a command -/

theorem State.sameData.fail (h : s.sameData s') (e : ErrorKind) : SameResult (s.fail e) (s'.fail e) := by
  obtain ⟨w, f, rfl⟩ := h
  exact .next ⟨_, _, rfl⟩

theorem State.sameData.answer (h : s.sameData s') {w : Nat} (v : BitVec w) :
    SameResult (s.setDout v).succeed (s'.setDout v).succeed := by
  obtain ⟨w, f, rfl⟩ := h
  exact .next ⟨_, _, rfl⟩

theorem State.sameData.emit (h : s.sameData s') (out : List Byte) :
    SameResult (s.emit out).succeed (s'.emit out).succeed := by
  obtain ⟨w, f, rfl⟩ := h
  exact .next ⟨_, _, rfl⟩

/-! ## The shared operations -/

theorem SameResult.command {p : Prim} {body : State → Result} (h : s.sameData s')
    (hb : SameResult (body s) (body s')) : SameResult (command p s body) (command p s' body) := by
  unfold Machine.command
  rw [h.congr State.status, h.congr State.config]
  split
  · exact h.fail _
  · split
    · exact h.fail _
    · exact hb

theorem SameResult.withDin {n : Nat} {body : BitVec n → State → Result} (h : s.sameData s')
    (hb : ∀ x, SameResult (body x (s.noteRead .din)) (body x (s'.noteRead .din))) :
    SameResult (withDin n s body) (withDin n s' body) := by
  unfold Machine.withDin
  simp only [State.noteRead_din, h.congr State.din]
  split
  · exact (h.noteRead _).fail _
  · exact hb _

theorem SameResult.withLength {body : Nat → State → Result} (h : s.sameData s')
    (hb : ∀ n, SameResult (body n s) (body n s')) : SameResult (withLength s body) (withLength s' body) := by
  unfold Machine.withLength
  rw [h.congr State.lenIn, h.congr State.config]
  split
  · exact h.fail _
  · exact hb _

theorem SameResult.withBytes {base n : Nat} {body body' : List Byte → Result} (h : s.sameData s')
    (hb : ∀ m, SameResult (body m) (body' m)) : SameResult (withBytes base n s body) (withBytes base n s' body') := by
  unfold Machine.withBytes
  rw [h.congr State.mem]
  split
  · exact .fault _ _
  · exact hb _

/-! ## Commands -/

/-- A component command whose one operand is DIN and whose result the configuration determines. -/
theorem SameResult.dinCommand {n w : Nat} {f : BitVec n → Config → BitVec w} (h : s.sameData s') :
    SameResult (Machine.command .toy s fun s => Machine.withDin n s fun x s => (s.setDout (f x s.config)).succeed)
      (Machine.command .toy s' fun s => Machine.withDin n s fun x s => (s.setDout (f x s.config)).succeed) := by
  refine .command h (.withDin h fun x => ?_)
  rw [(h.noteRead .din).congr State.config]
  exact (h.noteRead .din).answer _

/-- TOY_ENC and TOY_DEC: the result depends on DIN, KEY_TOY and the configuration. -/
theorem SameResult.toyCommand {f : Block → Config → ToyKey → Block} (h : s.sameData s') :
    SameResult (Machine.command .toy s fun s => Machine.withDin 8 s fun x s =>
        ((s.noteRead .keyToy).setDout (f x (s.noteRead .keyToy).config (s.noteRead .keyToy).keyToy)).succeed)
      (Machine.command .toy s' fun s => Machine.withDin 8 s fun x s =>
        ((s.noteRead .keyToy).setDout (f x (s.noteRead .keyToy).config (s.noteRead .keyToy).keyToy)).succeed) := by
  refine .command h (.withDin h fun x => ?_)
  have hk := (h.noteRead .din).noteRead .keyToy
  rw [hk.congr State.config, hk.congr State.keyToy]
  exact hk.answer _

theorem SameResult.roundF (h : s.sameData s') : SameResult (exec .roundF s) (exec .roundF s') := by
  have hu := (h.noteRead .din).noteRead .din2
  rw [exec_roundF, exec_roundF]
  refine .command h ?_
  unfold withDinDin2
  dsimp only
  rw [hu.congr State.din, hu.congr State.din2]
  split
  · rw [hu.congr State.config]; exact hu.answer _
  · exact hu.fail _

theorem SameResult.keysched (h : s.sameData s') : SameResult (exec .keysched s) (exec .keysched s') := by
  have hu := h.noteRead .keyToy
  rw [exec_keysched, exec_keysched]
  refine .command h ?_
  rw [hu.congr State.config, hu.congr State.keyToy]
  obtain ⟨w, f, hw⟩ := hu
  rw [hw]
  exact .next ⟨_, _, rfl⟩

theorem SameResult.pad {p : Prim} (h : s.sameData s') : SameResult (exec (.pad p) s) (exec (.pad p) s') := by
  rw [exec_pad, exec_pad]
  refine .command h (.withLength h fun n => ?_)
  rw [h.congr State.config]
  split
  · exact h.fail _
  · exact .withBytes h fun m => h.emit _

theorem SameResult.unpadLen (h : s.sameData s') : SameResult (exec .unpadLen s) (exec .unpadLen s') := by
  have hu := h.noteRead .din
  rw [exec_unpadLen, exec_unpadLen]
  refine .command h (.withLength h fun n => ?_)
  rw [hu.congr State.din]
  split
  · exact hu.fail _
  · exact .withBytes hu fun m => hu.emit _

theorem SameResult.unpadScan {p : Prim} (h : s.sameData s') :
    SameResult (exec (.unpadScan p) s) (exec (.unpadScan p) s') := by
  rw [exec_unpadScan, exec_unpadScan]
  refine .command h (.withLength h fun n => ?_)
  rw [h.congr State.mem]
  split
  · exact h.fail _
  · split
    · exact .fault _ _
    · exact h.fail _
    · exact .withBytes h fun m => h.emit _

theorem SameResult.xfer (h : s.sameData s') : SameResult (exec .xfer s) (exec .xfer s') := by
  rw [exec_xfer, exec_xfer]
  refine .command h ?_
  rw [h.congr State.lenOut]
  refine .withBytes h fun m => ?_
  obtain ⟨w, f, rfl⟩ := h
  exact .next ⟨_, _, rfl⟩

/-- A mode command over the state with its inputs noted. -/
theorem modeCommand_eq {p : Prim} {n : Nat} {usesIv : Bool} {toy : Engine 8 → List Byte → List Byte}
    {ext : Engine 128 → List Byte → List Byte} :
    modeCommand p n usesIv toy ext s = command p s fun s => withLength s fun k s =>
      if k % n ≠ 0 then s.fail .invalidInputLength
      else withBytes inBase k (s.noteInputs p usesIv) fun m =>
        ((s.noteInputs p usesIv).emit (modeOut p toy ext (s.noteInputs p usesIv) m)).succeed := by
  cases p <;> rfl

theorem SameResult.modeCommand {p : Prim} {n : Nat} {usesIv : Bool} {toy : Engine 8 → List Byte → List Byte}
    {ext : Engine 128 → List Byte → List Byte} (h : s.sameData s') :
    SameResult (modeCommand p n usesIv toy ext s) (modeCommand p n usesIv toy ext s') := by
  have hu := h.noteInputs p usesIv
  rw [modeCommand_eq, modeCommand_eq]
  refine .command h (.withLength h fun k => ?_)
  split
  · exact h.fail _
  · refine .withBytes hu fun m => ?_
    rw [hu.congr (modeOut p toy ext · m) (by intros; cases p <;> rfl)]
    exact hu.emit _

theorem SameResult.blockMode {p : Prim} {usesIv : Bool}
    {f : (w : Nat) → Engine w → List (BitVec w) → List (BitVec w)} (h : s.sameData s') :
    SameResult (blockMode p usesIv f s) (blockMode p usesIv f s') := .modeCommand h

theorem SameResult.segmentMode {p : Prim} {f : (w k : Nat) → Engine w → List (BitVec k) → List (BitVec k)}
    (h : s.sameData s') : SameResult (segmentMode p f s) (segmentMode p f s') := .modeCommand h

/-- Of two states that differ in the marks and the fault alone, a command gives results that do. -/
theorem exec_sameResult (i : Instr) (h : s.sameData s') : SameResult (exec i s) (exec i s') := by
  cases i with
  | permIp => rw [exec_permIp, exec_permIp]; exact .dinCommand (f := fun x c => permute 8 x c.tbl.ip) h
  | permIpinv => rw [exec_permIpinv, exec_permIpinv]; exact .dinCommand (f := fun x c => permute 8 x c.tbl.ipinv) h
  | permEp => rw [exec_permEp, exec_permEp]; exact .dinCommand (f := fun x c => permute 8 x c.tbl.ep) h
  | permP4 => rw [exec_permP4, exec_permP4]; exact .dinCommand (f := fun x c => permute 4 x c.tbl.p4) h
  | sbox0 => rw [exec_sbox0, exec_sbox0]; exact .dinCommand (f := fun x c => substitute x c.tbl.s0) h
  | sbox1 => rw [exec_sbox1, exec_sbox1]; exact .dinCommand (f := fun x c => substitute x c.tbl.s1) h
  | roundF => exact .roundF h
  | keysched => exact .keysched h
  | toyEnc => rw [exec_toyEnc, exec_toyEnc]; exact .toyCommand (f := fun x c k => toyEncrypt c k x) h
  | toyDec => rw [exec_toyDec, exec_toyDec]; exact .toyCommand (f := fun x c k => toyDecrypt c k x) h
  | pad p => exact .pad h
  | unpadLen => exact .unpadLen h
  | unpadScan p => exact .unpadScan h
  | xfer => exact .xfer h
  | ecbEnc p => rw [exec_ecbEnc, exec_ecbEnc]; exact .blockMode h
  | ecbDec p => rw [exec_ecbDec, exec_ecbDec]; exact .blockMode h
  | cbcEnc p => rw [exec_cbcEnc, exec_cbcEnc]; exact .blockMode h
  | cbcDec p => rw [exec_cbcDec, exec_cbcDec]; exact .blockMode h
  | cfbEnc p => rw [exec_cfbEnc, exec_cfbEnc]; exact .segmentMode h
  | cfbDec p => rw [exec_cfbDec, exec_cfbDec]; exact .segmentMode h
  | ctrEnc p => rw [exec_ctrEnc, exec_ctrEnc]; exact .blockMode h
  | ctrDec p => rw [exec_ctrDec, exec_ctrDec]; exact .blockMode h

end Sys2Proof.Machine

open Sys2Proof Sys2Proof.Machine

/-- Settles O58: the two runs start from states with the same data, so `exec_sameResult` pairs their results. -/
theorem marksOnlyRecord : Obligations.MarksOnlyRecord := by
  intro i s w f
  have hr := exec_sameResult i (s.sameData_marks w f)
  refine ⟨fun t ht => ?_, fun e he => ?_⟩
  · obtain ⟨t', ht', _, _, rfl⟩ := (ht ▸ hr).of_next
    exact ⟨_, ht', rfl⟩
  · exact (he ▸ hr).of_fault

end

section
/-! The host port at one address: what a step that makes one aligned host access is, register by register, and the fields
of the words the host reads. -/

namespace Sys2Proof.Machine

variable {s t : State} {a : BitVec 14} {l : Loc}

/-! ## A host turn at a location -/

theorem step_read_of {v : Word} {u : State} (h : s.hostTurn (readAt a) t) (ha : a.toNat % 4 = 0)
    (hl : locate t.config.msgCap a.toNat = l) (hr : hostRead l t = .ok (v, u)) :
    step s = .next { u with response := some (.data v) } := by
  rw [step_of_hostTurn h, hostAccess_read_of ha hl hr]

theorem step_write_of {v : Word} (h : s.hostTurn (writeAt a v) t) (ha : a.toNat % 4 = 0)
    (hl : locate t.config.msgCap a.toNat = l) :
    step s = .next { hostWrite l v t with response := some .written } := by
  rw [step_of_hostTurn h, hostAccess_write_of v ha hl]

/-- A write while Idle to a location other than CTRL and STATUS. -/
theorem step_write_idle {v : Word} (h : s.hostTurn (writeAt a v) t) (hp : t.phase = .idle) (ha : a.toNat % 4 = 0)
    (hl : locate t.config.msgCap a.toNat = l) (h1 : l ≠ .ctrl := by nofun) (h2 : l ≠ .status := by nofun) :
    step s = .next { writeIdle l v t with response := some .written } := by
  rw [step_write_of h ha hl, hostWrite_idle v hp h1 h2]

/-- A write while BUSY to a location other than CTRL and STATUS is dropped (R81). -/
theorem step_write_busy {v : Word} (h : s.hostTurn (writeAt a v) t) (hp : t.phase = .busy) (ha : a.toNat % 4 = 0)
    (hl : locate t.config.msgCap a.toNat = l) (h1 : l ≠ .ctrl := by nofun) (h2 : l ≠ .status := by nofun) :
    step s = .next { t with status := { t.status with werr := true }, response := some .written } := by
  rw [step_write_of h ha hl, hostWrite_busy v hp h1 h2]; rfl

/-- No register lies in the gap of the register map below KEY_EXT0 (R32). -/
theorem registerMap_lookup_gap {a : Nat} (h1 : 0x034 ≤ a) (h2 : a < 0x040) : registerMap.lookup a = none := by
  have hgap : ∀ p ∈ registerMap, p.1 < 0x034 ∨ 0x040 ≤ p.1 := by decide
  rw [List.lookup_eq_none_iff]
  intro p hp
  have := hgap p hp
  simp; omega

/-- The reserved offsets (R33) are reserved locations. -/
theorem locate_reservedOffset {cap a : Nat} (hc : cap ≤ 4096)
    (h : (0x034 ≤ a ∧ a < 0x040) ∨ (0x060 ≤ a ∧ a < 0x1000) ∨ 0x3000 ≤ a ∨ (0x1000 + cap ≤ a ∧ a < 0x2000) ∨
      (0x2000 + cap ≤ a ∧ a < 0x3000)) : locate cap a = .reserved := by
  refine locate_reserved ?_ (by unfold inBase; omega) (by unfold outBase; omega)
  rcases h with ⟨h1, h2⟩ | h
  · exact registerMap_lookup_gap h1 h2
  · exact registerMap_lookup_none (by omega)

/-! ## The words the host reads -/

/-- CFG has EXT_PRESENT in bit 0, MSG_CAP in bits [28:16], and 0 elsewhere (R35). -/
theorem cfgWord_fields (c : Config) :
    (cfgWord c).getLsbD 0 = c.extPresent ∧ (cfgWord c).extractLsb' 16 13 = BitVec.ofNat 13 c.msgCap ∧
    (cfgWord c).extractLsb' 1 15 = 0 ∧ (cfgWord c).extractLsb' 29 3 = 0 := by
  unfold cfgWord
  refine ⟨?_, ?_, ?_, ?_⟩
  · simp only [BitVec.getLsbD_append]; simp
  · rw [BitVec.extractLsb'_append_eq_of_le (by decide), BitVec.extractLsb'_append_eq_of_le (by decide)]
    exact BitVec.extractLsb'_append_eq_right
  · rw [BitVec.extractLsb'_append_eq_of_le (by decide)]
    exact BitVec.extractLsb'_append_eq_right
  · rw [BitVec.extractLsb'_append_eq_of_le (by decide), BitVec.extractLsb'_append_eq_of_le (by decide)]
    exact BitVec.extractLsb'_append_eq_left

/-- The one-bit fields of STATUS (R41). -/
theorem statusWord_bits (p : Phase) (x : Status) :
    ((statusWord p x).getLsbD 0 = true ↔ p = .busy) ∧ (statusWord p x).getLsbD 1 = x.done ∧
    (statusWord p x).getLsbD 2 = x.err ∧ (statusWord p x).getLsbD 3 = false ∧
    (statusWord p x).getLsbD 8 = x.stickyErr ∧ (statusWord p x).getLsbD 9 = x.werr ∧
    (statusWord p x).getLsbD 10 = x.fault := by
  simp only [statusWord, BitVec.getLsbD_append]
  cases p <;> simp [Phase.busyBit]

/-- ERRCODE stands in bits [7:4] of STATUS (R41). -/
theorem statusWord_errCode (p : Phase) (x : Status) : (statusWord p x).extractLsb' 4 4 = x.errCode := by
  unfold statusWord
  rw [BitVec.extractLsb'_append_eq_of_le (by decide), BitVec.extractLsb'_append_eq_of_le (by decide),
    BitVec.extractLsb'_append_eq_of_le (by decide), BitVec.extractLsb'_append_eq_of_le (by decide)]
  exact BitVec.extractLsb'_append_eq_right

/-- Bits [31:11] of STATUS are 0 (R41). -/
theorem statusWord_reserved (p : Phase) (x : Status) : (statusWord p x).extractLsb' 11 21 = 0 := by
  apply BitVec.eq_of_getLsbD_eq
  intro i hi
  simp only [statusWord, BitVec.getLsbD_append, BitVec.getLsbD_extractLsb']
  grind

/-- A STATUS write clears the two bits whose written bit is 1 (R40). -/
theorem Status.clear_eq (v : Word) (x : Status) : x.clear v = { x with
    stickyErr := if v.getLsbD 8 then false else x.stickyErr
    werr := if v.getLsbD 9 then false else x.werr } := by
  unfold Status.clear
  cases v.getLsbD 8 <;> cases v.getLsbD 9 <;> simp

end Sys2Proof.Machine

open Sys2Proof Sys2Proof.Machine

/-- Settles O42: a reserved offset is the reserved location, which holds nothing. -/
theorem reservedOffsets : Obligations.ReservedOffsets := by
  intro s t a hc ha hr
  have hcap : t.config.msgCap ≤ 4096 := ((Config.capWellFormed_iff _).1 hc).1.2
  have hl := locate_reservedOffset hcap hr
  exact ⟨fun h => step_read_of h ha hl rfl,
    fun v h => ⟨fun hp => step_write_idle h hp ha hl, fun hp => step_write_busy h hp ha hl⟩⟩

/-- Settles O41: the reads of ID, CFG and CTRL, and the writes the register map ignores. -/
theorem idAndCfgAreConstant : Obligations.IdAndCfgAreConstant := by
  refine ⟨fun s t h => step_read_of (l := .id) h rfl rfl rfl, fun s t h => ?_,
    fun s t h => step_read_of (l := .ctrl) h rfl rfl rfl, fun s t v a ha h hp => ?_, fun c => rfl, fun s => rfl⟩
  · exact ⟨cfgWord t.config, step_read_of (l := .cfg) h rfl rfl rfl, cfgWord_fields t.config⟩
  · simp only [List.mem_cons, List.not_mem_nil, or_false] at ha
    rcases ha with rfl | rfl | rfl | rfl | rfl
    · exact step_write_idle (l := .id) h hp rfl rfl
    · exact step_write_idle (l := .cfg) h hp rfl rfl
    · exact step_write_idle (l := .dout) h hp rfl rfl
    · exact step_write_idle (l := .subkeys) h hp rfl rfl
    · exact step_write_idle (l := .lenOut) h hp rfl rfl

/-- Settles O43: the fields of the STATUS word, and its write at any phase. -/
theorem statusReadAndClear : Obligations.StatusReadAndClear := by
  refine ⟨fun s t h => ?_, fun s t v h => ?_⟩
  · obtain ⟨h0, h1, h2, h3, h8, h9, h10⟩ := statusWord_bits t.phase t.status
    exact ⟨statusWord t.phase t.status, step_read_of (l := .status) h rfl rfl rfl, h0, h1, h2, h3,
      statusWord_errCode _ _, h8, h9, h10, statusWord_reserved _ _⟩
  · rw [step_write_of (l := .status) h rfl rfl, ← Status.clear_eq]; rfl

/-- Settles O46: an accepted CMD write is `acceptCommand`, and one while BUSY is dropped. -/
theorem cmdWriteStartsTheCommand : Obligations.CmdWriteStartsTheCommand := by
  refine ⟨fun s t v h => ⟨fun hp => ?_, fun hp => ?_⟩, fun s t h => ?_, rfl, ⟨.noSuchCommand, rfl⟩⟩
  · exact step_write_idle (l := .cmd) h hp rfl rfl
  · exact step_write_busy (l := .cmd) h hp rfl rfl
  · exact step_read_of (l := .cmd) h rfl rfl rfl

/-- Settles O50: each operand register's write and the two reads, by their locations. -/
theorem operandRegisterWrites : Obligations.OperandRegisterWrites := by
  intro s t v hp
  have hiv : v.setWidth 8 = v.extractLsb' 0 8 := BitVec.setWidth_eq_extractLsb' (by decide)
  have hlen : v.setWidth 13 = v.extractLsb' 0 13 := BitVec.setWidth_eq_extractLsb' (by decide)
  have hkeyToy : t.keyToy.setWidth 32 = 0#22 ++ t.keyToy := BitVec.setWidth_eq_append (by decide)
  have hivToy : t.ivToy.setWidth 32 = 0#24 ++ t.ivToy := BitVec.setWidth_eq_append (by decide)
  rw [← hiv, ← hlen, ← hkeyToy, ← hivToy]
  exact ⟨fun h => step_write_idle (l := .din) h hp rfl rfl,
    fun h => step_write_idle (l := .din2) h hp rfl rfl,
    fun h => step_write_idle (l := .ivToy) h hp rfl rfl,
    fun h => step_write_idle (l := .lenIn) h hp rfl rfl,
    fun h => step_write_idle (l := .keyExt 0) h hp rfl rfl,
    fun h => step_write_idle (l := .keyExt 1) h hp rfl rfl,
    fun h => step_write_idle (l := .keyExt 2) h hp rfl rfl,
    fun h => step_write_idle (l := .keyExt 3) h hp rfl rfl,
    fun h => step_write_idle (l := .ivExt 0) h hp rfl rfl,
    fun h => step_write_idle (l := .ivExt 1) h hp rfl rfl,
    fun h => step_write_idle (l := .ivExt 2) h hp rfl rfl,
    fun h => step_write_idle (l := .ivExt 3) h hp rfl rfl,
    fun h => step_read_of (l := .keyToy) h rfl rfl rfl,
    fun h => step_read_of (l := .ivToy) h rfl rfl rfl⟩

end

section
/-! Blocks, segments and nibbles written out: a block is its bytes appended, the first one most significant
(R76, R228). -/

namespace Sys2Proof.Machine

/-! ## A block from its bytes -/

theorem ofNat_append_byte (w n : Nat) (b : Byte) :
    BitVec.ofNat (w + 8) (256 * n + b.toNat) = BitVec.ofNat w n ++ b := by
  have hb : b.toNat < 2 ^ 8 := b.isLt
  have hmod : (256 * n + b.toNat) % 2 ^ 8 = b.toNat := by omega
  have hdiv : (256 * n + b.toNat) / 2 ^ 8 = n := by omega
  apply BitVec.eq_of_toNat_eq
  rw [BitVec.toNat_append, ← Nat.shiftLeft_add_eq_or_of_lt hb, Nat.shiftLeft_eq, BitVec.toNat_ofNat,
    BitVec.toNat_ofNat, Nat.pow_add, Nat.mul_comm (2 ^ w), Nat.mod_mul, hmod, hdiv]
  ring

theorem empty_append_byte (b : Byte) : 0#0 ++ b = b := by
  simpa using (ofNat_append_byte 0 0 b).symm

/-- A buffer word is its four bytes, the lowest address in bits [31:24] (R74). -/
theorem fromBytes_word (b0 b1 b2 b3 : Byte) : fromBytes 32 [b0, b1, b2, b3] = b0 ++ b1 ++ b2 ++ b3 := by
  simp only [fromBytes, List.foldl, ofNat_append_byte, empty_append_byte]

/-! ## A piece of a message -/

theorem take_drop_cons {α : Type} {l : List α} {i : Nat} (n : Nat) (h : i < l.length) :
    (l.drop i).take (n + 1) = l[i] :: (l.drop (i + 1)).take n := by
  rw [List.drop_eq_getElem_cons h, List.take_succ_cons]

theorem blocksOf_getElem? {w : Nat} {m : List Byte} {j : Nat} (h : j < m.length / (w / 8)) :
    (blocksOf w m)[j]? = some (fromBytes w ((m.drop (w / 8 * j)).take (w / 8))) := by
  rw [blocksOf, List.getElem?_map, chunks_getElem? _ _ _ _ h, Option.map_some]

theorem nibblesOf_getElem? {m : List Byte} {i : Nat} (h : i < m.length) :
    (nibblesOf m)[2 * i]? = some (m[i].extractLsb' 4 4) ∧
    (nibblesOf m)[2 * i + 1]? = some (m[i].extractLsb' 0 4) := by
  induction m generalizing i with
  | nil => cases h
  | cons b m ih =>
    cases i with
    | zero => exact ⟨rfl, rfl⟩
    | succ i => exact ih (Nat.lt_of_succ_lt_succ h)

theorem bytesOfNibbles_getElem? : {xs : List (BitVec 4)} → {i : Nat} → (h : 2 * i + 1 < xs.length) →
    (bytesOfNibbles xs)[i]? = some (xs[2 * i] ++ xs[2 * i + 1])
  | _ :: _ :: _, 0, _ => rfl
  | _ :: _ :: _, _ + 1, h => bytesOfNibbles_getElem? (Nat.lt_of_succ_lt_succ (Nat.lt_of_succ_lt_succ h))

end Sys2Proof.Machine

open Sys2Proof Sys2Proof.Machine

/-- Settles O29: block j is made of the bytes of piece j, appended one by one (`ofNat_append_byte`). -/
theorem blocksFromBytes : Obligations.BlocksFromBytes := by
  refine ⟨fun m => ⟨blocksOf_byte m, bytesOf_byte m⟩, fun m j h => ?_, fun m => bytesOf_blocksOf 16 m,
    blocksOf_bytesOf 16 (by decide), fun m j h => ?_, fun m => bytesOf_blocksOf 8 m,
    blocksOf_bytesOf 8 (by decide), fun m i => nibblesOf_getElem?, fun xs i => bytesOfNibbles_getElem?⟩
  all_goals
    rw [blocksOf_getElem? (by omega)]
    simp (disch := omega) only [Nat.reduceDiv, take_drop_cons, List.take_zero, fromBytes, List.foldl,
      ofNat_append_byte, empty_append_byte]

end

section
/-! The memory frame of a command: the only bytes it changes are those it stores (R87). -/

namespace Sys2Proof.Machine

variable {s t : State}

/-- A legal capacity fits in LEN_OUT (R49, D5). -/
theorem toNat_ofNat_of_le_msgCap {c : Config} {n : Nat} (hc : c.capWellFormed = true) (hn : n ≤ c.msgCap) :
    (BitVec.ofNat 13 n).toNat = n := by
  have hcap := (Config.capWellFormed_iff c).1 hc
  simp; omega

/-- A byte a command does not store is as before. -/
theorem exec_mem_frame {i : Instr} {a : Nat} (hc : s.config.capWellFormed = true) (h : exec i s = .next t)
    (hout : ¬(i.writesOut ∧ outBase ≤ a ∧ a < outBase + t.lenOut.toNat))
    (hin : ¬(i = .xfer ∧ inBase ≤ a ∧ a < inBase + s.lenOut.toNat)) : t.mem.read a = s.mem.read a := by
  cases exec_next h with
  | failed u _ hu _ => rw [hu.1]; rfl
  | answered u _ hu _ _ => rw [hu.1]; rfl
  | scheduled u hu _ => rw [hu.1]; rfl
  | emitted u out hu hw hl _ =>
    have hmem : u.mem = s.mem := by rw [hu.1]
    have hlen : (BitVec.ofNat 13 out.length).toNat = out.length := toNat_ofNat_of_le_msgCap hc hl
    rw [State.ok_lenOut, State.emit_lenOut, hlen] at hout
    rw [State.ok_mem, State.emit_mem, hmem]
    exact Memory.stored_outside (s.mem.writeBytes_stored _ _) a fun ha => hout ⟨hw, ha⟩
  | loaded m hi hl _ =>
    exact Memory.stored_outside (s.mem.writeBytes_stored _ _) a fun ha => hin ⟨hi, hl ▸ ha⟩

end Sys2Proof.Machine

open Sys2Proof Sys2Proof.Machine

/-- Settles O9, by what a command that answers a next state has stored. -/
theorem commandMemoryFrame : Obligations.CommandMemoryFrame := fun _ _ _ _ => exec_mem_frame

end

section
/-! What a turn is, and what a host access keeps: of any state where it is a read, and of a BUSY one unless it is a soft
reset. -/

namespace Sys2Proof.Machine

variable {s t : State} {a : Access}

/-- `t` is `s` but for the model's own fields that a host read may change (R78). -/
def State.sameHardware (s t : State) : Prop :=
  t = { s with response := t.response, draws := t.draws, modelFault := t.modelFault }

theorem hostRead_sameHardware {l : Loc} {v : Word} (h : hostRead l s = .ok (v, t)) : s.sameHardware t := by
  rcases hostRead_ok h with hu | rfl
  · rw [hu.1]; rfl
  · rfl

theorem hostAccess_read_sameHardware (hk : a.kind = .read) (h : hostAccess a s = .next t) : s.sameHardware t := by
  rcases hostAccess_next h with rfl | ⟨_, _, v, u, hr, rfl⟩ | ⟨_, v, hw, _⟩
  · rfl
  · rw [hostRead_sameHardware hr]; rfl
  · rw [hk] at hw; cases hw

/-- While BUSY a host write but a soft reset can change STATUS only (R81, R302). -/
theorem hostWrite_busy_eq {l : Loc} {v : Word} (hp : s.phase = .busy) (hl : ¬(l = .ctrl ∧ v.getLsbD 0 = true)) :
    hostWrite l v s = { s with status := (hostWrite l v s).status } := by
  by_cases hctrl : l = .ctrl
  · have hv : ¬v.getLsbD 0 = true := fun hv => hl ⟨hctrl, hv⟩
    simp only [hostWrite, if_pos hctrl, if_neg hv]
  · by_cases hstatus : l = .status
    · simp [hostWrite, hstatus]
    · rw [hostWrite_busy v hp hctrl hstatus]

/-- While BUSY a host access but a soft reset can change STATUS and the model's own fields only. -/
theorem hostAccess_busy_eq (hp : s.phase = .busy)
    (ha : ¬(a.addr = 0x008 ∧ ∃ v : Word, a.kind = .write v ∧ v.getLsbD 0 = true)) (h : hostAccess a s = .next t) :
    State.sameHardware { s with status := t.status } t := by
  rcases hostAccess_next h with rfl | ⟨_, hk, _⟩ | ⟨_, v, hk, rfl⟩
  · rfl
  · rw [hostAccess_read_sameHardware hk h]; rfl
  · have hreset : ¬(locate s.config.msgCap a.addr.toNat = .ctrl ∧ v.getLsbD 0 = true) :=
      fun hl => ha ⟨locate_ctrl hl.1, v, hk, hl.2⟩
    rw [hostWrite_busy_eq hp hreset]; rfl

end Sys2Proof.Machine

open Sys2Proof Sys2Proof.Machine

/-- Settles O4: each kind of turn by its own equation of `step`. -/
theorem stepRunsTheLatchedCommand : Obligations.StepRunsTheLatchedCommand := by
  refine ⟨fun s t i ht hd => ?_, fun s t a => step_of_hostTurn, fun s hp hs => ?_, fun s rest hp hs => ?_⟩
  · rw [step_of_coreTurn ht, coreStep_of_decode hd]
  · simp only [step, State.nextMove, hs, State.coreMove, hp]
  · simp only [step, State.nextMove, hs, State.coreMove, hp]

/-- Settles O40, by the case of `hostAccess` that serves no access. -/
theorem busErrorChangesNothing : Obligations.BusErrorChangesNothing := by
  intro s t a ht ha
  rw [step_of_hostTurn ht, hostAccess_busError t ha]

/-- Settles O52: a read notes a register or draws a value, and answers. -/
theorem readsChangeNothing : Obligations.ReadsChangeNothing := by
  intro s t r a ht hk h
  exact hostAccess_read_sameHardware hk (step_of_hostTurn ht ▸ h)

/-- Settles O47: a dropped write is `step_write_busy`, and `hostAccess_busy_eq` is the frame of any access. -/
theorem busyKeepsTheOperands : Obligations.BusyKeepsTheOperands := by
  refine ⟨fun s t a v ht hp ha hctrl hstatus => ?_, fun s t r a ht hp ha h => ?_⟩
  · exact step_write_busy ht hp ha rfl (fun hl => hctrl (locate_ctrl hl)) fun hl => hstatus (locate_status hl)
  · rw [step_of_hostTurn ht] at h
    rw [hostAccess_busy_eq hp ha h]
    exact ⟨hp, rfl, rfl, rfl, rfl, rfl, rfl, rfl, rfl, rfl, rfl, rfl, rfl, rfl, rfl⟩

end

section
/-! The words the host reads and writes at the buffers and the result registers (R74, R81, R82). -/

namespace Sys2Proof.Machine

variable {s t : State} {a : BitVec 14}

/-! ## Buffer words -/

/-- The four bytes of a word, the most significant first (R74). -/
theorem toBytes_word (v : Word) :
    toBytes v = [v.extractLsb' 24 8, v.extractLsb' 16 8, v.extractLsb' 8 8, v.extractLsb' 0 8] := rfl

/-- An address of a buffer word the host can read as it stands: in IN_BUF, or in OUT_BUF while Idle. -/
def State.servesBuffer (t : State) (a : Nat) : Prop :=
  (inBase ≤ a ∧ a < inBase + t.config.msgCap) ∨
  (t.phase = .idle ∧ outBase ≤ a ∧ a < outBase + t.config.msgCap)

/-- Such a word is read from its own address on. -/
theorem hostRead_buffer {a : Nat} (hc : t.config.capWellFormed = true) (ha : t.servesBuffer a) :
    hostRead (locate t.config.msgCap a) t = (readWord t a).map fun v => (v, t) := by
  have hcap := ((Config.capWellFormed_iff _).1 hc).1.2
  rcases ha with ⟨h1, h2⟩ | ⟨hp, h1, h2⟩
  · rw [locate_inBuf h1 h2, hostRead, Nat.add_sub_cancel' h1]
  · rw [locate_outBuf hcap h1 h2, hostRead, if_neg (by simp [hp]), Nat.add_sub_cancel' h1]

theorem readWord_of_holds {a : Nat} {b0 b1 b2 b3 : Byte} (h : t.mem.holds a [b0, b1, b2, b3]) :
    readWord t a = .ok (b0 ++ b1 ++ b2 ++ b3) := by
  rw [← fromBytes_word, readWord, (t.mem.readBytes_ok_iff a 4 _).2 ⟨rfl, h⟩]

/-! ## Result registers -/

/-- A read of a result register or an OUT_BUF word while BUSY draws a free value (R81). -/
theorem hostRead_draw {l : Loc} (hp : t.phase = .busy)
    (hl : l = .dout ∨ l = .subkeys ∨ l = .lenOut ∨ ∃ i, l = .outBuf i) : hostRead l t = .ok t.draw := by
  rcases hl with rfl | rfl | rfl | ⟨i, rfl⟩ <;> exact if_pos hp

/-- A read that notes a register changes nothing else. -/
theorem step_read_noted {l : Loc} {v : Word} {u : State} (h : s.hostTurn (readAt a) t) (ha : a.toNat % 4 = 0)
    (hl : locate t.config.msgCap a.toNat = l) (hr : hostRead l t = .ok (v, u)) (hu : t.noted u) :
    ∃ f, step s = .next { t with response := some (.data v), modelFault := f } := by
  rw [step_read_of h ha hl hr, hu.1]
  exact ⟨u.modelFault, rfl⟩

end Sys2Proof.Machine

open Sys2Proof Sys2Proof.Machine

/-- Settles O48: `hostRead_draw` while BUSY, and what each location answers. -/
theorem busyReadsAreFree : Obligations.BusyReadsAreFree := by
  refine ⟨fun s t a hc h hp ha => ?_, fun s t ⟨a, v⟩ h hx => ?_, fun s t hp => ⟨fun h => ?_, fun h => ?_, fun h => ?_⟩⟩
  · have hcap := ((Config.capWellFormed_iff _).1 hc).1.2
    rcases ha with rfl | rfl | rfl | ⟨ha, h1, h2⟩
    · exact step_read_of h rfl rfl (hostRead_draw (l := .dout) hp (by simp))
    · exact step_read_of h rfl rfl (hostRead_draw (l := .subkeys) hp (by simp))
    · exact step_read_of h rfl rfl (hostRead_draw (l := .lenOut) hp (by simp))
    · exact step_read_of h ha (locate_outBuf hcap h1 h2) (hostRead_draw hp (by simp))
  · change s.hostTurn (readAt a) t at h
    have hkeyToy : t.keyToy.setWidth 32 = 0#22 ++ t.keyToy := BitVec.setWidth_eq_append (by decide)
    have hivToy : t.ivToy.setWidth 32 = 0#24 ++ t.ivToy := BitVec.setWidth_eq_append (by decide)
    have hlenIn : t.lenIn.setWidth 32 = 0#19 ++ t.lenIn := BitVec.setWidth_eq_append (by decide)
    rw [← hkeyToy, ← hivToy, ← hlenIn] at hx
    simp only [List.mem_cons, List.not_mem_nil, or_false, Prod.mk.injEq] at hx
    rcases hx with ⟨rfl, rfl⟩ | ⟨rfl, rfl⟩ | ⟨rfl, rfl⟩ | ⟨rfl, rfl⟩ | ⟨rfl, rfl⟩ | ⟨rfl, rfl⟩ | ⟨rfl, rfl⟩ |
      ⟨rfl, rfl⟩ | ⟨rfl, rfl⟩ | ⟨rfl, rfl⟩ | ⟨rfl, rfl⟩ | ⟨rfl, rfl⟩ | ⟨rfl, rfl⟩ | ⟨rfl, rfl⟩
    · exact step_read_noted (l := .cmd) h rfl rfl rfl t.noted_refl
    · exact step_read_noted (l := .din) h rfl rfl rfl (t.noted_noteRead _)
    · exact step_read_noted (l := .din2) h rfl rfl rfl (t.noted_noteRead _)
    · exact step_read_noted (l := .keyToy) h rfl rfl rfl (t.noted_noteRead _)
    · exact step_read_noted (l := .ivToy) h rfl rfl rfl (t.noted_noteRead _)
    · exact step_read_noted (l := .lenIn) h rfl rfl rfl t.noted_refl
    · exact step_read_noted (l := .keyExt 0) h rfl rfl rfl (t.noted_noteRead _)
    · exact step_read_noted (l := .keyExt 1) h rfl rfl rfl (t.noted_noteRead _)
    · exact step_read_noted (l := .keyExt 2) h rfl rfl rfl (t.noted_noteRead _)
    · exact step_read_noted (l := .keyExt 3) h rfl rfl rfl (t.noted_noteRead _)
    · exact step_read_noted (l := .ivExt 0) h rfl rfl rfl (t.noted_noteRead _)
    · exact step_read_noted (l := .ivExt 1) h rfl rfl rfl (t.noted_noteRead _)
    · exact step_read_noted (l := .ivExt 2) h rfl rfl rfl (t.noted_noteRead _)
    · exact step_read_noted (l := .ivExt 3) h rfl rfl rfl (t.noted_noteRead _)
  · exact step_read_of (l := .dout) h rfl rfl (if_neg (by simp [hp]))
  · have hsubkeys : t.subkeys.setWidth 32 = 0#15 ++ t.subkeys := BitVec.setWidth_eq_append (by decide)
    rw [← hsubkeys]
    exact step_read_of (l := .subkeys) h rfl rfl (if_neg (by simp [hp]))
  · have hlenOut : t.lenOut.setWidth 32 = 0#19 ++ t.lenOut := BitVec.setWidth_eq_append (by decide)
    rw [← hlenOut]
    exact step_read_of (l := .lenOut) h rfl rfl (if_neg (by simp [hp]))

/-- Settles O49: a buffer word is stored as `toBytes_word` and read as `fromBytes_word`. -/
theorem bufferWordOrder : Obligations.BufferWordOrder := by
  refine ⟨fun s t a v _ h hp ha h1 h2 => ?_, fun s t a b0 b1 b2 b3 hc h ha hb hm => ?_, fun s t a h hw => ?_,
    fun s t a v hc h hp ha h1 h2 => ?_⟩
  · have hbase : inBase + (a.toNat - inBase) = a.toNat := Nat.add_sub_cancel' h1
    refine ⟨_, t.mem.writeBytes_stored _ _, ?_⟩
    rw [step_write_idle h hp ha (locate_inBuf h1 h2), writeIdle, hbase, toBytes_word]
  · have hr := hostRead_buffer hc hb
    rw [readWord_of_holds hm] at hr
    exact step_read_of h ha rfl hr
  · have hwf : a.wellFormed = false := by rcases hw with hw | hw <;> simp [Access.wellFormed, hw]
    rw [step_of_hostTurn h, hostAccess_busError t hwf]
  · have hcap := ((Config.capWellFormed_iff _).1 hc).1.2
    exact step_write_idle h hp ha (locate_outBuf hcap h1 h2)

end

section
/-! Where a command or a host read stops: at the first unwritten datum of those it reads, where one of them is an
unwritten byte (R86, R268). -/

namespace Sys2Proof.Machine

variable {s t : State}

/-! ## Stops of whatever reads a list of data -/

theorem ReadsExactly.not_refused {l : List Datum} {r : Result} (h : ReadsExactly s l r) (x : Refusal) :
    r ≠ .refused x := by
  rintro rfl
  exact h

/-- What reads an unwritten byte stops, and names the first unwritten datum it reads. -/
theorem ReadsExactly.fault_of_first {l : List Datum} {r : Result} {x : Datum} {a : Nat} (h : ReadsExactly s l r)
    (hx : s.firstUnwritten l = some x) (ha : .byte a ∈ l) (hn : s.mem.read a = none) :
    r = .fault (s.modelFault.getD (.unwrittenRead x)) := by
  cases r with
  | next t => exact absurd hn (h.1 a ha)
  | fault e =>
    obtain ⟨_, y, _, _, hy, rfl⟩ := h
    rw [Option.some.inj (hx.symm.trans hy)]
  | refused e => exact h.elim

/-- The same where the first unwritten datum is itself a byte. -/
theorem ReadsExactly.fault_of_first_byte {l : List Datum} {r : Result} {a : Nat} (h : ReadsExactly s l r)
    (hx : s.firstUnwritten l = some (.byte a)) : r = .fault (s.modelFault.getD (.unwrittenRead (.byte a))) := by
  have hn : s.isWritten (.byte a) = false := by simpa using List.find?_some hx
  exact h.fault_of_first hx (List.mem_of_find?_eq_some hx) (by simpa [State.isWritten_byte] using hn)

theorem State.firstUnwritten_cons_written {x : Datum} {l : List Datum} (h : s.isWritten x = true) :
    s.firstUnwritten (x :: l) = s.firstUnwritten l := by
  simp [State.firstUnwritten, h]

theorem State.firstUnwritten_cons_unwritten {x : Datum} {l : List Datum} (h : s.isWritten x = false) :
    s.firstUnwritten (x :: l) = some x := by
  simp [State.firstUnwritten, h]

/-- Reading bytes stops at the first one that is unwritten. -/
theorem Memory.readBytes_stops {m : Memory} {n : Nat} : ∀ {k a : Nat}, k < n → m.read (a + k) = none →
    (∀ j, j < k → m.read (a + j) ≠ none) → m.readBytes a n = .error (a + k) := by
  induction n with
  | zero => intro k a hk; cases hk
  | succ n ih =>
    intro k a hk hn hw
    unfold Memory.readBytes
    cases k with
    | zero => rw [show m.read a = none from hn]; rfl
    | succ k =>
      obtain ⟨b, hb⟩ := Option.ne_none_iff_exists'.1 (hw 0 (by omega))
      have hrest : m.readBytes (a + 1) n = .error (a + 1 + k) :=
        ih (by omega) (by rw [Nat.add_right_comm]; exact hn) fun j hj => by
          rw [Nat.add_right_comm]; exact hw (j + 1) (by omega)
      rw [show m.read a = some b from hb, hrest, Nat.add_right_comm]
      rfl

theorem State.firstUnwritten_bytesFrom {base n k : Nat} (hk : k < n) (hn : s.mem.read (base + k) = none)
    (hw : ∀ j, j < k → s.mem.read (base + j) ≠ none) :
    s.firstUnwritten (bytesFrom base n) = some (.byte (base + k)) :=
  State.firstUnwritten_of_readBytes_error (Memory.readBytes_stops hk hn hw)

/-! ## The bytes a command reads -/

theorem mem_of_mem_checkedReads {p : Prim} {l : List Datum} {x : Datum} (h : x ∈ checkedReads p s l) : x ∈ l := by
  unfold checkedReads at h
  split at h
  · cases h
  · exact h

theorem mem_of_mem_bufferReads {p : Prim} {l : List Datum} {x : Datum} (h : x ∈ bufferReads p s l) : x ∈ l := by
  have h := mem_of_mem_checkedReads h
  split at h
  · cases h
  · exact h

/-- The checks pass, and the reads are the body's. -/
theorem bufferReads_of_ready {p : Prim} (h : s.ready p) (hc : s.lenIn.toNat ≤ s.config.msgCap) (l : List Datum) :
    bufferReads p s l = l := by
  rw [bufferReads, checkedReads_of_ready h, if_neg (Nat.not_lt.2 hc)]

theorem byte_mem_bytesFrom {a base n : Nat} : .byte a ∈ bytesFrom base n ↔ base ≤ a ∧ a < base + n := by
  rw [mem_bytesFrom]
  constructor
  · rintro ⟨k, hk, he⟩
    cases he
    omega
  · rintro ⟨h1, h2⟩
    exact ⟨a - base, by omega, by rw [Nat.add_sub_cancel' h1]⟩

theorem byte_not_mem_keyData (p : Prim) (a : Nat) : .byte a ∉ keyData p := by cases p <;> simp [keyData]

theorem byte_not_mem_ivData (p : Prim) (a : Nat) : .byte a ∉ ivData p := by cases p <;> simp [ivData]

/-- The reads of a mode command by its message unit and its IV; the unit divides LEN_IN where its length check
passes. -/
theorem commandReads_mode {i : Instr} (h : i.isMode) (s : State) : ∃ u iv, commandReads i s = modeReads i.prim u iv s ∧
    (¬lengthInvalid s i → s.lenIn.toNat % u = 0) ∧ ∀ a, .byte a ∉ iv := by
  obtain ⟨p, h⟩ := h
  have hcfb : ¬(p = .ext ∧ s.lenIn.toNat % 8 ≠ 0) → s.lenIn.toNat % Prim.segmentUnit p = 0 := by
    cases p
    · exact fun _ => Nat.mod_one _
    · exact fun hn => not_not.1 fun h => hn ⟨rfl, h⟩
  simp only [List.mem_cons, List.not_mem_nil, or_false] at h
  rcases h with rfl | rfl | rfl | rfl | rfl | rfl | rfl | rfl
  · exact ⟨_, _, rfl, not_not.1, fun _ => List.not_mem_nil⟩
  · exact ⟨_, _, rfl, not_not.1, fun _ => List.not_mem_nil⟩
  · exact ⟨_, _, rfl, not_not.1, byte_not_mem_ivData p⟩
  · exact ⟨_, _, rfl, not_not.1, byte_not_mem_ivData p⟩
  · exact ⟨_, _, rfl, hcfb, byte_not_mem_ivData p⟩
  · exact ⟨_, _, rfl, hcfb, byte_not_mem_ivData p⟩
  · exact ⟨_, _, rfl, not_not.1, byte_not_mem_ivData p⟩
  · exact ⟨_, _, rfl, not_not.1, byte_not_mem_ivData p⟩

theorem byte_mem_modeReads {p : Prim} {u a : Nat} {iv : List Datum} (hiv : ∀ a, .byte a ∉ iv)
    (h : .byte a ∈ modeReads p u iv s) : inBase ≤ a ∧ a < inBase + s.lenIn.toNat := by
  have h := mem_of_mem_bufferReads h
  split at h
  · cases h
  · simpa [byte_not_mem_keyData, hiv, byte_mem_bytesFrom] using h

/-- A length UNPAD_SCAN takes holds a whole block (R203). -/
theorem blockBytes_le_lenIn {p : Prim} (h : ¬lengthInvalid s (.unpadScan p)) :
    Prim.blockBytes p ≤ s.lenIn.toNat := by
  obtain ⟨hpos, hmod⟩ := not_or.1 h
  exact Nat.le_of_dvd (Nat.pos_of_ne_zero hpos) (Nat.dvd_of_mod_eq_zero (not_not.1 hmod))

/-- The scan of a block within IN_BUF and the copy after it read no byte past the block. -/
theorem byte_mem_scanReads {m : Memory} {lo n a : Nat} (hlo : inBase ≤ lo) (h : .byte a ∈ scanReads m lo n) :
    inBase ≤ a ∧ a < lo + n := by
  induction n with
  | zero => cases h
  | succ n ih =>
    rcases List.mem_cons.1 h with h | h
    · cases h; omega
    · split at h
      · have := ih h; omega
      · split at h
        · have := byte_mem_bytesFrom.1 h; omega
        · cases h

/-- A command reads bytes of the message, or, for XFER, of the output. -/
theorem byte_mem_commandReads {i : Instr} {a : Nat} (h : .byte a ∈ commandReads i s) :
    (i.writesOut ∧ inBase ≤ a ∧ a < inBase + s.lenIn.toNat) ∨
    (i = .xfer ∧ outBase ≤ a ∧ a < outBase + s.lenOut.toNat) := by
  by_cases hm : i.isMode
  · obtain ⟨u, iv, hr, _, hiv⟩ := commandReads_mode hm s
    exact .inl ⟨.inr hm, byte_mem_modeReads hiv (hr ▸ h)⟩
  cases i with
  | pad p =>
    have h := mem_of_mem_bufferReads h
    split at h
    · cases h
    · exact .inl ⟨.inl ⟨p, by simp⟩, byte_mem_bytesFrom.1 h⟩
  | unpadLen =>
    have hbuf := mem_of_mem_bufferReads (p := .toy) h
    have h := List.mem_of_ne_of_mem (by simp) hbuf
    split at h
    · cases h
    · have := byte_mem_bytesFrom.1 h
      exact .inl ⟨.inl ⟨.toy, by simp⟩, by omega⟩
  | unpadScan p =>
    have h := mem_of_mem_bufferReads h
    split at h
    · cases h
    · rename_i hn
      have hle : Prim.blockBytes p ≤ s.lenIn.toNat := blockBytes_le_lenIn hn
      have := byte_mem_scanReads (Nat.le_add_right _ _) h
      exact .inl ⟨.inl ⟨p, by simp⟩, by omega⟩
  | xfer => exact .inr ⟨rfl, byte_mem_bytesFrom.1 (mem_of_mem_checkedReads h)⟩
  | toyEnc | toyDec =>
    have h := mem_of_mem_checkedReads h
    split at h <;> simp at h
  | ecbEnc p | ecbDec p | cbcEnc p | cbcDec p | cfbEnc p | cfbDec p | ctrEnc p | ctrDec p =>
    exact absurd ⟨p, by simp⟩ hm
  | _ => simpa using mem_of_mem_checkedReads h

/-! ## Where a command stops -/

/-- A command that passes its checks reads registers, and then a range of bytes. -/
theorem commandReads_range {i : Instr} {base n : Nat} (hr : s.ready i.prim)
    (h : (i = .xfer ∧ base = outBase ∧ n = s.lenOut.toNat) ∨
      (s.lenIn.toNat ≤ s.config.msgCap ∧ ¬lengthInvalid s i ∧ base = inBase ∧
        ((i = .unpadLen ∧ n = s.din.toNat) ∨ (i.isMode ∧ n = s.lenIn.toNat) ∨
         ∃ p, i = .pad p ∧ n = s.lenIn.toNat ∧ n + (Prim.blockBytes p - n % Prim.blockBytes p) ≤ s.config.msgCap))) :
    ∃ l, commandReads i s = l ++ bytesFrom base n ∧ ∀ a, .byte a ∉ l := by
  rcases h with ⟨rfl, rfl, rfl⟩ | ⟨hc, hl, rfl, ⟨rfl, rfl⟩ | ⟨hm, rfl⟩ | ⟨p, rfl, rfl, hn⟩⟩
  · exact ⟨[], checkedReads_of_ready hr _, by simp⟩
  · exact ⟨[.din], (bufferReads_of_ready hr hc _).trans (congrArg _ (if_neg hl)), by simp⟩
  · obtain ⟨u, iv, hreads, hu, hiv⟩ := commandReads_mode hm s
    refine ⟨keyData i.prim ++ iv, ?_, fun a => by simp [byte_not_mem_keyData, hiv]⟩
    rw [hreads, modeReads, bufferReads_of_ready hr hc, if_neg (not_not.2 (hu hl))]
  · exact ⟨[], (bufferReads_of_ready hr hc _).trans (if_neg (Nat.not_lt.2 hn)), by simp⟩

theorem commandReads_unpadScan {p : Prim} (hr : s.ready p) (hc : s.lenIn.toNat ≤ s.config.msgCap)
    (hl : ¬lengthInvalid s (.unpadScan p)) : commandReads (.unpadScan p) s =
      scanReads s.mem (inBase + (s.lenIn.toNat - Prim.blockBytes p)) (Prim.blockBytes p) :=
  (bufferReads_of_ready hr hc _).trans (if_neg hl)

/-- The scan reads on over the zeros at the end of a block (R203). -/
theorem firstUnwritten_scanReads_zeros {lo d n : Nat} (hd : d < n)
    (hz : ∀ j, d < j → j < n → s.mem.read (lo + j) = some 0x00#8) :
    s.firstUnwritten (scanReads s.mem lo n) = s.firstUnwritten (scanReads s.mem lo (d + 1)) := by
  induction n with
  | zero => cases hd
  | succ n ih =>
    rcases Nat.lt_succ_iff_lt_or_eq.1 hd with hdn | rfl
    · have hzero : s.mem.read (lo + n) = some 0x00#8 := hz n hdn (Nat.lt_succ_self n)
      rw [scanReads, State.firstUnwritten_cons_written (by rw [State.isWritten_byte, hzero]; rfl), if_pos hzero]
      exact ih hdn fun j h1 h2 => hz j h1 (Nat.lt_succ_of_lt h2)
    · rfl

/-- Below the zeros the scan of the block from byte `c` on stops at an unwritten byte, and the copy before a
marker at the first unwritten one. -/
theorem firstUnwritten_scanReads {c n m k : Nat} (hm1 : c ≤ m) (hm2 : m < c + n)
    (hz : ∀ j, m < j → j < c + n → s.mem.read (inBase + j) = some 0x00#8)
    (h : (k = m ∧ s.mem.read (inBase + m) = none) ∨
      (s.mem.read (inBase + m) = some 0x80#8 ∧ k < m ∧ s.mem.read (inBase + k) = none ∧
        ∀ j, j < k → s.mem.read (inBase + j) ≠ none)) :
    s.firstUnwritten (scanReads s.mem (inBase + c) n) = some (.byte (inBase + k)) := by
  obtain ⟨d, rfl⟩ := Nat.exists_eq_add_of_le hm1
  have hzeros : ∀ j, d < j → j < n → s.mem.read (inBase + c + j) = some 0x00#8 := fun j h1 h2 => by
    rw [Nat.add_assoc]; exact hz (c + j) (by omega) (by omega)
  rw [firstUnwritten_scanReads_zeros (by omega) hzeros, scanReads, Nat.add_assoc inBase c d]
  rcases h with ⟨rfl, hn⟩ | ⟨hm, hk, hn, hw⟩
  · exact State.firstUnwritten_cons_unwritten (by rw [State.isWritten_byte, hn]; rfl)
  · rw [State.firstUnwritten_cons_written (by rw [State.isWritten_byte, hm]; rfl), if_neg (by simp [hm]), if_pos hm]
    exact State.firstUnwritten_bytesFrom (by omega) hn hw

/-! ## Where a host read stops -/

theorem readWord_stops {a k : Nat} (hk : k < 4) (hn : s.mem.read (a + k) = none)
    (hw : ∀ j, j < k → s.mem.read (a + j) ≠ none) : readWord s a = .error (s.unwrittenByte (a + k)) := by
  rw [readWord, Memory.readBytes_stops hk hn hw]

/-- Only a read of a buffer word, served as it stands, stops. -/
theorem hostRead_error {a : Nat} {e : Fault} (h : hostRead (locate s.config.msgCap a) s = .error e) :
    s.servesBuffer a ∧ readWord s a = .error e := by
  have hmap : ∀ x : Except Fault Word, x.map (fun v => (v, s)) = .error e → x = .error e := by
    rintro (f | v) hx
    · exact congrArg _ (Except.error.inj hx)
    · cases hx
  cases hl : locate s.config.msgCap a with
  | inBuf i =>
    obtain ⟨h1, h2, hi⟩ := locate_eq_inBuf hl
    rw [hl, hostRead, hi, Nat.add_sub_cancel' h1] at h
    exact ⟨.inl ⟨h1, h2⟩, hmap _ h⟩
  | outBuf i =>
    obtain ⟨h1, h2, hi⟩ := locate_eq_outBuf hl
    rw [hl, hostRead, hi, Nat.add_sub_cancel' h1] at h
    cases hp : s.phase with
    | busy => rw [if_pos hp] at h; cases h
    | idle => rw [if_neg (by simp [hp])] at h; exact ⟨.inr ⟨hp, h1, h2⟩, hmap _ h⟩
  | dout | subkeys | lenOut => rw [hl, hostRead] at h; split at h <;> cases h
  | _ => rw [hl] at h; cases h

/-- Only an aligned read stops. -/
theorem hostAccess_fault {acc : Access} {e : Fault} (h : hostAccess acc s = .fault e) :
    ∃ a : BitVec 14, acc = readAt a ∧ a.toNat % 4 = 0 ∧ hostRead (locate s.config.msgCap a.toNat) s = .error e := by
  cases hw : acc.wellFormed with
  | false => rw [hostAccess_busError s hw] at h; cases h
  | true =>
    obtain ⟨addr, width, kind⟩ := acc
    have halign := Access.aligned_of_wellFormed hw
    obtain rfl : width = 32 := by simpa using (Bool.and_eq_true_iff.1 hw).1
    cases kind with
    | write v => rw [← writeAt, hostAccess_writeAt v s halign] at h; cases h
    | read =>
      rw [← readAt, hostAccess_readAt s halign] at h
      refine ⟨addr, rfl, halign, ?_⟩
      split at h
      · rename_i f hr
        cases h
        exact hr
      · cases h

end Sys2Proof.Machine

open Sys2Proof Sys2Proof.Machine

/-- Settles O59: a command reads exactly `commandReads`, so it stops where the first unwritten datum of that list is
found and a byte of it is unwritten; the ranges, the scan and the host's words say where that is. -/
theorem commandsStopOnlyAtUnwrittenBytes : Obligations.CommandsStopOnlyAtUnwrittenBytes := by
  refine ⟨fun i s => ?_, fun i s base n k hr hf hreg h hk hn hw => ?_, fun p s k m hr hf hc hl hm1 hm2 hz h => ?_,
    fun s t a hc ht ha hb k hk hn hw => ?_, fun s t acc e ht h => ?_, fun s t e ht hd => ?_⟩
  · have hreads := exec_readsExactly i s
    refine ⟨hreads.not_refused, fun l r x a hs hl hx ha hn => ?_, fun e he => ?_⟩
    · exact hreads.fault_of_first (hs ▸ State.firstUnwritten_of_split hl hx) ha hn
    · rw [he] at hreads
      obtain ⟨a, _, ha, hn, _⟩ := hreads
      exact ⟨a, ha, hn, byte_mem_commandReads ha⟩
  · obtain ⟨l, hreads, hl⟩ := commandReads_range hr h
    have hwritten : s.firstUnwritten l = none :=
      State.firstUnwritten_eq_none.2 fun x hx => hreg x fun a ha => hl a (ha ▸ hx)
    have hfirst : s.firstUnwritten (commandReads i s) = some (.byte (base + k)) := by
      rw [hreads, s.firstUnwritten_append, hwritten, State.firstUnwritten_bytesFrom hk hn hw]; rfl
    rw [(exec_readsExactly i s).fault_of_first_byte hfirst, hf]; rfl
  · have hend : s.lenIn.toNat - Prim.blockBytes p + Prim.blockBytes p = s.lenIn.toNat :=
      Nat.sub_add_cancel (blockBytes_le_lenIn hl)
    have hreads := commandReads_unpadScan hr hc hl
    have hfirst := firstUnwritten_scanReads hm1 (hend.symm ▸ hm2) (hend.symm ▸ hz) h
    rw [(exec_readsExactly _ s).fault_of_first_byte (hreads ▸ hfirst), hf]; rfl
  · rw [step_of_hostTurn ht, hostAccess_readAt t ha, hostRead_buffer hc hb, readWord_stops hk hn hw]; rfl
  · obtain ⟨a, rfl, ha, hr⟩ := hostAccess_fault (step_of_hostTurn ht ▸ h)
    obtain ⟨hb, hword⟩ := hostRead_error hr
    obtain ⟨k, hk, hn, _⟩ := readWord_error hword
    exact ⟨a, rfl, ha, ⟨k, hk, hn⟩, hb⟩
  · rw [step_of_coreTurn ht, coreStep_of_illegal hd]
    rcases illegalCommand_cases t with ⟨_, h⟩ | ⟨_, h⟩ <;> exact ⟨_, h⟩

end

section
/-! The decoder against the rows of the opcode map (R103): a word decodes to the command of its row, and the rows are
the encoder's words and those R105 leaves legal. -/

namespace Sys2Proof

variable {w : BitVec 32} {i : Instr}

/-- The command of a row under a PRIM bit (R103). -/
def CommandRow.command (r : CommandRow) (prim : Bool) : Option Instr := if prim then r.ext else some r.toy

/-- A row of the map is the row of a word: it has the word's OP and DIR (R100, R104). -/
def CommandRow.rowOf (r : CommandRow) (w : BitVec 32) : Prop :=
  r ∈ commandRows ∧ r.op = w.extractLsb' 0 6 ∧ r.dir = w.getLsbD 8

/-! ## What the decoder answers -/

/-- A word that decodes has no reserved bit set, and a row that gives its command. -/
theorem decode_ok (h : decode w = .ok i) :
    w.extractLsb' 10 22 = 0 ∧ w.extractLsb' 6 2 = 0 ∧ ∃ r : CommandRow, r.rowOf w ∧ r.command (w.getLsbD 9) = some i := by
  unfold decode at h
  split at h
  · cases h
  · rename_i hres
    obtain ⟨hhi, hlo⟩ : w.extractLsb' 10 22 = 0 ∧ w.extractLsb' 6 2 = 0 := by simpa using hres
    split at h
    · cases h
    · rename_i r hr
      have hrow : r.rowOf w := ⟨List.mem_of_find?_eq_some hr, by simpa using List.find?_some hr⟩
      refine ⟨hhi, hlo, r, hrow, ?_⟩
      unfold CommandRow.command
      split at h
      · split at h <;> cases h
        rw [if_pos ‹_›]; assumption
      · cases h
        rw [if_neg ‹_›]

/-- A word that does not decode has a reserved bit set, no row, or PRIM = 1 on a row that does not take it. -/
theorem decode_error {e : IllegalWord} (h : decode w = .error e) :
    ¬(w.extractLsb' 10 22 = 0 ∧ w.extractLsb' 6 2 = 0) ∨ (∀ r : CommandRow, ¬r.rowOf w) ∨
    ∃ r : CommandRow, r.rowOf w ∧ w.getLsbD 9 = true ∧ r.ext = none := by
  unfold decode at h
  split at h
  · rename_i hres
    exact .inl (by simpa [imp_iff_not_or] using hres)
  · split at h
    · rename_i hnone
      exact .inr (.inl fun r hr => by simpa [hr.2] using List.find?_eq_none.1 hnone r hr.1)
    · rename_i r hr
      have hrow : r.rowOf w := ⟨List.mem_of_find?_eq_some hr, by simpa using List.find?_some hr⟩
      split at h
      · rename_i hprim
        split at h
        · cases h
        · rename_i hext
          exact .inr (.inr ⟨r, hrow, hprim, hext⟩)
      · cases h

/-! ## Decoding and encoding -/

theorem ofBool_getLsbD {n : Nat} (v : BitVec n) (k : Nat) : BitVec.ofBool (v.getLsbD k) = v.extractLsb' k 1 := by
  ext j hj
  simp [show j = 0 by omega]

/-- A word is its fields put together where its reserved bits are clear (R100). -/
theorem eq_commandWord_of_reserved (hhi : w.extractLsb' 10 22 = 0) (hlo : w.extractLsb' 6 2 = 0) :
    w = commandWord (w.extractLsb' 0 6) (w.getLsbD 8) (w.getLsbD 9) := by
  symm
  calc commandWord (w.extractLsb' 0 6) (w.getLsbD 8) (w.getLsbD 9)
    _ = w.extractLsb' 10 22 ++ w.extractLsb' 9 1 ++ w.extractLsb' 8 1 ++ w.extractLsb' 6 2 ++ w.extractLsb' 0 6 := by
      rw [commandWord, ofBool_getLsbD, ofBool_getLsbD, hhi, hlo]; rfl
    _ = w.extractLsb' 0 32 := by simp only [BitVec.extractLsb'_append_extractLsb'_eq_extractLsb']
    _ = w := BitVec.extractLsb'_eq_self

/-- The encoder's word of a row's command has the row's OP and DIR, and the PRIM that selects the command (R103). -/
theorem encode_of_row {r : CommandRow} (hr : r ∈ commandRows) {prim : Bool} (h : r.command prim = some i) :
    encode i = commandWord r.op r.dir prim := by
  have hrows : ∀ r ∈ commandRows, ∀ prim, ∀ i ∈ r.command prim, encode i = commandWord r.op r.dir prim := by decide
  exact hrows r hr prim i h

theorem decode_encode (i : Instr) : decode (encode i) = .ok i := by
  cases i with
  | pad p | unpadScan p | ecbEnc p | ecbDec p | cbcEnc p | cbcDec p | cfbEnc p | cfbDec p | ctrEnc p | ctrDec p =>
    cases p <;> rfl
  | _ => rfl

theorem decode_eq_ok_iff : decode w = .ok i ↔ w = encode i := by
  refine ⟨fun h => ?_, fun h => h ▸ decode_encode i⟩
  obtain ⟨hhi, hlo, r, ⟨hr, hop, hdir⟩, hi⟩ := decode_ok h
  rw [encode_of_row hr hi, hop, hdir]
  exact eq_commandWord_of_reserved hhi hlo

/-! ## The illegal words (R105) -/

theorem wordOp_eq (w : Word) : wordOp w = (w.extractLsb' 0 6).toNat := by simp [wordOp]

theorem reserved_of_wordReservedClear (h : wordReservedClear w = true) :
    w.extractLsb' 10 22 = 0 ∧ w.extractLsb' 6 2 = 0 := by
  obtain ⟨hhi, hlo⟩ : w.toNat / 1024 = 0 ∧ w.toNat / 64 % 4 = 0 := by simpa [wordReservedClear] using h
  constructor <;> apply BitVec.eq_of_toNat_eq <;> simp [Nat.shiftRight_eq_div_pow, hhi, hlo]

/-- Every assigned OP has a row for each DIR that R105 allows it. -/
theorem exists_rowOf (ho : wordOpAssigned w = true) (hd : wordDirAllowed w = true) : ∃ r : CommandRow, r.rowOf w := by
  simp only [wordOpAssigned, wordDirAllowed, wordOp_eq] at ho hd
  simp only [CommandRow.rowOf]
  generalize w.extractLsb' 0 6 = op at *
  generalize w.getLsbD 8 = dir at *
  revert op dir
  decide

/-- A row whose PRIM must be 0 has an OP that R105 lists so. -/
theorem wordPrimAllowed_of_no_ext {r : CommandRow} (hr : r.rowOf w) (hp : w.getLsbD 9 = true) (he : r.ext = none) :
    wordPrimAllowed w = false := by
  have hrows : ∀ r ∈ commandRows, r.ext = none →
      ((0x01 ≤ r.op.toNat && r.op.toNat ≤ 0x09) || r.op.toNat == 0x0B || r.op.toNat == 0x0D) = true := by decide
  obtain ⟨hmem, hop, _⟩ := hr
  rw [wordPrimAllowed, wordOp_eq, ← hop, hp, hrows r hmem he]
  rfl

theorem wordWellFormed_encode (i : Instr) : wordWellFormed (encode i) = true := by
  open Laws.EncodeLegal in
  cases i with
  | permIp => exact permIp
  | permIpinv => exact permIpinv
  | permEp => exact permEp
  | permP4 => exact permP4
  | sbox0 => exact sbox0
  | sbox1 => exact sbox1
  | roundF => exact roundF
  | keysched => exact keysched
  | toyEnc => exact toyEnc
  | toyDec => exact toyDec
  | pad p => exact pad p
  | unpadLen => exact unpadLen
  | unpadScan p => exact unpadScan p
  | xfer => exact xfer
  | ecbEnc p => exact ecbEnc p
  | ecbDec p => exact ecbDec p
  | cbcEnc p => exact cbcEnc p
  | cbcDec p => exact cbcDec p
  | cfbEnc p => exact cfbEnc p
  | cfbDec p => exact cfbDec p
  | ctrEnc p => exact ctrEnc p
  | ctrDec p => exact ctrDec p

theorem wordWellFormed_of_decode_error {e : IllegalWord} (h : decode w = .error e) : wordWellFormed w = false := by
  by_contra hwf
  obtain ⟨hres, hop, hdir, hprim⟩ :
      wordReservedClear w = true ∧ wordOpAssigned w = true ∧ wordDirAllowed w = true ∧ wordPrimAllowed w = true := by
    simpa [wordWellFormed] using hwf
  rcases decode_error h with hset | hnone | ⟨r, hr, hp, he⟩
  · exact hset (reserved_of_wordReservedClear hres)
  · obtain ⟨r, hr⟩ := exists_rowOf hop hdir
    exact hnone r hr
  · rw [wordPrimAllowed_of_no_ext hr hp he] at hprim
    cases hprim

/-- The words that decode to no command are those R105 lists. -/
theorem decode_error_iff : (∃ e, decode w = .error e) ↔ wordWellFormed w = false := by
  refine ⟨fun ⟨e, h⟩ => wordWellFormed_of_decode_error h, fun h => ?_⟩
  cases hd : decode w with
  | error e => exact ⟨e, rfl⟩
  | ok i => rw [decode_eq_ok_iff.1 hd, wordWellFormed_encode] at h; cases h

end Sys2Proof

open Sys2Proof Sys2Proof.Machine

/-- Settles O2: a word that decodes has the fields of its command's row, which are the encoder's. -/
theorem decodeInvertsEncode : Obligations.DecodeInvertsEncode := fun _ _ => decode_eq_ok_iff

/-- Settles O1: each word of the map is the encoder's word of its command. -/
theorem commandWordsOfTheMap : Obligations.CommandWordsOfTheMap := by
  simp only [Obligations.CommandWordsOfTheMap, decode_eq_ok_iff]
  decide

/-- Settles O3: the illegal words are `decode_error_iff`, and with FAULT = 0 the core's step for one raises
IllegalCommand. -/
theorem illegalWordsChangeOnlyStatus : Obligations.IllegalWordsChangeOnlyStatus := by
  refine ⟨fun w => decode_error_iff, fun s t ht hf hw => ?_, by decide⟩
  obtain ⟨e, he⟩ := decode_error_iff.2 hw
  rw [step_of_coreTurn ht, coreStep_of_illegal he]
  rcases illegalCommand_cases t with ⟨hfault, _⟩ | ⟨_, hraise⟩
  · rw [hf] at hfault; cases hfault
  · exact hraise

end

section
/-! The register frame of a command (R102): what each way a command can end leaves as it was. -/

namespace Sys2Proof.Machine

variable {s u : State}

/-- Noted reads change `modelFault` alone, and not where a fault is recorded already (R268). -/
theorem State.noted.eq_withModelFault (h : s.noted u) :
    ∃ f, u = { s with modelFault := f } ∧ (s.modelFault ≠ none → f = s.modelFault) :=
  ⟨u.modelFault, h.1, h.2.1⟩

/-- No component command is a mode command (R102). -/
theorem not_isMode_of_writesDout {i : Instr} (h : i.writesDout) : ¬i.isMode := by
  refine not_isMode fun p => ?_
  revert i
  simp [Instr.writesDout]

end Sys2Proof.Machine

open Sys2Proof Sys2Proof.Machine

/-- Settles O8, by the ways a command that answers a next state can have ended. -/
theorem commandRegisterFrame : Obligations.CommandRegisterFrame := by
  intro i s t h
  cases exec_next h with
  | failed u e hu _ =>
    obtain ⟨f, rfl, hf⟩ := hu.eq_withModelFault
    exact ⟨by simp, fun _ => ⟨rfl, rfl⟩, rfl, fun _ => rfl, fun _ => rfl, fun _ => rfl, fun _ => nofun, hf⟩
  | answered u v hu hw _ =>
    obtain ⟨f, rfl, hf⟩ := hu.eq_withModelFault
    exact ⟨by simp [State.answered], fun hn => absurd hw hn, rfl, fun _ => rfl, fun _ => rfl, fun _ => rfl,
      fun hm => absurd hm (not_isMode_of_writesDout hw), hf⟩
  | scheduled u hu hi =>
    obtain ⟨f, rfl, hf⟩ := hu.eq_withModelFault
    have hw : i.writesDout := by simp [hi, Instr.writesDout]
    exact ⟨by simp [State.answered], fun hn => absurd hw hn, rfl, fun hn => absurd hi hn, fun _ => rfl, fun _ => rfl,
      fun hm => absurd hm (not_isMode_of_writesDout hw), hf⟩
  | emitted u out hu hw _ hlen =>
    obtain ⟨f, rfl, hf⟩ := hu.eq_withModelFault
    exact ⟨by simp, fun _ => ⟨rfl, rfl⟩, rfl, fun _ => rfl, fun hn => absurd hw hn, fun _ => rfl,
      fun hm _ => by simp [hlen hm], hf⟩
  | loaded m hi _ _ =>
    exact ⟨by simp, fun _ => ⟨rfl, rfl⟩, rfl, fun _ => rfl, fun _ => rfl, fun hn => absurd hi hn,
      fun hm => absurd (hi ▸ hm) (not_isMode (by simp)), fun _ => rfl⟩

end

section
/-! The permutation primitive position by position (R130), and the PERM commands over it (R134 to R137). -/

namespace Sys2Proof.Machine

theorem ofNat_concat_bit (n k : Nat) (b : Bool) :
    BitVec.ofNat (n + 1) (2 * k + b.toNat) = (BitVec.ofNat n k).concat b := by
  have hb : b.toNat < 2 := b.toNat_lt
  have hmod : (2 * k + b.toNat) % 2 = b.toNat := by omega
  have hdiv : (2 * k + b.toNat) / 2 = k := by omega
  apply BitVec.eq_of_toNat_eq
  rw [BitVec.toNat_concat, BitVec.toNat_ofNat, BitVec.toNat_ofNat, Nat.pow_succ', Nat.mod_mul, hmod, hdiv]
  ring

/-- Each further table entry puts the bit it names after the bits so far. -/
theorem permute_append_singleton {w : Nat} (n : Nat) (x : BitVec w) (t : List Nat) (p : Nat) :
    permute (n + 1) x (t ++ [p]) = (permute n x t).concat (x.getMsbD p) := by
  rw [permute, List.foldl_concat, ofNat_concat_bit, permute]

/-- R130 needs no range: a position past the input's width reads as 0 on both sides. -/
theorem getMsbD_permute {w : Nat} (x : BitVec w) {t : List Nat} {n i : Nat} (hn : t.length = n) (h : i < t.length) :
    (permute n x t).getMsbD i = x.getMsbD t[i] := by
  induction t using List.reverseRecOn generalizing n with
  | nil => cases h
  | append_singleton t p ih =>
    obtain rfl : n = t.length + 1 := by simpa using hn.symm
    rw [permute_append_singleton, BitVec.getMsbD_concat]
    split
    · rename_i hi
      rw [ih rfl hi, List.getElem_append_left hi]
    · rename_i hi
      obtain rfl : i = t.length := by simp at h; omega
      simp

/-- A component command whose operand fits and whose result is a function of it and the configuration (R270, R271). -/
theorem dinCommand_answered {s : State} {n w : Nat} (hf : s.status.fault = false)
    (hd : s.din.extractLsb' n (32 - n) = 0) (f : BitVec n → Config → BitVec w) :
    command .toy s (fun s => withDin n s fun x s => (s.setDout (f x s.config)).succeed) =
      .next ((s.noteRead .din).answered ((f (s.din.extractLsb' 0 n) s.config).setWidth 32)) := by
  rw [command_toy hf, withDin_of_clear hd, State.noteRead_config]
  rfl

end Sys2Proof.Machine

open Sys2Proof Sys2Proof.Machine

/-- Settles O10, by the table's last entry being the output's last bit (`permute_append_singleton`). -/
theorem permutePositions : Obligations.PermutePositions := fun _ x _ _ _ h => getMsbD_permute x rfl h

/-- Settles O11: each command is `dinCommand_answered` over its own table. -/
theorem permutationCommands : Obligations.PermutationCommands := by
  intro s hf
  refine ⟨fun hd => ⟨?_, ?_⟩, fun hd => ⟨?_, ?_⟩⟩
  · rw [exec_permIp]
    exact dinCommand_answered hf hd fun x c => permute 8 x c.tbl.ip
  · rw [exec_permIpinv]
    exact dinCommand_answered hf hd fun x c => permute 8 x c.tbl.ipinv
  · rw [exec_permEp]
    exact dinCommand_answered hf hd fun x c => permute 8 x c.tbl.ep
  · rw [exec_permP4]
    exact dinCommand_answered hf hd fun x c => permute 4 x c.tbl.p4

end

section
/-! The substitution primitive by row and column (R150), and the S-box commands over it (R152, R153). -/

namespace Sys2Proof.Machine

/-- Two bits make an index into four entries. -/
theorem two_mul_toNat_add_toNat_lt (b c : Bool) : 2 * b.toNat + c.toNat < 4 := by
  have hb := b.toNat_lt
  have hc := c.toNat_lt
  omega

/-- The bits of a nibble, the first the most significant. -/
theorem getMsbD_append_ofBool (b0 b1 b2 b3 : Bool) :
    let n : Half := BitVec.ofBool b0 ++ BitVec.ofBool b1 ++ BitVec.ofBool b2 ++ BitVec.ofBool b3
    n.getMsbD 0 = b0 ∧ n.getMsbD 1 = b1 ∧ n.getMsbD 2 = b2 ∧ n.getMsbD 3 = b3 := by
  revert b0 b1 b2 b3
  decide

/-- The outer bits of the operand choose the row and the inner ones the column (R150). -/
theorem substitute_append_ofBool (b0 b1 b2 b3 : Bool) (box : List (List Nat)) :
    substitute (BitVec.ofBool b0 ++ BitVec.ofBool b1 ++ BitVec.ofBool b2 ++ BitVec.ofBool b3) box =
      BitVec.ofNat 2 ((box.getD (2 * b0.toNat + b3.toNat) []).getD (2 * b1.toNat + b2.toNat) 0) := by
  obtain ⟨h0, h1, h2, h3⟩ := getMsbD_append_ofBool b0 b1 b2 b3
  rw [substitute, h0, h1, h2, h3]

end Sys2Proof.Machine

open Sys2Proof Sys2Proof.Machine

/-- Settles O12: both indices are below 4, so the row and the entry exist, and an entry below 4 is kept by 2 bits. -/
theorem substituteRowAndColumn : Obligations.SubstituteRowAndColumn := by
  intro b0 b1 b2 b3 box hbox hrows
  have hrow : 2 * b0.toNat + b3.toNat < box.length := hbox ▸ two_mul_toNat_add_toNat_lt b0 b3
  obtain ⟨hlen, hentries⟩ := hrows _ (List.getElem_mem hrow)
  have hcol : 2 * b1.toNat + b2.toNat < box[2 * b0.toNat + b3.toNat].length :=
    hlen ▸ two_mul_toNat_add_toNat_lt b1 b2
  refine ⟨_, _, List.getElem?_eq_getElem hrow, List.getElem?_eq_getElem hcol, ?_⟩
  rw [substitute_append_ofBool, List.getD_eq_getElem _ _ hrow, List.getD_eq_getElem _ _ hcol, BitVec.toNat_ofNat,
    Nat.mod_eq_of_lt (hentries _ (List.getElem_mem hcol))]

/-- Settles O13: each command is `dinCommand_answered` over its own S-box. -/
theorem substitutionCommands : Obligations.SubstitutionCommands := by
  intro s hf hd
  refine ⟨?_, ?_⟩
  · rw [exec_sbox0]
    exact dinCommand_answered hf hd fun x c => substitute x c.tbl.s0
  · rw [exec_sbox1]
    exact dinCommand_answered hf hd fun x c => substitute x c.tbl.s1

end

section
/-! The round function by its stages (R160), and ROUND_F over it (R161). -/

namespace Sys2Proof.Machine

/-- Operands of DIN and DIN2 that both fit. -/
theorem withDinDin2_of_clear {n m : Nat} {s : State} (hd : s.din.extractLsb' n (32 - n) = 0)
    (hd2 : s.din2.extractLsb' m (32 - m) = 0) (body : BitVec n → BitVec m → State → Result) :
    withDinDin2 n m s body =
      body (s.din.extractLsb' 0 n) (s.din2.extractLsb' 0 m) ((s.noteRead .din).noteRead .din2) := by
  rcases withDinDin2_cases n m s body with ⟨hw, _⟩ | ⟨_, _, h⟩
  · exact absurd hw (not_or.2 ⟨not_not.2 hd, not_not.2 hd2⟩)
  · exact h

/-- F's stages, the expanded half with the subkey mixed in under a name of its own (R160). -/
theorem roundF_of_mixed (t : Tables) {h : Half} {k : Subkey} {e : BitVec 8} (he : e = permute 8 h t.ep ^^^ k) :
    roundF t h k = permute 4 (substitute (e.extractLsb' 4 4) t.s0 ++ substitute (e.extractLsb' 0 4) t.s1) t.p4 := by
  rw [he, roundF]

/-- ROUND_F with operands that fit: the two noted reads leave the configuration, and so the tables, as they were. -/
theorem exec_roundF_answered {s : State} (hf : s.status.fault = false) (hd : s.din.extractLsb' 4 28 = 0)
    (hd2 : s.din2.extractLsb' 8 24 = 0) :
    exec .roundF s = .next (((s.noteRead .din).noteRead .din2).answered
      ((roundF s.config.tbl (s.din.extractLsb' 0 4) (s.din2.extractLsb' 0 8)).setWidth 32)) := by
  rw [exec_roundF, command_toy hf, withDinDin2_of_clear hd hd2, State.noteRead_config, State.noteRead_config,
    State.succeed, State.setDout_ok_eq]

end Sys2Proof.Machine

open Sys2Proof Sys2Proof.Machine

/-- Settles O14: the stages are `roundF_of_mixed`, and the command's answer is `exec_roundF_answered`. -/
theorem roundFunctionCommand : Obligations.RoundFunctionCommand :=
  ⟨fun t _ _ _ he => roundF_of_mixed t he, fun _ hf hd hd2 => exec_roundF_answered hf hd hd2⟩

end

section
/-! The key schedule: the default subkeys as positions of the key (R171), and KEYSCHED over any KS (R173). -/

namespace Sys2Proof.Machine

/-- The two halves of a 10-bit value, each rotated left by `n` (R171). -/
def rotateHalves (x : BitVec 10) (n : Nat) : BitVec 10 := rol5 (x.extractLsb' 5 5) n ++ rol5 (x.extractLsb' 0 5) n

/-- The position that `rotateHalves x n` takes its position `i` from. -/
def rotatedPosition (n i : Nat) : Nat := if i < 5 then (i + n) % 5 else 5 + (i - 5 + n) % 5

theorem getMsbD_rol5 (x : BitVec 5) {n i : Nat} (hn : n < 5) (hi : i < 5) :
    (rol5 x n).getMsbD i = x.getMsbD ((i + n) % 5) := by
  have hrol : rol5 x n = x.rotateLeft n := by rw [BitVec.rotateLeft_def, Nat.mod_eq_of_lt hn, rol5]
  rw [hrol, BitVec.getMsbD_rotateLeft, decide_eq_true hi, Bool.true_and, Nat.add_comm]

/-- The left half is positions 0 to 4. -/
theorem getMsbD_leftHalf (x : BitVec 10) {i : Nat} (hi : i < 5) : (x.extractLsb' 5 5).getMsbD i = x.getMsbD i := by
  have hpos : 10 - (5 + 5 - i) = i := by omega
  simp [hi, hpos]

/-- The right half is positions 5 to 9. -/
theorem getMsbD_rightHalf (x : BitVec 10) {i : Nat} (hi : i < 5) :
    (x.extractLsb' 0 5).getMsbD i = x.getMsbD (5 + i) := by
  have hpos : 10 - (5 - i) = 5 + i := by omega
  have hle : 5 - i ≤ 10 := by omega
  simp [hi, hpos, hle]

theorem getMsbD_rotateHalves (x : BitVec 10) {n i : Nat} (hn : n < 5) (hi : i < 10) :
    (rotateHalves x n).getMsbD i = x.getMsbD (rotatedPosition n i) := by
  have hmod (k : Nat) : k % 5 < 5 := Nat.mod_lt _ (by decide)
  rw [rotateHalves, rotatedPosition, BitVec.getMsbD_append]
  by_cases h : i < 5
  · rw [if_neg (Nat.not_le.2 h), if_pos h, getMsbD_rol5 _ hn h, getMsbD_leftHalf _ (hmod _)]
  · rw [if_pos (Nat.not_lt.1 h), if_neg h, getMsbD_rol5 _ hn (by omega), getMsbD_rightHalf _ (hmod _)]

/-- The default KS rotates the halves of P10 of the key by 1 for K1 and by 1 + 2 for K2 (R171). -/
theorem standardSchedule_eq (key : ToyKey) : standardSchedule key =
    (permute 8 (rotateHalves (permute 10 key p10) 1) p8, permute 8 (rotateHalves (permute 10 key p10) 3) p8) := by
  have hrol (x : BitVec 5) : rol5 (rol5 x 1) 2 = rol5 x 3 := by revert x; decide
  rw [standardSchedule, hrol, hrol, rotateHalves, rotateHalves]

/-- A position of a subkey is traced back through P8, the rotation and P10 to a position of the key. -/
theorem getMsbD_subkey (key : ToyKey) {n i q : Nat} (hn : n < 5) (hi : i < p8.length)
    (hq : p10[rotatedPosition n p8[i]]? = some q) :
    (permute 8 (rotateHalves (permute 10 key p10) n) p8).getMsbD i = key.getMsbD q := by
  have hp8 : ∀ p ∈ p8, p < 10 := by decide
  obtain ⟨hp, rfl⟩ := List.getElem?_eq_some_iff.1 hq
  rw [getMsbD_permute (n := 8) _ rfl hi, getMsbD_rotateHalves _ hn (hp8 _ (List.getElem_mem hi)),
    getMsbD_permute (n := 10) _ rfl hp]

/-- A listed KS of any function's values is that function (R170). -/
theorem ks_listed_ofFn (f : ToyKey → Subkey × Subkey) (key : ToyKey) :
    ks (.listed (Vector.ofFn fun i => f (BitVec.ofFin i))) key = f key := by
  rw [ks, Vector.getElem_ofFn]
  rfl

end Sys2Proof.Machine

open Sys2Proof Sys2Proof.Machine

/-- Settles O15: the two lists are P8, the rotation and P10 composed, position by position (`getMsbD_subkey`). -/
theorem subkeysSelectKeyBits : Obligations.SubkeysSelectKeyBits := by
  have hk1 : ∀ (i : Nat) (h : i < 8), p10[rotatedPosition 1 p8[i]]? = some ([0, 6, 8, 3, 7, 2, 9, 5][i]) := by decide
  have hk2 : ∀ (i : Nat) (h : i < 8), p10[rotatedPosition 3 p8[i]]? = some ([7, 2, 5, 4, 9, 1, 8, 0][i]) := by decide
  refine ⟨fun key i h => ?_, fun values key => rfl, fun f => ⟨_, ks_listed_ofFn f⟩⟩
  rw [ks, standardSchedule_eq]
  exact ⟨getMsbD_subkey key (by decide) h (hk1 i h), getMsbD_subkey key (by decide) h (hk2 i h)⟩

/-- Settles O16: FAULT is clear and KEYSCHED has no operand to check, so its body runs; the noted read leaves KS and the
key as they were. -/
theorem keyScheduleCommand : Obligations.KeyScheduleCommand := by
  intro s k1 k2 hf hk
  rw [exec_keysched, command_toy hf, State.noteRead_config, State.noteRead_keyToy, hk]
  rfl

end

section
/-! SKVALID = 1 means valid subkeys (R174): a KEY_TOY write and a soft reset clear SKVALID,
KEYSCHED makes SUBKEYS valid, and any other step leaves SUBKEYS, the configuration and KEY_TOY as they were. -/

namespace Sys2Proof.Machine

variable {s t : State}

/-- SUBKEYS with SKVALID cleared, as a KEY_TOY write leaves it: bit 16 is 0 and bits [15:0] are as they were. -/
theorem skvalid_cleared (k : BitVec 17) :
    (0#1 ++ k.extractLsb' 0 16).getLsbD 16 = false ∧
    (0#1 ++ k.extractLsb' 0 16).extractLsb' 0 16 = k.extractLsb' 0 16 :=
  ⟨by rw [BitVec.getLsbD_append]; rfl, BitVec.extractLsb'_append_eq_right⟩

/-! ## What makes SUBKEYS valid -/

/-- Validity speaks of SUBKEYS, the configuration and KEY_TOY only. -/
theorem State.subkeysValid.of_same (h : s.subkeysValid) (hsub : t.subkeys = s.subkeys := by rfl)
    (hcfg : t.config = s.config := by rfl) (hkey : t.keyToy = s.keyToy := by rfl) : t.subkeysValid := by
  unfold State.subkeysValid
  rw [hsub, hcfg, hkey]
  exact h

theorem State.subkeysValid.of_noted (h : s.subkeysValid) (ht : s.noted t) : t.subkeysValid := by
  rw [ht.1]; exact h.of_same

/-- SKVALID = 0 says nothing of SUBKEYS[15:0]. -/
theorem State.subkeysValid_of_clear (h : s.subkeys.getLsbD 16 = false) : s.subkeysValid :=
  fun hv => Bool.noConfusion (h.symm.trans hv)

theorem State.subkeysValid_setSubkeys (s : State) : (s.setSubkeys (ks s.config.ks s.keyToy)).subkeysValid :=
  fun _ => by
    rw [State.setSubkeys_subkeys, BitVec.append_assoc]
    exact BitVec.extractLsb'_append_eq_right

/-! ## What each kind of step keeps -/

theorem exec_keeps_subkeysValid {i : Instr} (h : s.subkeysValid) (ht : exec i s = .next t) : t.subkeysValid := by
  cases exec_next ht with
  | failed u e hu _ => exact (h.of_noted hu).of_same
  | answered u v hu _ _ => exact (h.of_noted hu).of_same
  | scheduled u hu _ =>
    rw [hu.1]
    exact (State.subkeysValid_setSubkeys s).of_same
  | emitted u out hu _ _ _ => exact (h.of_noted hu).of_same
  | loaded m _ _ _ => exact h.of_same

theorem coreStep_keeps_subkeysValid (h : s.subkeysValid) (ht : coreStep s = .next t) : t.subkeysValid := by
  cases hd : decode s.latched with
  | error e =>
    rw [coreStep_of_illegal hd] at ht
    rcases illegalCommand_cases s with ⟨_, h'⟩ | ⟨_, h'⟩ <;> rw [h'] at ht <;> cases ht <;> exact h.of_same
  | ok i =>
    rw [coreStep_of_decode hd] at ht
    exact exec_keeps_subkeysValid h ht

theorem writeIdle_keeps_subkeysValid (h : s.subkeysValid) (l : Loc) (v : Word) : (writeIdle l v s).subkeysValid := by
  cases l with
  | keyToy => exact State.subkeysValid_of_clear (skvalid_cleared s.subkeys).1
  | _ => exact h.of_same

theorem hostWrite_keeps_subkeysValid (h : s.subkeysValid) (l : Loc) (v : Word) : (hostWrite l v s).subkeysValid := by
  unfold hostWrite
  split
  · split
    · exact State.subkeysValid_of_clear BitVec.getLsbD_zero
    · exact h
  · split
    · exact h.of_same
    · split
      · exact h.of_same
      · exact writeIdle_keeps_subkeysValid h l v

theorem hostAccess_keeps_subkeysValid {a : Access} (h : s.subkeysValid) (ht : hostAccess a s = .next t) :
    t.subkeysValid := by
  rcases hostAccess_next ht with rfl | ⟨_, hk, _⟩ | ⟨_, v, _, rfl⟩
  · exact h.of_same
  · rw [hostAccess_read_sameHardware hk ht]
    exact h.of_same
  · exact (hostWrite_keeps_subkeysValid h _ v).of_same

/-- Taking a turn changes the turns alone. -/
theorem State.subkeysValid.of_coreTurn (h : s.subkeysValid) (ht : s.coreTurn t) : t.subkeysValid := by
  obtain ⟨_, ⟨_, rfl⟩ | ⟨rest, _, rfl⟩⟩ := ht
  · exact h
  · exact h.of_same

theorem State.subkeysValid.of_hostTurn {a : Access} (h : s.subkeysValid) (ht : s.hostTurn a t) : t.subkeysValid := by
  obtain ⟨rest, _, rfl⟩ := ht
  exact h.of_same

theorem step_keeps_subkeysValid (h : s.subkeysValid) (ht : step s = .next t) : t.subkeysValid := by
  rcases step_cases s with ⟨u, hu, hs⟩ | ⟨a, u, hu, hs⟩ | ⟨_, rest, hs⟩ <;> rw [hs] at ht
  · exact coreStep_keeps_subkeysValid (h.of_coreTurn hu) ht
  · exact hostAccess_keeps_subkeysValid (h.of_hostTurn hu) ht
  · cases ht
    exact h.of_same

end Sys2Proof.Machine

open Sys2Proof Sys2Proof.Machine

/-- Settles O51: the write is `step_write_idle` at KEY_TOY, and `step_keeps_subkeysValid` is the invariant. -/
theorem keyWriteClearsSkvalid : Obligations.KeyWriteClearsSkvalid := by
  refine ⟨fun s t v h hp => ?_, fun s t => step_keeps_subkeysValid⟩
  obtain ⟨hclear, hkept⟩ := skvalid_cleared t.subkeys
  have hkey : v.setWidth 10 = v.extractLsb' 0 10 := BitVec.setWidth_eq_extractLsb' (by decide)
  rw [← hkey]
  exact ⟨_, hclear, hkept, step_write_idle (l := .keyToy) h hp rfl rfl⟩

end

section
/-! The toy cipher by its rounds (R180, R181), the commands over it (R182, R183), and its round trip (R184). -/

namespace Sys2Proof.Machine

/-- R180 on the halves after IP: round 1 with the half-swap, round 2 without it. -/
theorem feistel_of_halves {t : Tables} {p : Block} {l r r1 : Half} {ka : Subkey} (hip : permute 8 p t.ip = l ++ r)
    (hr1 : r1 = l ^^^ roundF t r ka) (kb : Subkey) :
    feistel t p ka kb = permute 8 ((r ^^^ roundF t r1 kb) ++ r1) t.ipinv := by
  obtain ⟨hleft, hright⟩ := nibbles_of_byte l r
  rw [feistel, hip, hleft, hright, hr1]

theorem toyEncrypt_of_ks {c : Config} {key : ToyKey} {ka kb : Subkey} (h : ks c.ks key = (ka, kb)) (p : Block) :
    toyEncrypt c key p = feistel c.tbl p ka kb := by
  rw [toyEncrypt, h]

theorem toyDecrypt_of_ks {c : Config} {key : ToyKey} {ka kb : Subkey} (h : ks c.ks key = (kb, ka)) (b : Block) :
    toyDecrypt c key b = feistel c.tbl b ka kb := by
  rw [toyDecrypt, h]

/-- Each round undoes itself, so the two rounds with the subkeys in the other order undo the two rounds. The round
function enters as any function would. -/
theorem feistel_feistel {t : Tables} (hinv : ∀ x : Block, permute 8 (permute 8 x t.ip : Block) t.ipinv = x)
    (hip : ∀ x : Block, permute 8 (permute 8 x t.ipinv : Block) t.ip = x) (ka kb : Subkey) (p : Block) :
    feistel t (feistel t p ka kb) kb ka = p := by
  have xor_twice (a f : Half) : (a ^^^ f) ^^^ f = a := by rw [BitVec.xor_assoc, BitVec.xor_self, BitVec.xor_zero]
  obtain ⟨l, r, hp⟩ : ∃ l r : Half, permute 8 p t.ip = l ++ r := ⟨_, _, (byte_of_nibbles _).symm⟩
  obtain ⟨r1, hr1⟩ : ∃ r1, r1 = l ^^^ roundF t r ka := ⟨_, rfl⟩
  calc feistel t (feistel t p ka kb) kb ka
      = feistel t (permute 8 ((r ^^^ roundF t r1 kb) ++ r1) t.ipinv) kb ka := by rw [feistel_of_halves hp hr1]
    _ = permute 8 ((r1 ^^^ roundF t r ka) ++ r) t.ipinv := feistel_of_halves (hip _) (xor_twice r _).symm ka
    _ = permute 8 (permute 8 p t.ip) t.ipinv := by rw [hr1, xor_twice, hp]
    _ = p := hinv p

/-- A toy cipher command whose block fits and whose result is a function of the block, the configuration and KEY_TOY. -/
theorem toyCommand_answered {s : State} (hf : s.status.fault = false) (hd : s.din.extractLsb' 8 24 = 0)
    (f : Block → Config → ToyKey → Block) :
    command .toy s (fun s => withDin 8 s fun x s =>
        ((s.noteRead .keyToy).setDout (f x (s.noteRead .keyToy).config (s.noteRead .keyToy).keyToy)).succeed) =
      .next (((s.noteRead .din).noteRead .keyToy).answered
        ((f (s.din.extractLsb' 0 8) s.config s.keyToy).setWidth 32)) := by
  simp only [command_toy hf, withDin_of_clear hd, State.noteRead_config, State.noteRead_keyToy]
  rfl

/-- The golden values depend on TBL and on the golden key's two subkeys alone (R172, R185). -/
theorem goldenVector_of_subkeys {c : Config} (ht : c.tbl = defaultTables)
    (hk : ks c.ks 0b0111111101#10 = (0b01011111#8, 0b11111100#8)) : goldenVector c = true := by
  simp only [goldenVector, toyEncrypt_of_ks hk, ht]
  decide +kernel

end Sys2Proof.Machine

open Sys2Proof Sys2Proof.Machine

/-- Settles O18: the two subkey orders undo each other in both directions (`feistel_feistel`). R133 item 2 gives that
IPINV undoes IP; that IP undoes IPINV as well follows because IP reaches every block. -/
theorem toyCipherRoundTrip : Obligations.ToyCipherRoundTrip := by
  intro c hbij hinv key
  have hleft : Function.LeftInverse (fun y : Block => (permute 8 y c.tbl.ipinv : Block))
      fun x : Block => permute 8 x c.tbl.ip := hinv
  have hip : ∀ y : Block, permute 8 (permute 8 y c.tbl.ipinv : Block) c.tbl.ip = y :=
    hleft.rightInverse_of_surjective hbij.surjective
  have hdec : ∀ p, toyDecrypt c key (toyEncrypt c key p) = p := feistel_feistel hinv hip _ _
  have henc : ∀ b, toyEncrypt c key (toyDecrypt c key b) = b := feistel_feistel hinv hip _ _
  exact ⟨hdec, Function.bijective_iff_has_inverse.2 ⟨toyDecrypt c key, hdec, henc⟩⟩

/-- Settles O17: the rounds are `feistel_of_halves` with the subkeys in either order, and each command is
`toyCommand_answered` over its own direction. -/
theorem toyCommands : Obligations.ToyCommands := by
  refine ⟨fun c key b ka kb l0 r0 l1 r1 l2 r2 hip hl1 hr1 hl2 hr2 => ?_, fun s hf hd => ⟨?_, ?_⟩⟩
  · subst hl1 hl2 hr2
    have hrounds := feistel_of_halves hip.symm hr1 kb
    exact ⟨fun hk => (toyEncrypt_of_ks hk b).trans hrounds, fun hk => (toyDecrypt_of_ks hk b).trans hrounds⟩
  · rw [exec_toyEnc]
    exact toyCommand_answered hf hd fun x c key => toyEncrypt c key x
  · rw [exec_toyDec]
    exact toyCommand_answered hf hd fun x c key => toyDecrypt c key x

/-- Settles O19: the default KS gives the golden key those two subkeys, so its values are those of any such KS
(`goldenVector_of_subkeys`). -/
theorem goldenVector : Obligations.GoldenVector := by
  have hdefault : Machine.goldenVector defaultConfig = true := goldenVector_of_subkeys rfl (by decide)
  exact ⟨of_decide_eq_true hdefault, fun _ => goldenVector_of_subkeys⟩

end

section
/-! Padding, its removal and XFER (R200 to R205): the padded length as a multiple of the block size, the marker scan
over the bytes that stand in a block, and each buffer command as one equation where its checks pass. -/

namespace Sys2Proof.Machine

variable {s : State} {p : Prim} {m : List Byte}

/-! ## The padded length (R200) -/

theorem pad_length_eq_mul {b : Nat} (hb : 0 < b) (m : List Byte) : (pad b m).length = b * (m.length / b + 1) := by
  have hdiv := Nat.div_add_mod m.length b
  have hmod := Nat.mod_lt m.length hb
  rw [pad_length b m hb, Nat.mul_succ]
  omega

theorem pad_length_mod {b : Nat} (hb : 0 < b) (m : List Byte) : (pad b m).length % b = 0 := by
  rw [pad_length_eq_mul hb, Nat.mul_mod_right]

theorem length_lt_pad_length {b : Nat} (hb : 0 < b) (m : List Byte) : m.length < (pad b m).length := by
  rw [pad_length_eq_mul hb]
  exact Nat.lt_mul_div_succ _ hb

/-- A multiple of `b` above the message's length has a quotient above the message's. -/
theorem pad_length_le {b n : Nat} (hb : 0 < b) (hn : n % b = 0) (hlt : m.length < n) : (pad b m).length ≤ n := by
  obtain ⟨k, rfl⟩ := Nat.dvd_of_mod_eq_zero hn
  rw [pad_length_eq_mul hb]
  exact Nat.mul_le_mul_left b (Nat.div_lt_of_lt_mul hlt)

theorem padZeros_lt {b : Nat} (hb : 0 < b) (n : Nat) : padZeros b n < b := by
  unfold padZeros
  omega

/-! ## Bytes that stand one list after another -/

theorem Memory.holds_append {mem : Memory} {a : Nat} {xs ys : List Byte} :
    mem.holds a (xs ++ ys) ↔ mem.holds a xs ∧ mem.holds (a + xs.length) ys := by
  induction xs generalizing a with
  | nil => simp [Memory.holds]
  | cons x xs ih =>
    rw [List.cons_append, Memory.holds_cons, Memory.holds_cons, ih, List.length_cons, and_assoc, Nat.add_assoc,
      Nat.add_comm 1]

/-! ## The scan for the marker (R203) -/

/-- One step of the scan, from the last byte of a list down. -/
theorem scanMarker_concat {mem : Memory} {lo : Nat} {bs : List Byte} {b : Byte} (h : mem.holds lo (bs ++ [b])) :
    scanMarker mem lo (bs ++ [b]).length =
      if b = 0x00#8 then scanMarker mem lo bs.length else if b = 0x80#8 then .ok (some bs.length) else .ok none := by
  obtain ⟨_, hlast⟩ := Memory.holds_append.1 h
  obtain ⟨hb, _⟩ := Memory.holds_cons.1 hlast
  rw [List.length_append, List.length_singleton, scanMarker, hb]

theorem scanMarker_of_marker {mem : Memory} {lo : Nat} {x : List Byte} {z : Nat}
    (h : mem.holds lo (x ++ 0x80#8 :: List.replicate z 0x00#8)) :
    scanMarker mem lo (x ++ 0x80#8 :: List.replicate z 0x00#8).length = .ok (some x.length) := by
  induction z with
  | zero => exact scanMarker_concat h
  | succ z ih =>
    rw [List.replicate_succ', ← List.cons_append, ← List.append_assoc] at h ⊢
    rw [scanMarker_concat h, if_pos rfl]
    exact ih (Memory.holds_append.1 h).1

theorem scanMarker_of_no_marker {mem : Memory} {lo : Nat} {bs : List Byte} (h : mem.holds lo bs)
    (hno : ∀ x z, bs ≠ x ++ 0x80#8 :: List.replicate z 0x00#8) : scanMarker mem lo bs.length = .ok none := by
  induction bs using List.reverseRecOn with
  | nil => rfl
  | append_singleton bs b ih =>
    rw [scanMarker_concat h]
    split
    · rename_i hzero
      refine ih (Memory.holds_append.1 h).1 fun x z hbs => hno x (z + 1) ?_
      rw [hzero, hbs, List.replicate_succ', List.append_assoc, List.cons_append]
    · split
      · rename_i hmark
        exact absurd (by rw [hmark]; rfl) (hno bs 0)
      · rfl

/-! ## The commands where their checks pass -/

/-- What PAD, UNPAD_LEN and UNPAD_SCAN end with is what `emits` says. -/
theorem State.emits_emit (s : State) (out : List Byte) : s.emits out (s.emit out).succeed :=
  ⟨_, s.mem.writeBytes_stored outBase out, rfl⟩

/-- PAD of a message whose padded length fits (R201). -/
theorem exec_pad_of_message (hr : s.ready p) (hm : s.hasMessage m)
    (hc : (pad (Prim.blockBytes p) m).length ≤ s.config.msgCap) :
    exec (.pad p) s = (s.emit (pad (Prim.blockBytes p) m)).succeed := by
  obtain ⟨hlen, hbytes⟩ := hm
  have hlt := length_lt_pad_length (Prim.blockBytes_pos p) m
  rw [pad_length _ m (Prim.blockBytes_pos p), hlen] at hc hlt
  rw [exec_pad, command_of_ready hr, withLength_of_le (by omega), if_neg (Nat.not_lt.2 hc),
    withBytes_of_holds hlen hbytes]

/-- UNPAD_LEN reads DIN and the first DIN bytes (R202). -/
theorem exec_unpadLen_of_holds (hr : s.ready .toy) (hc : s.lenIn.toNat ≤ s.config.msgCap)
    (hd : s.din.toNat ≤ s.lenIn.toNat) (hl : m.length = s.din.toNat) (hm : s.mem.holds inBase m) :
    exec .unpadLen s = ((s.noteRead .din).emit m).succeed := by
  rw [exec_unpadLen, command_of_ready hr, withLength_of_le hc, State.noteRead_din, if_neg (Nat.not_lt.2 hd),
    withBytes_of_holds hl (by rwa [State.noteRead_mem])]

/-- XFER of the bytes that stand in OUT_BUF (R204). -/
theorem exec_xfer_of_holds (hr : s.ready .toy) (hl : m.length = s.lenOut.toNat) (hm : s.mem.holds outBase m) :
    exec .xfer s = (s.load m s.lenOut).succeed := by
  rw [exec_xfer, command_of_ready hr, withBytes_of_holds hl hm]

/-- UNPAD_SCAN goes on from what the scan of the last block answers (R203). -/
theorem exec_unpadScan_of_block {pre block : List Byte} (hr : s.ready p) (hc : s.lenIn.toNat ≤ s.config.msgCap)
    (hl : ¬lengthInvalid s (.unpadScan p)) (hm : s.hasMessage (pre ++ block))
    (hb : block.length = Prim.blockBytes p) :
    exec (.unpadScan p) s = scanOutcome s pre.length (scanMarker s.mem (inBase + pre.length) block.length) := by
  have hpre : s.lenIn.toNat - Prim.blockBytes p = pre.length := by
    rw [← hm.1, List.length_append, hb, Nat.add_sub_cancel]
  rw [exec_unpadScan, command_of_ready hr, withLength_of_le hc, ← hpre, hb]
  exact if_neg hl

/-- A marker in the last block: the bytes before it are the output (R203). -/
theorem exec_unpadScan_of_marker {x : List Byte} {z : Nat} (hr : s.ready p) (hc : s.lenIn.toNat ≤ s.config.msgCap)
    (hl : ¬lengthInvalid s (.unpadScan p)) (hz : z < Prim.blockBytes p)
    (hm : s.hasMessage (x ++ 0x80#8 :: List.replicate z 0x00#8)) :
    exec (.unpadScan p) s = (s.emit x).succeed := by
  have hlen : x.length + (z + 1) = s.lenIn.toNat := by simpa using hm.1
  have hle := blockBytes_le_lenIn hl
  obtain ⟨pre, y, rfl, hy⟩ : ∃ pre y, x = pre ++ y ∧ y.length + (z + 1) = Prim.blockBytes p :=
    ⟨_, _, (List.take_append_drop (s.lenIn.toNat - Prim.blockBytes p) x).symm, by rw [List.length_drop]; omega⟩
  have hx := (Memory.holds_append.1 hm.2).1
  rw [List.append_assoc] at hm
  rw [exec_unpadScan_of_block hr hc hl hm (by simpa using hy), scanMarker_of_marker (Memory.holds_append.1 hm.2).2]
  exact withBytes_of_holds List.length_append hx _

/-- No marker in the last block: AmbiguousPaddingRemoval (R263). -/
theorem exec_unpadScan_of_no_marker (hr : s.ready p) (hc : s.lenIn.toNat ≤ s.config.msgCap)
    (hl : ¬lengthInvalid s (.unpadScan p)) (hm : s.hasMessage m)
    (hno : ∀ x z, z < Prim.blockBytes p → m ≠ x ++ 0x80#8 :: List.replicate z 0x00#8) :
    exec (.unpadScan p) s = s.fail .ambiguousPaddingRemoval := by
  have hle := blockBytes_le_lenIn hl
  obtain ⟨pre, block, rfl, hb⟩ : ∃ pre block, m = pre ++ block ∧ block.length = Prim.blockBytes p :=
    ⟨_, _, (List.take_append_drop (m.length - Prim.blockBytes p) m).symm, by
      rw [List.length_drop, hm.1, Nat.sub_sub_self hle]⟩
  have hblock : ∀ x z, block ≠ x ++ 0x80#8 :: List.replicate z 0x00#8 := by
    rintro x z rfl
    have hlen : x.length + (z + 1) = Prim.blockBytes p := by simpa using hb
    exact hno (pre ++ x) z (by omega) (List.append_assoc _ _ _).symm
  rw [exec_unpadScan_of_block hr hc hl hm hb, scanMarker_of_no_marker (Memory.holds_append.1 hm.2).2 hblock]
  rfl

/-! ## Which command raised an error -/

theorem ErrorKind.ofNat_code (e : ErrorKind) : ErrorKind.ofNat (e.code.toNat - 1) = e := by cases e <;> rfl

theorem ErrorKind.code_injective : Function.Injective ErrorKind.code :=
  Function.LeftInverse.injective (g := fun c : BitVec 4 => ErrorKind.ofNat (c.toNat - 1)) ErrorKind.ofNat_code

theorem ErrorKind.code_ne_zero (e : ErrorKind) : e.code ≠ 0 := by cases e <;> decide

/-- ERRCODE names the error that a command raised, and so the condition it was raised under (R260). -/
theorem raises_of_errCode {i : Instr} {t : State} {e : ErrorKind} (h : exec i s = .next t)
    (he : t.status.errCode = e.code) : raises s i e := by
  cases exec_next h with
  | failed u e' _ hraise => exact ErrorKind.code_injective he ▸ hraise
  | answered | scheduled | emitted | loaded => exact absurd he.symm e.code_ne_zero

/-! ## The round trip (R205) -/

theorem State.ready.of_same {t : State} (h : s.ready p) (hf : t.status.fault = s.status.fault)
    (hc : t.config = s.config) : t.ready p := by
  unfold State.ready
  rw [hf, hc]
  exact h

/-- PAD and XFER leave the padded message in IN_BUF, and what its removal reads besides as it was. -/
theorem exec_pad_xfer (hr : s.ready p) (hcap : s.config.capWellFormed = true) (hm : s.hasMessage m)
    (hc : (pad (Prim.blockBytes p) m).length ≤ s.config.msgCap) :
    ∃ t1 t2, exec (.pad p) s = .next t1 ∧ exec .xfer t1 = .next t2 ∧ t2.hasMessage (pad (Prim.blockBytes p) m) ∧
      t2.config = s.config ∧ t2.status.fault = s.status.fault ∧ t2.din = s.din := by
  obtain ⟨⟨_, hmax⟩, _⟩ := (Config.capWellFormed_iff _).1 hcap
  have hlen : (pad (Prim.blockBytes p) m).length = (BitVec.ofNat 13 (pad (Prim.blockBytes p) m).length).toNat := by
    rw [BitVec.toNat_ofNat]
    omega
  have hout := Memory.stored_holds (s.mem.writeBytes_stored outBase (pad (Prim.blockBytes p) m))
  exact ⟨_, _, exec_pad_of_message hr hm hc, exec_xfer_of_holds ⟨hr.1, nofun⟩ hlen hout,
    ⟨hlen, Memory.stored_holds (Memory.writeBytes_stored _ inBase _)⟩, rfl, rfl, rfl⟩

/-- A command that emits a message of `n` bytes has not failed and leaves it in OUT_BUF. -/
theorem State.emit_ok_output (u : State) {n : BitVec 13} (h : m.length = n.toNat) :
    (u.emit m).ok.status.err = false ∧ (u.emit m).ok.lenOut = n ∧ (u.emit m).ok.mem.holds outBase m := by
  refine ⟨rfl, ?_, Memory.stored_holds (u.mem.writeBytes_stored outBase m)⟩
  rw [State.ok_lenOut, State.emit_lenOut, h, BitVec.ofNat_toNat, BitVec.setWidth_eq]

end Sys2Proof.Machine

open Sys2Proof Sys2Proof.Machine

/-- Settles O21: the padded length is the block size times one more than the message's quotient. -/
theorem padToTheNextMultiple : Obligations.PadToTheNextMultiple := by
  intro b m hb
  refine ⟨⟨_, padZeros_lt hb m.length, ?_⟩, pad_length_mod hb m, length_lt_pad_length hb m,
    fun n hn hlt => pad_length_le hb hn hlt⟩
  rw [pad, List.append_assoc]
  rfl

/-- Settles O24: the scan of the last block finds its marker or none, and only UNPAD_SCAN raises code 3. -/
theorem unpadScanFindsTheMarker : Obligations.UnpadScanFindsTheMarker := by
  refine ⟨fun p s m hr hc hm hpos hmod => ?_, fun i s t h he => ?_⟩
  · have hl : ¬lengthInvalid s (.unpadScan p) := not_or.2 ⟨hm.1 ▸ hpos, not_not.2 (hm.1 ▸ hmod)⟩
    refine ⟨fun x z hz hx => ?_, exec_unpadScan_of_no_marker hr hc hl hm⟩
    rw [exec_unpadScan_of_marker hr hc hl hz (hx ▸ hm)]
    exact s.emits_emit x
  · exact raises_of_errCode (e := .ambiguousPaddingRemoval) h he

/-- Settles O25: the invariant has every byte of OUT_BUF below LEN_OUT written, so XFER reads them all. -/
theorem xferCommand : Obligations.XferCommand := by
  refine ⟨fun s m hr hl hm => ?_, fun s hinv hr => ?_⟩
  · exact ⟨_, s.mem.writeBytes_stored inBase m, exec_xfer_of_holds hr hl hm⟩
  · obtain ⟨m, hm⟩ := s.mem.readBytes_total outBase s.lenOut.toNat hinv.outWritten
    obtain ⟨hl, hbytes⟩ := (s.mem.readBytes_ok_iff _ _ _).1 hm
    exact ⟨_, exec_xfer_of_holds hr hl hbytes, rfl⟩

/-- Settles O22: PAD emits the padded message. -/
theorem padCommand : Obligations.PadCommand := by
  intro p s m hr hm hc
  rw [exec_pad_of_message hr hm hc]
  exact s.emits_emit _

/-- Settles O23: UNPAD_LEN emits the bytes it reads, DIN noted as read. -/
theorem unpadLenCommand : Obligations.UnpadLenCommand := by
  intro s m hr hc hd hl hm
  rw [exec_unpadLen_of_holds hr hc hd hl hm]
  exact State.emits_emit _ m

/-- Settles O26: PAD and XFER leave the padded message in IN_BUF; its marker is the one UNPAD_SCAN finds, and the message
is its first bytes, which UNPAD_LEN copies. -/
theorem paddingRoundTrip : Obligations.PaddingRoundTrip := by
  intro p s m hr hcap hm hc
  have hB := Prim.blockBytes_pos p
  have hlt := length_lt_pad_length hB m
  obtain ⟨t1, t2, h1, h2, hmsg, hcfg, hfault, hdin⟩ := exec_pad_xfer hr hcap hm hc
  obtain ⟨hlen, hbytes⟩ := hmsg
  have hready := hr.of_same hfault hcfg
  have hfits : t2.lenIn.toNat ≤ t2.config.msgCap := by rw [← hlen, hcfg]; exact hc
  refine ⟨t1, t2, h1, h2, ?_, fun hd => ?_⟩
  · have hl : ¬lengthInvalid t2 (.unpadScan p) :=
      not_or.2 ⟨by omega, not_not.2 (by rw [← hlen]; exact pad_length_mod hB m)⟩
    exact ⟨_, exec_unpadScan_of_marker hready hfits hl (padZeros_lt hB _) ⟨hlen, hbytes⟩, State.emit_ok_output _ hm.1⟩
  · have hshort : t2.din.toNat ≤ t2.lenIn.toNat := by rw [hdin]; omega
    exact ⟨_, exec_unpadLen_of_holds ⟨hready.1, nofun⟩ hfits hshort (by rw [hdin, hd])
      (Memory.holds_append.1 hbytes).1, State.emit_ok_output _ hm.1⟩

end

section
/-! The modes over a list of blocks or segments: each block and segment by its index, the CFB feedback register
(R226 to R231), and decryption after encryption (R234 item 1). -/

namespace Sys2Proof.Machine

variable {w k : Nat} {enc dec : BitVec w → BitVec w} {iv : BitVec w}

/-! ## CBC and CTR, block by block -/

theorem cbcEncrypt_getElem? {xs : List (BitVec w)} {j : Nat} (h : j < xs.length) :
    (cbcEncrypt enc iv xs)[j]? = some (enc (xs[j] ^^^ (iv :: cbcEncrypt enc iv xs).getD j 0)) := by
  induction xs generalizing iv j with
  | nil => cases h
  | cons x xs ih =>
    cases j with
    | zero => rfl
    | succ j => exact ih (Nat.lt_of_succ_lt_succ h)

theorem cbcDecrypt_getElem? {xs : List (BitVec w)} {j : Nat} (h : j < xs.length) :
    (cbcDecrypt dec iv xs)[j]? = some (dec xs[j] ^^^ (iv :: xs).getD j 0) := by
  induction xs generalizing iv j with
  | nil => cases h
  | cons x xs ih =>
    cases j with
    | zero => rfl
    | succ j => exact ih (Nat.lt_of_succ_lt_succ h)

theorem ctr_getElem? {xs : List (BitVec w)} {j : Nat} (h : j < xs.length) :
    (ctr enc iv xs)[j]? = some (xs[j] ^^^ enc (iv + BitVec.ofNat w j)) := by
  induction xs generalizing iv j with
  | nil => cases h
  | cons x xs ih =>
    cases j with
    | zero => simp [ctr]
    | succ j =>
      have hcount : iv + BitVec.ofNat w (j + 1) = iv + 1 + BitVec.ofNat w j := by
        rw [Nat.add_comm, BitVec.ofNat_add, BitVec.add_assoc]
        rfl
      rw [hcount]
      exact ih (Nat.lt_of_succ_lt_succ h)

/-! ## CFB, segment by segment -/

/-- The feedback register before segment j: the IV after the ciphertext segments before it (R228). -/
def feedbackAt (iv : BitVec w) (cs : List (BitVec k)) (j : Nat) : BitVec w := (cs.take j).foldl feedback iv

theorem feedbackAt_succ {cs : List (BitVec k)} {j : Nat} (h : j < cs.length) :
    feedbackAt iv cs (j + 1) = feedback (feedbackAt iv cs j) cs[j] := by
  rw [feedbackAt, List.take_add_one, List.getElem?_eq_getElem h, List.foldl_append]
  rfl

/-- The leading k bits go and the segment comes in at the end (R228). -/
theorem getMsbD_feedback (fr : BitVec w) (c : BitVec k) {p : Nat} (hk : k ≤ w) :
    (feedback fr c).getMsbD p = if p < w - k then fr.getMsbD (p + k) else c.getMsbD (p - (w - k)) := by
  rw [feedback, BitVec.getMsbD_or, BitVec.getMsbD_shiftLeft, BitVec.getMsbD_setWidth]
  split
  · rename_i hlead
    rw [decide_eq_false (Nat.not_le.2 hlead), Bool.false_and, Bool.or_false]
  · rename_i htail
    have hout : w ≤ p + k := by omega
    have hpos : p + k - w = p - (w - k) := by omega
    rw [BitVec.getMsbD_of_ge _ _ hout, decide_eq_true (Nat.not_lt.1 htail), Bool.true_and, Bool.false_or, hpos]

theorem cfbEncrypt_getElem? {xs : List (BitVec k)} {j : Nat} (h : j < xs.length) :
    (cfbEncrypt enc iv xs)[j]? = some (xs[j] ^^^ lead k (enc (feedbackAt iv (cfbEncrypt enc iv xs) j))) := by
  induction xs generalizing iv j with
  | nil => cases h
  | cons x xs ih =>
    cases j with
    | zero => rfl
    | succ j => exact ih (Nat.lt_of_succ_lt_succ h)

theorem cfbDecrypt_getElem? {xs : List (BitVec k)} {j : Nat} (h : j < xs.length) :
    (cfbDecrypt enc iv xs)[j]? = some (xs[j] ^^^ lead k (enc (feedbackAt iv xs j))) := by
  induction xs generalizing iv j with
  | nil => cases h
  | cons x xs ih =>
    cases j with
    | zero => rfl
    | succ j => exact ih (Nat.lt_of_succ_lt_succ h)

/-! ## Decryption after encryption -/

/-- ECB needs its primitive undone on the blocks it encrypts only. -/
theorem ecb_ecb {xs : List (BitVec w)} (h : ∀ b ∈ xs, dec (enc b) = b) : ecb dec (ecb enc xs) = xs := by
  rw [ecb, ecb, List.map_map]
  exact (List.map_congr_left h).trans xs.map_id'

/-- CBC encrypts each block XOR the ciphertext block before it, and needs its primitive undone on those only. -/
theorem cbcDecrypt_cbcEncrypt {xs : List (BitVec w)}
    (h : ∀ b ∈ List.zipWith (· ^^^ ·) xs (iv :: cbcEncrypt enc iv xs), dec (enc b) = b) :
    cbcDecrypt dec iv (cbcEncrypt enc iv xs) = xs := by
  induction xs generalizing iv with
  | nil => rfl
  | cons x xs ih =>
    obtain ⟨hx, hxs⟩ := List.forall_mem_cons.1 h
    rw [cbcEncrypt, cbcDecrypt, hx, ih hxs, BitVec.xor_assoc, BitVec.xor_self, BitVec.xor_zero]

theorem cfbDecrypt_cfbEncrypt (enc : BitVec w → BitVec w) (iv : BitVec w) (xs : List (BitVec k)) :
    cfbDecrypt enc iv (cfbEncrypt enc iv xs) = xs := by
  induction xs generalizing iv with
  | nil => rfl
  | cons x xs ih => rw [cfbEncrypt, cfbDecrypt, ih, BitVec.xor_assoc, BitVec.xor_self, BitVec.xor_zero]

theorem ctr_ctr (enc : BitVec w → BitVec w) (iv : BitVec w) (xs : List (BitVec w)) :
    ctr enc iv (ctr enc iv xs) = xs := by
  induction xs generalizing iv with
  | nil => rfl
  | cons x xs ih => rw [ctr, ctr, ih, BitVec.xor_assoc, BitVec.xor_self, BitVec.xor_zero]

end Sys2Proof.Machine

open Sys2Proof Sys2Proof.Machine

/-- Settles O34, by induction on the blocks: the next block starts from the chain or counter the last one leaves. -/
theorem modesBlockByBlock : Obligations.ModesBlockByBlock :=
  fun _ _ _ _ _ h => ⟨cbcEncrypt_getElem? h, cbcDecrypt_getElem? h, ctr_getElem? h⟩

/-- Settles O35: the register is the IV with the ciphertext segments fed back one by one (`feedbackAt`). -/
theorem cfbSegmentBySegment : Obligations.CfbSegmentBySegment := by
  intro w k enc iv xs hk
  refine ⟨⟨feedbackAt iv (cfbEncrypt enc iv xs), rfl, fun j h => ⟨cfbEncrypt_getElem? h, fun p _ => ?_⟩⟩,
    ⟨feedbackAt iv xs, rfl, fun j h => ⟨cfbDecrypt_getElem? h, fun p _ => ?_⟩⟩⟩
  · have hj : j < (cfbEncrypt enc iv xs).length := by rwa [cfbEncrypt_length]
    rw [feedbackAt_succ hj, getMsbD_feedback _ _ hk, List.getD_eq_getElem _ _ hj]
  · rw [feedbackAt_succ h, getMsbD_feedback _ _ hk]

/-- Settles O36: ECB and CBC undo the primitive block by block, CFB and CTR XOR the same keystream twice. -/
theorem modesRoundTrip : Obligations.ModesRoundTrip :=
  ⟨fun _ _ _ h _ _ => ⟨ecb_ecb fun b _ => h b, cbcDecrypt_cbcEncrypt fun b _ => h b⟩,
    fun _ _ => cfbDecrypt_cfbEncrypt, fun _ => ctr_ctr⟩

end

section
/-! The mode commands over either primitive (R220 to R232): what each emits where its checks pass, and the message
given back by encrypting, XFER and decrypting (R234 item 1). -/

namespace Sys2Proof.Machine

variable {s : State} {m : List Byte} {usesIv : Bool}

theorem State.emits_of_eq {u : State} {out : List Byte} {r : Result} (h : r = (u.emit out).succeed) :
    u.emits out r := h ▸ u.emits_emit out

/-- The output of a mode command depends on its engines alone (R220). -/
theorem modeOut_congr {t : State} (htoy : t.toyEngine = s.toyEngine) (hext : t.extEngine = s.extEngine) (p : Prim)
    (toy : Engine 8 → List Byte → List Byte) (ext : Engine 128 → List Byte → List Byte) (m : List Byte) :
    modeOut p toy ext t m = modeOut p toy ext s m := by
  cases p with
  | toy => exact congrArg (toy · m) htoy
  | ext => exact congrArg (ext · m) hext

/-! ## Encrypting, XFER and decrypting -/

/-- XFER straight after a command that emitted a message makes it the next message, with the inputs of the modes as
they were (R204). -/
theorem exec_xfer_of_emitted {u : State} {n : BitVec 13} (hu : s.noted u) (hf : s.status.fault = false)
    (hl : m.length = n.toNat) :
    ∃ t, exec .xfer (u.emit m).ok = .next t ∧ t.hasMessage m ∧ t.config = s.config ∧
      t.status.fault = s.status.fault ∧ t.toyEngine = s.toyEngine ∧ t.extEngine = s.extEngine := by
  obtain ⟨f, rfl, _⟩ := hu.eq_withModelFault
  obtain ⟨_, hlen, hout⟩ := State.emit_ok_output { s with modelFault := f } hl
  have hl' := hl.trans (congrArg BitVec.toNat hlen.symm)
  exact ⟨_, exec_xfer_of_holds ⟨hf, nofun⟩ hl' hout,
    ⟨hl', Memory.stored_holds (Memory.writeBytes_stored _ inBase m)⟩, rfl, rfl, rfl, rfl⟩

/-- From `s`, the command `enc`, XFER and the command `dec` succeed and leave `m` in OUT_BUF. -/
def State.givesBack (s : State) (m : List Byte) (enc dec : Instr) : Prop :=
  ∃ t1 t2 t3, exec enc s = .next t1 ∧ exec .xfer t1 = .next t2 ∧ exec dec t2 = .next t3 ∧
    t3.status.err = false ∧ t3.lenOut = s.lenIn ∧ t3.mem.holds outBase m

section GivesBack

variable {enc dec : Instr} (hc : s.lenIn.toNat ≤ s.config.msgCap) (hm : s.hasMessage m)
include hc hm

/-- Two mode commands whose transforms undo each other give the message back: neither the first nor XFER changes the key
or the IV. -/
theorem modeCommand_givesBack {p : Prim} {n : Nat} {toy toy' : Engine 8 → List Byte → List Byte}
    {ext ext' : Engine 128 → List Byte → List Byte} (henc : ∀ s, exec enc s = modeCommand p n usesIv toy ext s)
    (hdec : ∀ s, exec dec s = modeCommand p n usesIv toy' ext' s) (hr : s.ready p) (hn : m.length % n = 0)
    (hl : (modeOut p toy ext s m).length = m.length) (hinv : modeOut p toy' ext' s (modeOut p toy ext s m) = m) :
    s.givesBack m enc dec := by
  obtain ⟨t, hxfer, hmsg, hcfg, hfault, htoy, hext⟩ :=
    exec_xfer_of_emitted (s.noted_noteInputs p usesIv) hr.1 (hl.trans hm.1)
  have hfits : t.lenIn.toNat ≤ t.config.msgCap := by rwa [← hmsg.1, hl, hm.1, hcfg]
  have hrun := (hdec t).trans (modeCommand_of_message (hr.of_same hfault hcfg) hfits (hl ▸ hn) hmsg)
  rw [modeOut_congr htoy hext, hinv] at hrun
  exact ⟨_, t, _, (henc s).trans (modeCommand_of_message hr hc hn hm), hxfer, hrun, State.emit_ok_output _ hm.1⟩

section BlockMode

variable {f g : (w : Nat) → Engine w → List (BitVec w) → List (BitVec w)} (hf : ∀ w e xs, (f w e xs).length = xs.length)
include hf

theorem blockMode_toy_givesBack (henc : ∀ s, exec enc s = blockMode .toy usesIv f s)
    (hdec : ∀ s, exec dec s = blockMode .toy usesIv g s) (hr : s.ready .toy)
    (hinv : g 8 s.toyEngine (f 8 s.toyEngine m) = m) : s.givesBack m enc dec :=
  modeCommand_givesBack hc hm henc hdec hr (Nat.mod_one _) (blockMode_out_length f hf s m (Nat.mod_one _))
    (by simp only [modeOut, bytesOf_byte, blocksOf_byte, hinv])

theorem blockMode_ext_givesBack (henc : ∀ s, exec enc s = blockMode .ext usesIv f s)
    (hdec : ∀ s, exec dec s = blockMode .ext usesIv g s) (hr : s.ready .ext) (hn : m.length % 16 = 0)
    (hinv : g 128 s.extEngine (f 128 s.extEngine (blocksOf 128 m)) = blocksOf 128 m) : s.givesBack m enc dec := by
  refine modeCommand_givesBack hc hm henc hdec hr hn (blockMode_out_length f hf s m hn) ?_
  have hcut (xs) : blocksOf 128 (bytesOf (w := 128) xs) = xs := blocksOf_bytesOf 16 (by decide) xs
  have hjoin : bytesOf (blocksOf 128 m) = m := bytesOf_blocksOf 16 m hn
  simp only [modeOut, hcut, hinv, hjoin]

end BlockMode

section SegmentMode

variable {f g : (w k : Nat) → Engine w → List (BitVec k) → List (BitVec k)}
  (hf : ∀ w k e xs, (f w k e xs).length = xs.length)
include hf

theorem segmentMode_toy_givesBack (henc : ∀ s, exec enc s = segmentMode .toy f s)
    (hdec : ∀ s, exec dec s = segmentMode .toy g s) (hr : s.ready .toy)
    (hinv : g 8 4 s.toyEngine (f 8 4 s.toyEngine (nibblesOf m)) = nibblesOf m) : s.givesBack m enc dec := by
  refine modeCommand_givesBack hc hm henc hdec hr (Nat.mod_one _) (segmentMode_out_length f hf s m (Nat.mod_one _)) ?_
  have heven : (f 8 4 s.toyEngine (nibblesOf m)).length % 2 = 0 := by rw [hf, nibblesOf_length, Nat.mul_mod_right]
  simp only [modeOut, nibblesOf_bytesOfNibbles _ heven, hinv, bytesOfNibbles_nibblesOf]

theorem segmentMode_ext_givesBack (henc : ∀ s, exec enc s = segmentMode .ext f s)
    (hdec : ∀ s, exec dec s = segmentMode .ext g s) (hr : s.ready .ext) (hn : m.length % 8 = 0)
    (hinv : g 128 64 s.extEngine (f 128 64 s.extEngine (blocksOf 64 m)) = blocksOf 64 m) : s.givesBack m enc dec := by
  refine modeCommand_givesBack hc hm henc hdec hr hn (segmentMode_out_length f hf s m hn) ?_
  have hcut (xs) : blocksOf 64 (bytesOf (w := 64) xs) = xs := blocksOf_bytesOf 8 (by decide) xs
  have hjoin : bytesOf (blocksOf 64 m) = m := bytesOf_blocksOf 8 m hn
  simp only [modeOut, hcut, hinv, hjoin]

end SegmentMode

end GivesBack

end Sys2Proof.Machine

open Sys2Proof Sys2Proof.Machine

/-- Settles O30: each block through the cipher under the key; only the key is noted as read. -/
theorem ecbCommands : Obligations.EcbCommands := by
  rintro s m _ rfl hm hc
  simp only [exec_ecbEnc, exec_ecbDec]
  exact ⟨fun hr => ⟨State.emits_of_eq (blockMode_toy hr hc hm), State.emits_of_eq (blockMode_toy hr hc hm)⟩,
    fun hr hn => ⟨State.emits_of_eq (blockMode_ext hr hc hm hn), State.emits_of_eq (blockMode_ext hr hc hm hn)⟩⟩

/-- Settles O31: the chain starts from the IV, noted as read after the key. -/
theorem cbcCommands : Obligations.CbcCommands := by
  rintro s m _ _ rfl rfl hm hc
  simp only [exec_cbcEnc, exec_cbcDec]
  exact ⟨fun hr => ⟨State.emits_of_eq (blockMode_toy hr hc hm), State.emits_of_eq (blockMode_toy hr hc hm)⟩,
    fun hr hn => ⟨State.emits_of_eq (blockMode_ext hr hc hm hn), State.emits_of_eq (blockMode_ext hr hc hm hn)⟩⟩

/-- Settles O32: nibbles or 8-byte segments, with the encryption of the feedback register in both directions. -/
theorem cfbCommands : Obligations.CfbCommands := by
  rintro s m _ _ rfl rfl hm hc
  simp only [exec_cfbEnc, exec_cfbDec]
  exact ⟨fun hr => ⟨State.emits_of_eq (segmentMode_toy hr hc hm), State.emits_of_eq (segmentMode_toy hr hc hm)⟩,
    fun hr hn => ⟨State.emits_of_eq (segmentMode_ext hr hc hm hn), State.emits_of_eq (segmentMode_ext hr hc hm hn)⟩⟩

/-- Settles O33: both commands run `ctr`. -/
theorem ctrCommands : Obligations.CtrCommands := by
  rintro s m i _ _ hi rfl rfl hm hc
  have hrun : ∀ p, exec (i p) s = blockMode p true (fun _ e xs => ctr e.enc e.iv xs) s := by
    rcases hi with rfl | rfl
    · exact exec_ctrEnc s
    · exact exec_ctrDec s
  rw [hrun, hrun]
  exact ⟨fun hr => State.emits_of_eq (blockMode_toy hr hc hm),
    fun hr hn => State.emits_of_eq (blockMode_ext hr hc hm hn)⟩

/-- Settles O37: the modes' own round trips, between two commands of the same key and IV. -/
theorem modeCommandsRoundTrip : Obligations.ModeCommandsRoundTrip := by
  rintro s m enc dec _ _ rfl rfl hr hc hm h
  show s.givesBack m enc dec
  rcases h with ⟨rfl, rfl, h⟩ | ⟨rfl, rfl, h⟩ | ⟨rfl, rfl, hn, h⟩ | ⟨rfl, rfl, hn, h⟩ | ⟨p, rfl, rfl, hn⟩ |
    ⟨p, rfl, rfl, hn⟩
  · exact blockMode_toy_givesBack hc hm (by simp) (exec_ecbEnc · .toy) (exec_ecbDec · .toy) hr (ecb_ecb fun b _ => h b)
  · exact blockMode_toy_givesBack hc hm (by simp) (exec_cbcEnc · .toy) (exec_cbcDec · .toy) hr
      (cbcDecrypt_cbcEncrypt fun b _ => h b)
  · exact blockMode_ext_givesBack hc hm (by simp) (exec_ecbEnc · .ext) (exec_ecbDec · .ext) hr hn (ecb_ecb h)
  · exact blockMode_ext_givesBack hc hm (by simp) (exec_cbcEnc · .ext) (exec_cbcDec · .ext) hr hn
      (cbcDecrypt_cbcEncrypt h)
  · cases p with
    | toy =>
      exact segmentMode_toy_givesBack hc hm (by simp) (exec_cfbEnc · .toy) (exec_cfbDec · .toy) hr
        (cfbDecrypt_cfbEncrypt _ _ _)
    | ext =>
      exact segmentMode_ext_givesBack hc hm (by simp) (exec_cfbEnc · .ext) (exec_cfbDec · .ext) hr hn
        (cfbDecrypt_cfbEncrypt _ _ _)
  · cases p with
    | toy =>
      exact blockMode_toy_givesBack hc hm (by simp) (exec_ctrEnc · .toy) (exec_ctrDec · .toy) hr (ctr_ctr _ _ _)
    | ext =>
      exact blockMode_ext_givesBack hc hm (by simp) (exec_ctrEnc · .ext) (exec_ctrDec · .ext) hr hn (ctr_ctr _ _ _)

end

section
/-! What a mode command leaves and what it depends on (R233): it writes OUT_BUF, LEN_OUT and STATUS alone, and the key,
the IV, the message, the configuration and FAULT determine them. -/

namespace Sys2Proof.Machine

variable {s s' : State} {p : Prim}

/-! ## What it leaves -/

/-- A mode command that answers a next state has failed or emitted, after its key and IV are noted. -/
theorem exec_mode_next {i : Instr} {t : State} (hi : i.isMode) (h : exec i s = .next t) :
    ∃ u, s.noted u ∧ ((∃ e, t = u.raise e) ∨ ∃ out, t = (u.emit out).ok) := by
  cases exec_next h with
  | failed u e hu _ => exact ⟨u, hu, .inl ⟨e, rfl⟩⟩
  | emitted u out hu _ _ _ => exact ⟨u, hu, .inr ⟨out, rfl⟩⟩
  | answered _ _ _ hw _ => exact absurd hi (not_isMode_of_writesDout hw)
  | scheduled _ _ hk => exact absurd (hk ▸ hi) (not_isMode (by simp))
  | loaded _ hx _ _ => exact absurd (hx ▸ hi) (not_isMode (by simp))

/-! ## What it depends on -/

/-- `s` and `s'` agree on the inputs of a mode command (R220). -/
structure State.sameInputs (s s' : State) : Prop where
  config : s'.config = s.config
  fault : s'.status.fault = s.status.fault
  keyToy : s'.keyToy = s.keyToy
  ivToy : s'.ivToy = s.ivToy
  keyExt : s'.keyExt = s.keyExt
  ivExt : s'.ivExt = s.ivExt
  lenIn : s'.lenIn = s.lenIn
  inBuf : ∀ k, k < s.lenIn.toNat → s'.mem.read (inBase + k) = s.mem.read (inBase + k)

/-- `t` and `t'` agree on the outputs of a mode command: ERR and ERRCODE, and the message in OUT_BUF where it succeeded. -/
def State.sameOutputs (t t' : State) : Prop :=
  t'.status.err = t.status.err ∧ t'.status.errCode = t.status.errCode ∧
  (t.status.err = false → t'.lenOut = t.lenOut ∧
    ∀ k, k < t.lenOut.toNat → t'.mem.read (outBase + k) = t.mem.read (outBase + k))

/-- The bytes that stand in two memories which agree there are the same. -/
theorem Memory.holds_unique {m m' : Memory} {base : Nat} {xs ys : List Byte} (hx : m.holds base xs)
    (hy : m'.holds base ys) (hl : ys.length = xs.length)
    (h : ∀ k, k < xs.length → m'.read (base + k) = m.read (base + k)) : ys = xs := by
  refine List.ext_getElem hl fun k hky hkx => Option.some.inj ?_
  rw [← hy k hky, h k hkx, hx k hkx]

/-- The results of a command in two states agree where both are next states. -/
def SameOutputs (r r' : Result) : Prop := ∀ t t', r = .next t → r' = .next t' → t.sameOutputs t'

theorem SameOutputs.fail (u u' : State) (e : ErrorKind) : SameOutputs (u.fail e) (u'.fail e) := by
  rintro _ _ ⟨⟩ ⟨⟩
  exact ⟨rfl, rfl, nofun⟩

theorem SameOutputs.emit (u u' : State) (out : List Byte) :
    SameOutputs (u.emit out).succeed (u'.emit out).succeed := by
  rintro _ _ ⟨⟩ ⟨⟩
  refine ⟨rfl, rfl, fun _ => ⟨rfl, fun k hk => ?_⟩⟩
  have hlt : k < out.length := by
    rw [State.ok_lenOut, State.emit_lenOut, BitVec.toNat_ofNat] at hk
    omega
  have hout (m : Memory) : (m.writeBytes outBase out).read (outBase + k) = some out[k] :=
    Memory.stored_holds (m.writeBytes_stored outBase out) k hlt
  rw [State.ok_mem, State.ok_mem, State.emit_mem, State.emit_mem, hout, hout]

theorem State.sameInputs.toyEngine {u u' : State} (h : s.sameInputs s') (hu : s.noted u) (hu' : s'.noted u') :
    u'.toyEngine = u.toyEngine := by
  rw [State.toyEngine_of_noted hu, State.toyEngine_of_noted hu', State.toyEngine, State.toyEngine, h.config, h.keyToy,
    h.ivToy]

theorem State.sameInputs.extEngine {u u' : State} (h : s.sameInputs s') (hu : s.noted u) (hu' : s'.noted u') :
    u'.extEngine = u.extEngine := by
  rw [State.extEngine_of_noted hu, State.extEngine_of_noted hu', State.extEngine, State.extEngine, h.keyExt, h.ivExt]

theorem SameOutputs.command {body : State → Result} (h : s.sameInputs s') (hb : SameOutputs (body s) (body s')) :
    SameOutputs (command p s body) (command p s' body) := by
  unfold Machine.command
  rw [h.fault, h.config]
  split
  · exact .fail _ _ _
  · split
    · exact .fail _ _ _
    · exact hb

theorem SameOutputs.withLength {body : Nat → State → Result} (h : s.sameInputs s')
    (hb : SameOutputs (body s.lenIn.toNat s) (body s.lenIn.toNat s')) :
    SameOutputs (withLength s body) (withLength s' body) := by
  unfold Machine.withLength
  rw [h.lenIn, h.config]
  split
  · exact .fail _ _ _
  · exact hb

/-- The message is read after the key and the IV are noted. -/
theorem SameOutputs.withMessage {u u' : State} {body body' : List Byte → Result} (h : s.sameInputs s')
    (hu : s.noted u) (hu' : s'.noted u') (hb : ∀ m, SameOutputs (body m) (body' m)) :
    SameOutputs (withBytes inBase s.lenIn.toNat u body) (withBytes inBase s.lenIn.toNat u' body') := by
  intro t t' ht ht'
  obtain ⟨m, hl, hm, ht⟩ := next_of_withBytes ht
  obtain ⟨m', hl', hm', ht'⟩ := next_of_withBytes ht'
  have hmem : u.mem = s.mem := by rw [hu.1]
  have hmem' : u'.mem = s'.mem := by rw [hu'.1]
  have hsame : m' = m :=
    Memory.holds_unique (hmem ▸ hm) (hmem' ▸ hm') (hl'.trans hl.symm) fun k hk => h.inBuf k (hl ▸ hk)
  exact hb m t t' ht (hsame ▸ ht')

theorem SameOutputs.modeCommand {n : Nat} {usesIv : Bool} {toy : Engine 8 → List Byte → List Byte}
    {ext : Engine 128 → List Byte → List Byte} (h : s.sameInputs s') :
    SameOutputs (modeCommand p n usesIv toy ext s) (modeCommand p n usesIv toy ext s') := by
  have hu := s.noted_noteInputs p usesIv
  have hu' := s'.noted_noteInputs p usesIv
  rw [modeCommand_eq, modeCommand_eq]
  refine .command h (.withLength h ?_)
  split
  · exact .fail _ _ _
  · refine .withMessage h hu hu' fun m => ?_
    rw [modeOut_congr (h.toyEngine hu hu') (h.extEngine hu hu')]
    exact .emit _ _ _

/-- Each mode command is `modeCommand` with its own message unit and transforms. -/
theorem exec_of_isMode {i : Instr} (hi : i.isMode) :
    ∃ n usesIv toy ext, ∀ s, exec i s = modeCommand i.prim n usesIv toy ext s := by
  obtain ⟨p, hi⟩ := hi
  simp only [List.mem_cons, List.not_mem_nil, or_false] at hi
  rcases hi with rfl | rfl | rfl | rfl | rfl | rfl | rfl | rfl
  · exact ⟨_, _, _, _, (exec_ecbEnc · p)⟩
  · exact ⟨_, _, _, _, (exec_ecbDec · p)⟩
  · exact ⟨_, _, _, _, (exec_cbcEnc · p)⟩
  · exact ⟨_, _, _, _, (exec_cbcDec · p)⟩
  · exact ⟨_, _, _, _, (exec_cfbEnc · p)⟩
  · exact ⟨_, _, _, _, (exec_cfbDec · p)⟩
  · exact ⟨_, _, _, _, (exec_ctrEnc · p)⟩
  · exact ⟨_, _, _, _, (exec_ctrDec · p)⟩

end Sys2Proof.Machine

open Sys2Proof Sys2Proof.Machine

/-- Settles O39: a mode command fails or emits, and either way its inputs determine the outcome. -/
theorem modesLeaveTheirOperands : Obligations.ModesLeaveTheirOperands := by
  refine ⟨fun i s t hi ht => ?_, fun i s t s' t' hi ht ht' hcfg hf hk hiv hke hive hl hm => ?_⟩
  · obtain ⟨u, hu, hend⟩ := exec_mode_next hi ht
    obtain ⟨f, rfl, _⟩ := hu.eq_withModelFault
    rcases hend with ⟨e, rfl⟩ | ⟨out, rfl⟩
    · exact ⟨rfl, rfl, rfl, rfl, rfl, rfl, rfl, rfl, rfl, fun _ _ => rfl⟩
    · exact ⟨rfl, rfl, rfl, rfl, rfl, rfl, rfl, rfl, rfl, fun a ha =>
        Memory.stored_outside (s.mem.writeBytes_stored outBase out) a fun h => Nat.not_le.2 ha h.1⟩
  · obtain ⟨n, usesIv, toy, ext, hexec⟩ := exec_of_isMode hi
    rw [hexec] at ht ht'
    exact SameOutputs.modeCommand ⟨hcfg, hf, hk, hiv, hke, hive, hl, hm⟩ t t' ht ht'

end

section
/-! How commands end (R271) and the errors they raise: the common checks in their order (R270), then each command's own
check of its operands or its length (R261, R266, R267). -/

namespace Sys2Proof.Machine

variable {s : State} {p : Prim} {i : Instr}

/-! ## The common checks (R270) -/

theorem command_of_fault (h : s.status.fault = true) (body : State → Result) :
    command p s body = s.fail .invalidTableConfiguration := if_pos h

theorem command_of_absent (hf : s.status.fault = false) (hp : p = .ext) (he : s.config.extPresent = false)
    (body : State → Result) : command p s body = s.fail .primitiveAbsent :=
  (if_neg (by simp [hf])).trans (if_pos ⟨hp, he⟩)

/-- Every command makes the common checks for its own PRIM, before anything else. -/
theorem exec_eq_command (i : Instr) : ∃ body, ∀ s, exec i s = command i.prim s body := by
  cases i <;> exact ⟨_, fun _ => rfl⟩

theorem exec_of_fault (h : s.status.fault = true) : exec i s = s.fail .invalidTableConfiguration := by
  obtain ⟨body, hexec⟩ := exec_eq_command i
  rw [hexec, command_of_fault h]

theorem exec_of_absent (hf : s.status.fault = false) (hp : i.prim = .ext) (he : s.config.extPresent = false) :
    exec i s = s.fail .primitiveAbsent := by
  obtain ⟨body, hexec⟩ := exec_eq_command i
  rw [hexec, command_of_absent hf hp he]

theorem illegalCommand_of_fault (h : s.status.fault = true) :
    illegalCommand s = s.fail .invalidTableConfiguration := if_pos h

theorem illegalCommand_of_no_fault (h : s.status.fault = false) : illegalCommand s = s.fail .illegalCommand :=
  if_neg (by simp [h])

/-- FAULT stops a latched word whether or not it encodes a command. -/
theorem coreStep_of_fault (h : s.status.fault = true) : coreStep s = s.fail .invalidTableConfiguration := by
  cases hd : decode s.latched with
  | error e => rw [coreStep_of_illegal hd, illegalCommand_of_fault h]
  | ok i => rw [coreStep_of_decode hd, exec_of_fault h]

/-! ## An operand that does not fit (R267) -/

theorem withDin_of_wide {n : Nat} (h : s.din.extractLsb' n (32 - n) ≠ 0) (body : BitVec n → State → Result) :
    withDin n s body = (s.noteRead .din).fail .illegalOperand :=
  (withDin_cases n s body).elim (·.2) fun h' => absurd h'.1 h

theorem withDinDin2_of_wide {n m : Nat} (h : s.din.extractLsb' n (32 - n) ≠ 0 ∨ s.din2.extractLsb' m (32 - m) ≠ 0)
    (body : BitVec n → BitVec m → State → Result) :
    withDinDin2 n m s body = ((s.noteRead .din).noteRead .din2).fail .illegalOperand := by
  rcases withDinDin2_cases n m s body with ⟨_, hfail⟩ | ⟨hd, hd2, _⟩
  · exact hfail
  · exact absurd h (not_or.2 ⟨not_not.2 hd, not_not.2 hd2⟩)

/-- The commands whose one operand is 8 bits of DIN. -/
theorem exec_of_byte_operand (hi : i ∈ [.permIp, .permIpinv, .toyEnc, .toyDec]) :
    ∃ body, ∀ s, exec i s = command .toy s fun s => withDin 8 s body := by
  simp only [List.mem_cons, List.not_mem_nil, or_false] at hi
  rcases hi with rfl | rfl | rfl | rfl
  · exact ⟨_, exec_permIp⟩
  · exact ⟨_, exec_permIpinv⟩
  · exact ⟨_, exec_toyEnc⟩
  · exact ⟨_, exec_toyDec⟩

/-- The commands whose one operand is 4 bits of DIN. -/
theorem exec_of_nibble_operand (hi : i ∈ [.permEp, .permP4, .sbox0, .sbox1]) :
    ∃ body, ∀ s, exec i s = command .toy s fun s => withDin 4 s body := by
  simp only [List.mem_cons, List.not_mem_nil, or_false] at hi
  rcases hi with rfl | rfl | rfl | rfl
  · exact ⟨_, exec_permEp⟩
  · exact ⟨_, exec_permP4⟩
  · exact ⟨_, exec_sbox0⟩
  · exact ⟨_, exec_sbox1⟩

theorem exec_roundF_of_wide (hf : s.status.fault = false)
    (h : s.din.extractLsb' 4 28 ≠ 0 ∨ s.din2.extractLsb' 8 24 ≠ 0) :
    exec .roundF s = ((s.noteRead .din).noteRead .din2).fail .illegalOperand := by
  rw [exec_roundF, command_toy hf, withDinDin2_of_wide h]

/-- A command with an operand that does not fit fails, with its operands noted as read. -/
theorem exec_of_wide_operand (hf : s.status.fault = false) (h : raises s i .illegalOperand) :
    ∃ u, s.noted u ∧ exec i s = u.fail .illegalOperand := by
  have hdin := s.noted_noteRead .din
  have hboth := State.noted_trans hdin (State.noted_noteRead _ .din2)
  rcases h with ⟨hi, hd⟩ | ⟨hi, hd⟩ | ⟨rfl, hd2⟩
  · obtain ⟨body, hexec⟩ := exec_of_byte_operand hi
    exact ⟨_, hdin, by rw [hexec, command_toy hf, withDin_of_wide hd]⟩
  · by_cases hround : i = .roundF
    · subst hround
      exact ⟨_, hboth, exec_roundF_of_wide hf (.inl hd)⟩
    · obtain ⟨body, hexec⟩ := exec_of_nibble_operand (i := i) (by simpa [hround] using hi)
      exact ⟨_, hdin, by rw [hexec, command_toy hf, withDin_of_wide hd]⟩
  · exact ⟨_, hboth, exec_roundF_of_wide hf (.inr hd2)⟩

/-! ## A length above the buffers (R266) -/

/-- Every command that writes OUT_BUF checks LEN_IN against MSG_CAP straight after the common checks. -/
theorem exec_of_writesOut (hi : i.writesOut) :
    ∃ body, ∀ s, exec i s = command i.prim s fun s => withLength s body := by
  rcases hi with ⟨p, hi⟩ | hi
  · simp only [List.mem_cons, List.not_mem_nil, or_false] at hi
    rcases hi with rfl | rfl | rfl
    · exact ⟨_, (exec_pad · p)⟩
    · exact ⟨_, exec_unpadLen⟩
    · exact ⟨_, (exec_unpadScan · p)⟩
  · obtain ⟨n, usesIv, toy, ext, hexec⟩ := exec_of_isMode hi
    exact ⟨_, fun s => (hexec s).trans modeCommand_eq⟩

theorem exec_of_lenIn_gt (hi : i.writesOut) (hr : s.ready i.prim) (h : s.lenIn.toNat > s.config.msgCap) :
    exec i s = s.fail .capacityExceeded := by
  obtain ⟨body, hexec⟩ := exec_of_writesOut hi
  rw [hexec, command_of_ready hr, withLength_of_gt h]
  rfl

/-- Padding adds at least one byte, so PAD needs a byte of room above LEN_IN. -/
theorem exec_pad_of_lenIn_ge (hr : s.ready p) (h : s.lenIn.toNat ≥ s.config.msgCap) :
    exec (.pad p) s = s.fail .capacityExceeded := by
  rcases Nat.lt_or_eq_of_le h with hgt | heq
  · exact exec_of_lenIn_gt (.inl ⟨p, by simp⟩) hr hgt
  · have hadded := Nat.mod_lt s.lenIn.toNat (Prim.blockBytes_pos p)
    rw [exec_pad, command_of_ready hr, withLength_of_le (Nat.le_of_eq heq.symm), if_pos (by omega)]

/-! ## A length that does not fit the command (R261) -/

section LengthInvalid

variable (hc : s.lenIn.toNat ≤ s.config.msgCap)
include hc

/-- The check of the message unit comes before the key, the IV and the message are read (R222). -/
theorem modeCommand_of_mod_ne {n : Nat} {usesIv : Bool} {toy : Engine 8 → List Byte → List Byte}
    {ext : Engine 128 → List Byte → List Byte} (hr : s.ready p) (hn : s.lenIn.toNat % n ≠ 0) :
    modeCommand p n usesIv toy ext s = s.fail .invalidInputLength := by
  rw [modeCommand_eq, command_of_ready hr, withLength_of_le hc, if_pos hn]

theorem blockMode_of_mod_ne {usesIv : Bool} {f : (w : Nat) → Engine w → List (BitVec w) → List (BitVec w)}
    (hr : s.ready p) (hn : s.lenIn.toNat % Prim.blockBytes p ≠ 0) :
    blockMode p usesIv f s = s.fail .invalidInputLength := modeCommand_of_mod_ne hc hr hn

/-- CFB of the toy primitive takes every length: its unit is one byte. -/
theorem segmentMode_of_mod_ne {f : (w k : Nat) → Engine w → List (BitVec k) → List (BitVec k)} (hr : s.ready p)
    (hn : p = .ext ∧ s.lenIn.toNat % 8 ≠ 0) : segmentMode p f s = s.fail .invalidInputLength := by
  obtain ⟨rfl, hn⟩ := hn
  exact modeCommand_of_mod_ne hc hr hn

/-- UNPAD_LEN reads DIN to compare it with LEN_IN. -/
theorem exec_unpadLen_of_din_gt (hr : s.ready .toy) (h : s.din.toNat > s.lenIn.toNat) :
    exec .unpadLen s = (s.noteRead .din).fail .invalidInputLength := by
  rw [exec_unpadLen, command_of_ready hr, withLength_of_le hc, State.noteRead_din, if_pos h]

theorem exec_unpadScan_of_lengthInvalid (hr : s.ready p) (hl : lengthInvalid s (.unpadScan p)) :
    exec (.unpadScan p) s = s.fail .invalidInputLength := by
  rw [exec_unpadScan, command_of_ready hr, withLength_of_le hc]
  exact if_pos hl

/-- Every other command that R261 lists reads nothing before its check. -/
theorem exec_of_lengthInvalid (hi : i ≠ .unpadLen) (hr : s.ready i.prim) (hl : lengthInvalid s i) :
    exec i s = s.fail .invalidInputLength := by
  cases i with
  | ecbEnc p => exact (exec_ecbEnc s p).trans (blockMode_of_mod_ne hc hr hl)
  | ecbDec p => exact (exec_ecbDec s p).trans (blockMode_of_mod_ne hc hr hl)
  | cbcEnc p => exact (exec_cbcEnc s p).trans (blockMode_of_mod_ne hc hr hl)
  | cbcDec p => exact (exec_cbcDec s p).trans (blockMode_of_mod_ne hc hr hl)
  | cfbEnc p => exact (exec_cfbEnc s p).trans (segmentMode_of_mod_ne hc hr hl)
  | cfbDec p => exact (exec_cfbDec s p).trans (segmentMode_of_mod_ne hc hr hl)
  | ctrEnc p => exact (exec_ctrEnc s p).trans (blockMode_of_mod_ne hc hr hl)
  | ctrDec p => exact (exec_ctrDec s p).trans (blockMode_of_mod_ne hc hr hl)
  | unpadScan p => exact exec_unpadScan_of_lengthInvalid hc hr hl
  | unpadLen => exact absurd rfl hi
  | _ => exact hl.elim

end LengthInvalid

end Sys2Proof.Machine

open Sys2Proof Sys2Proof.Machine

/-- Settles O5: FAULT stops every latched word, IllegalCommand one that encodes no command, and PrimitiveAbsent a
command of the absent primitive. -/
theorem commonChecksInOrder : Obligations.CommonChecksInOrder := by
  intro s t ht
  rw [step_of_coreTurn ht]
  refine ⟨coreStep_of_fault, fun hf e hd => ?_, fun hf i hd hp he => ?_⟩
  · rw [coreStep_of_illegal hd]
    exact illegalCommand_of_no_fault hf
  · rw [coreStep_of_decode hd]
    exact exec_of_absent hf hp he

/-- Settles O6: the check of the primitive stands ahead of every command's body, and no other check raises code 5. -/
theorem primitiveAbsentBeforeLengths : Obligations.PrimitiveAbsentBeforeLengths :=
  ⟨fun _ _ => exec_of_absent, fun _ _ _ h he => raises_of_errCode (e := .primitiveAbsent) h he⟩

/-- Settles O7, by the ways a command that answers a next state can have ended: only `failed` is no success. -/
theorem commandsEndInOkOrRaise : Obligations.CommandsEndInOkOrRaise := by
  intro i s t h
  cases exec_next h with
  | failed u e hu _ =>
    obtain ⟨f, rfl, _⟩ := hu.eq_withModelFault
    exact ⟨rfl, rfl, rfl, rfl, .inr ⟨rfl, rfl, ⟨e, rfl⟩, rfl⟩⟩
  | answered u _ hu _ _ | scheduled u hu _ | emitted u _ hu _ _ _ =>
    obtain ⟨f, rfl, _⟩ := hu.eq_withModelFault
    exact ⟨rfl, rfl, rfl, rfl, .inl ⟨rfl, rfl, rfl⟩⟩
  | loaded _ _ _ _ => exact ⟨rfl, rfl, rfl, rfl, .inl ⟨rfl, rfl, rfl⟩⟩

/-- Settles O20: the listed operands are the condition `raises` gives IllegalOperand, under which the command fails. -/
theorem illegalOperandRefused : Obligations.IllegalOperandRefused := by
  refine ⟨fun i s hf h => ?_, fun i s t h he => raises_of_errCode (e := .illegalOperand) h he⟩
  obtain ⟨u, hu, hexec⟩ := exec_of_wide_operand hf h
  obtain ⟨f, rfl, _⟩ := hu.eq_withModelFault
  exact ⟨_, hexec, rfl⟩

/-- Settles O27: LEN_IN is checked straight after the common checks, and PAD adds at least one byte. -/
theorem capacityExceededRefused : Obligations.CapacityExceededRefused := by
  refine ⟨fun i s hi hr _ h => ?_, fun i s t h he => raises_of_errCode (e := .capacityExceeded) h he⟩
  rcases h with hgt | ⟨⟨p, rfl⟩, hge⟩
  · exact exec_of_lenIn_gt hi hr hgt
  · exact exec_pad_of_lenIn_ge hr hge

/-- Settles O28: UNPAD_LEN notes DIN before its check, and every other command of R261 checks before it reads. -/
theorem invalidInputLengthRefused : Obligations.InvalidInputLengthRefused := by
  refine ⟨fun i s hr hc hl => ?_, fun i s t h he => raises_of_errCode (e := .invalidInputLength) h he⟩
  by_cases hi : i = .unpadLen
  · subst hi
    rw [exec_unpadLen_of_din_gt hc hr hl, s.noteRead_eq]
    rfl
  · rw [exec_of_lengthInvalid hc hi hr hl, if_neg hi]
    rfl

end

section
/-! A message continued in a second command (R306): every mode over a message in two parts is the mode over the first
part, and over the second from the continuation value the first one leaves. -/

namespace Sys2Proof.Machine

variable {w k : Nat}

/-! ## The modes over two lists of blocks or segments -/

theorem cbcEncrypt_append (enc : BitVec w → BitVec w) (iv : BitVec w) (xs ys : List (BitVec w)) :
    cbcEncrypt enc iv (xs ++ ys) = cbcEncrypt enc iv xs ++ cbcEncrypt enc ((cbcEncrypt enc iv xs).getLastD iv) ys := by
  induction xs generalizing iv with
  | nil => rfl
  | cons x xs ih => rw [List.cons_append, cbcEncrypt, cbcEncrypt, ih, List.getLastD_cons, List.cons_append]

theorem cbcDecrypt_append (dec : BitVec w → BitVec w) (iv : BitVec w) (xs ys : List (BitVec w)) :
    cbcDecrypt dec iv (xs ++ ys) = cbcDecrypt dec iv xs ++ cbcDecrypt dec (xs.getLastD iv) ys := by
  induction xs generalizing iv with
  | nil => rfl
  | cons x xs ih => rw [List.cons_append, cbcDecrypt, cbcDecrypt, ih, List.getLastD_cons, List.cons_append]

theorem ctr_append (enc : BitVec w → BitVec w) (iv : BitVec w) (xs ys : List (BitVec w)) :
    ctr enc iv (xs ++ ys) = ctr enc iv xs ++ ctr enc (iv + BitVec.ofNat w xs.length) ys := by
  induction xs generalizing iv with
  | nil => simp [ctr]
  | cons x xs ih =>
    have hcount : iv + BitVec.ofNat w (xs.length + 1) = iv + 1 + BitVec.ofNat w xs.length := by
      rw [Nat.add_comm, BitVec.ofNat_add, BitVec.add_assoc]
      rfl
    rw [List.cons_append, ctr, ctr, ih, List.length_cons, hcount, List.cons_append]

/-- The feedback register is the IV with the ciphertext of the first part fed back. -/
theorem cfbEncrypt_append (enc : BitVec w → BitVec w) (iv : BitVec w) (xs ys : List (BitVec k)) :
    cfbEncrypt enc iv (xs ++ ys) =
      cfbEncrypt enc iv xs ++ cfbEncrypt enc ((cfbEncrypt enc iv xs).foldl feedback iv) ys := by
  induction xs generalizing iv with
  | nil => rfl
  | cons x xs ih => rw [List.cons_append, cfbEncrypt, cfbEncrypt, ih, List.foldl_cons, List.cons_append]

theorem cfbDecrypt_append (enc : BitVec w → BitVec w) (iv : BitVec w) (xs ys : List (BitVec k)) :
    cfbDecrypt enc iv (xs ++ ys) = cfbDecrypt enc iv xs ++ cfbDecrypt enc (xs.foldl feedback iv) ys := by
  induction xs generalizing iv with
  | nil => rfl
  | cons x xs ih => rw [List.cons_append, cfbDecrypt, cfbDecrypt, ih, List.foldl_cons, List.cons_append]

/-! ## The feedback register as a number -/

/-- A segment shifted in is the next digit to the base 2^k, the leading ones lost. -/
theorem toNat_feedback (fr : BitVec w) (c : BitVec k) :
    (feedback fr c).toNat = (fr.toNat * 2 ^ k + c.toNat) % 2 ^ w := by
  rw [feedback, BitVec.toNat_or, BitVec.toNat_shiftLeft, BitVec.toNat_setWidth, ← Nat.or_mod_two_pow,
    Nat.shiftLeft_eq, Nat.mul_comm, Nat.two_pow_add_eq_or_of_lt c.isLt]

/-- The last w bits of the IV followed by the segments (R306). -/
theorem toNat_foldl_feedback (iv : BitVec w) (cs : List (BitVec k)) :
    (cs.foldl feedback iv).toNat = cs.foldl (fun n c => n * 2 ^ k + c.toNat) iv.toNat % 2 ^ w := by
  induction cs using List.reverseRecOn with
  | nil => exact (Nat.mod_eq_of_lt iv.isLt).symm
  | append_singleton cs c ih =>
    rw [List.foldl_append, List.foldl_append, List.foldl_cons, List.foldl_cons, List.foldl_nil, List.foldl_nil,
      toNat_feedback, ih]
    exact ((Nat.mod_modEq _ _).mul_right _).add_right _

theorem eq_foldl_feedback {iv fr : BitVec w} {cs : List (BitVec k)}
    (h : fr.toNat = cs.foldl (fun n c => n * 2 ^ k + c.toNat) iv.toNat % 2 ^ w) : fr = cs.foldl feedback iv :=
  BitVec.eq_of_toNat_eq (h.trans (toNat_foldl_feedback iv cs).symm)

/-! ## The feedback register as bytes -/

theorem pow_256_eq (n : Nat) : 256 ^ n = 2 ^ (8 * n) := (Nat.pow_mul 2 8 n).symm

theorem toBytes_length_mul {n : Nat} (v : BitVec (8 * n)) : (toBytes v).length = n := by
  rw [toBytes_length, Nat.mul_div_cancel_left n (by decide)]

theorem bytesValue_append (xs ys : List Byte) :
    bytesValue (xs ++ ys) = bytesValue xs * 256 ^ ys.length + bytesValue ys := by
  rw [bytesValue, List.foldl_append, foldl_bytes, ← bytesValue]

theorem bytesValue_toBytes (n : Nat) (v : BitVec (8 * n)) : bytesValue (toBytes v) = v.toNat := by
  have hlt : bytesValue (toBytes v) < 2 ^ (8 * n) := by
    have h := bytesValue_lt (toBytes v)
    rwa [toBytes_length_mul, pow_256_eq] at h
  have hv : (fromBytes (8 * n) (toBytes v)).toNat = v.toNat := by rw [fromBytes_toBytes]
  rwa [fromBytes, BitVec.toNat_ofNat, ← bytesValue, Nat.mod_eq_of_lt hlt] at hv

/-- A segment's bytes put at the end of the register's. -/
theorem fromBytes_append_toBytes (n : Nat) (bs : List Byte) (c : BitVec (8 * n)) :
    fromBytes w (bs ++ toBytes c) = feedback (fromBytes w bs) c := by
  apply BitVec.eq_of_toNat_eq
  rw [toNat_feedback, fromBytes, fromBytes, BitVec.toNat_ofNat, BitVec.toNat_ofNat, ← bytesValue, ← bytesValue,
    bytesValue_append, bytesValue_toBytes, toBytes_length_mul, pow_256_eq]
  exact (((Nat.mod_modEq _ _).mul_right _).add_right _).symm

theorem foldl_feedback_fromBytes (n : Nat) (bs : List Byte) (cs : List (BitVec (8 * n))) :
    cs.foldl feedback (fromBytes w bs) = fromBytes w (bs ++ bytesOf cs) := by
  induction cs generalizing bs with
  | nil => simp [bytesOf]
  | cons c cs ih =>
    rw [List.foldl_cons, ← fromBytes_append_toBytes, ih, List.append_assoc]
    rfl

/-- A block is its last bytes; what stands before them is lost. -/
theorem fromBytes_drop (n d : Nat) (bs : List Byte) (h : bs.length = d + n) :
    fromBytes (8 * n) (bs.drop d) = fromBytes (8 * n) bs := by
  apply BitVec.eq_of_toNat_eq
  have hl : (bs.drop d).length = n := by simp [h]
  have hsplit := bytesValue_append (bs.take d) (bs.drop d)
  rw [List.take_append_drop, hl, pow_256_eq] at hsplit
  rw [fromBytes, fromBytes, BitVec.toNat_ofNat, BitVec.toNat_ofNat, ← bytesValue, ← bytesValue, hsplit,
    Nat.mul_add_mod_self_right]

/-- The register of the external primitive after whole segments: the last 16 bytes of the IV's and theirs (R306). -/
theorem foldl_feedback_ext (iv : ExtBlock) (cs : List (BitVec 64)) :
    cs.foldl feedback iv = fromBytes 128 ((toBytes iv ++ bytesOf cs).drop (bytesOf cs).length) := by
  have hl : (toBytes iv ++ bytesOf cs).length = (bytesOf cs).length + 16 := by simp [Nat.add_comm]
  rw [fromBytes_drop 16 _ _ hl, ← foldl_feedback_fromBytes 8, fromBytes_toBytes 16]

/-! ## A message in two parts and its segments -/

theorem chunks_append {α : Type} {size n : Nat} (m : Nat) {xs : List α} (ys : List α) (h : xs.length = n * size) :
    chunks size (n + m) (xs ++ ys) = chunks size n xs ++ chunks size m ys := by
  induction n generalizing xs with
  | zero =>
    obtain rfl := List.length_eq_zero_iff.1 (h.trans (Nat.zero_mul size))
    rw [Nat.zero_add]; rfl
  | succ n ih =>
    have hs : size ≤ xs.length := by rw [h, Nat.succ_mul]; omega
    have hd : (xs.drop size).length = n * size := by rw [List.length_drop, h, Nat.succ_mul]; omega
    rw [Nat.succ_add, chunks, chunks, List.take_append_of_le_length hs, List.drop_append_of_le_length hs, ih hd,
      List.cons_append]

theorem blocksOf_append (n : Nat) {x : List Byte} (y : List Byte) (hn : 0 < n) (h : x.length % n = 0) :
    blocksOf (8 * n) (x ++ y) = blocksOf (8 * n) x ++ blocksOf (8 * n) y := by
  obtain ⟨q, hq⟩ := Nat.dvd_of_mod_eq_zero h
  have hx : x.length / n = q := by rw [hq, Nat.mul_div_cancel_left q hn]
  have hxy : (x ++ y).length / n = q + y.length / n := by
    rw [List.length_append, hq, Nat.mul_add_div hn]
  rw [blocksOf, blocksOf, blocksOf, Nat.mul_div_cancel_left n (by decide), hx, hxy,
    chunks_append _ _ (hq.trans (Nat.mul_comm n q)), List.map_append]

theorem bytesOf_append (xs ys : List (BitVec w)) : bytesOf (xs ++ ys) = bytesOf xs ++ bytesOf ys :=
  List.flatMap_append

theorem nibblesOf_append (x y : List Byte) : nibblesOf (x ++ y) = nibblesOf x ++ nibblesOf y := List.flatMap_append

theorem bytesOfNibbles_append : {xs : List (BitVec 4)} → (ys : List (BitVec 4)) → xs.length % 2 = 0 →
    bytesOfNibbles (xs ++ ys) = bytesOfNibbles xs ++ bytesOfNibbles ys
  | [], _, _ => rfl
  | [_], _, h => by cases h
  | a :: b :: xs, ys, h => by
    have hxs : xs.length % 2 = 0 := (Nat.add_mod_right xs.length 2).symm.trans h
    rw [List.cons_append, List.cons_append, bytesOfNibbles, bytesOfNibbles, bytesOfNibbles_append ys hxs,
      List.cons_append]

/-- Two nibbles fill the register of the toy primitive. -/
theorem feedback_feedback_nibbles (fr : Block) (hi lo : BitVec 4) : feedback (feedback fr hi) lo = hi ++ lo := by
  apply BitVec.eq_of_toNat_eq
  rw [toNat_feedback, toNat_feedback, BitVec.toNat_append, Nat.shiftLeft_eq, Nat.mul_comm hi.toNat,
    ← Nat.two_pow_add_eq_or_of_lt lo.isLt]
  omega

/-- The register of the toy primitive after whole bytes is the last of them (R306). -/
theorem foldl_feedback_nibblesOf (iv : Block) (m : List Byte) : (nibblesOf m).foldl feedback iv = m.getLastD iv := by
  induction m generalizing iv with
  | nil => rfl
  | cons b m ih =>
    rw [nibblesOf_cons, List.foldl_cons, List.foldl_cons, feedback_feedback_nibbles, byte_of_nibbles, ih,
      List.getLastD_cons]

end Sys2Proof.Machine

open Sys2Proof Sys2Proof.Machine

/-- Settles O38: each mode by its `_append` lemma; the CFB register after the first part is the ciphertext fed back
(`List.foldl feedback`), read as a number, as the last 16 bytes, or as the last byte. -/
theorem modesContinue : Obligations.ModesContinue := by
  refine ⟨fun w f iv xs ys => ⟨List.map_append, cbcEncrypt_append f iv xs ys, cbcDecrypt_append f iv xs ys,
    ctr_append f iv xs ys⟩, fun w k f iv fr xs ys => ⟨fun h => ?_, fun h => ?_⟩,
    fun f iv x y c hx _ => ⟨fun hc => ?_, ?_⟩, fun f iv x y => ⟨?_, ?_⟩⟩
  · rw [eq_foldl_feedback h, cfbEncrypt_append]
  · rw [eq_foldl_feedback h, cfbDecrypt_append]
  · subst hc
    rw [blocksOf_append 8 y (by decide) hx, cfbEncrypt_append, bytesOf_append, foldl_feedback_ext]
  · rw [blocksOf_append 8 y (by decide) hx, cfbDecrypt_append, bytesOf_append, foldl_feedback_ext,
      bytesOf_blocksOf 8 x hx]
  · have heven : (cfbEncrypt f iv (nibblesOf x)).length % 2 = 0 := by simp
    rw [nibblesOf_append, cfbEncrypt_append, bytesOfNibbles_append _ heven, ← foldl_feedback_nibblesOf,
      nibblesOf_bytesOfNibbles _ heven]
  · have heven : (cfbDecrypt f iv (nibblesOf x)).length % 2 = 0 := by simp
    rw [nibblesOf_append, cfbDecrypt_append, bytesOfNibbles_append _ heven, foldl_feedback_nibblesOf]

end

section
/-! Reset: the state a power-on or a soft reset leaves (R290 to R294), the table check made at it (R293), and the CTRL
write that makes a soft reset. -/

namespace Sys2Proof.Machine

variable {s t : State} {v : Word}

/-! ## The write to CTRL -/

/-- A CTRL write with bit 0 set is a soft reset, at any phase (R36, R294). -/
theorem step_softReset (h : s.hostTurn (writeAt 0x008 v) t) (hv : v.getLsbD 0 = true) :
    step s = .next { t.softReset with response := some .written } := by
  rw [step_write_of (l := .ctrl) h rfl rfl, hostWrite, if_pos rfl, if_pos hv]

/-- A CTRL write with bit 0 clear does nothing, at any phase (R36). -/
theorem step_ctrl_without_reset (h : s.hostTurn (writeAt 0x008 v) t) (hv : v.getLsbD 0 = false) :
    step s = .next { t with response := some .written } := by
  rw [step_write_of (l := .ctrl) h rfl rfl, hostWrite, if_pos rfl, if_neg (Bool.eq_false_iff.1 hv)]

/-! ## The state a reset leaves -/

/-- A soft reset clears every written mark (R292). -/
theorem State.softReset_isWritten (s : State) (x : Datum) : s.softReset.isWritten x = false := by
  cases x with
  | keyExt j | ivExt j => fin_cases j <;> rfl
  | _ => rfl

/-- The control state of R291, as both resets leave it. -/
structure State.controlReset (r : State) : Prop where
  phase : r.phase = .idle
  latched : r.latched = 0
  subkeys : r.subkeys = 0
  lenIn : r.lenIn = 0
  lenOut : r.lenOut = 0
  status : r.status = { done := false, err := false, errCode := 0, stickyErr := false, werr := false,
                        fault := !tablesOk r.config.tbl }

theorem State.controlReset_resetFor (c : Config) : (State.resetFor c).controlReset := ⟨rfl, rfl, rfl, rfl, rfl, rfl⟩

theorem State.controlReset_softReset (s : State) (a : Option Response) :
    State.controlReset { s.softReset with response := a } := ⟨rfl, rfl, rfl, rfl, rfl, rfl⟩

/-! ## The table check -/

theorem shapeOk_iff (t : List Nat) (win n : Nat) : shapeOk t win n = true ↔ t.length = n ∧ ∀ e ∈ t, e < win := by
  simp [shapeOk]

theorem sboxOk_iff (t : List (List Nat)) :
    sboxOk t = true ↔ t.length = 4 ∧ ∀ r ∈ t, r.length = 4 ∧ ∀ e ∈ r, e < 4 := by
  simp [sboxOk]

/-- The check passes exactly where each of the six tables does (R293). -/
theorem tablesOk_iff (t : Tables) : tablesOk t = true ↔
    shapeOk t.ip 8 8 = true ∧ shapeOk t.ipinv 8 8 = true ∧ shapeOk t.ep 4 8 = true ∧ shapeOk t.p4 4 4 = true ∧
    sboxOk t.s0 = true ∧ sboxOk t.s1 = true := by
  simp only [tablesOk, Bool.and_eq_true, and_assoc]

theorem tablesOk_defaultTables : tablesOk defaultTables = true := by decide

theorem State.resetFor_fault_eq_false_iff (c : Config) :
    (State.resetFor c).status.fault = false ↔ tablesOk c.tbl = true := by simp [State.resetFor]

end Sys2Proof.Machine

open Sys2Proof Sys2Proof.Machine

/-- Settles O45: a soft reset is `State.softReset` of the state the access is made in, BUSY or not. -/
theorem softResetAtAnyTime : Obligations.SoftResetAtAnyTime := by
  refine fun s t v h => ⟨fun hv => ⟨_, step_softReset h hv, ?_⟩, step_ctrl_without_reset h⟩
  exact ⟨rfl, rfl, t.softReset_isWritten, rfl, rfl, rfl, rfl, rfl, rfl, rfl, rfl, rfl, rfl⟩

/-- Settles O44: both resets leave `State.controlReset`, and the host reads it register by register. -/
theorem resetControlState : Obligations.ResetControlState := by
  intro r hr
  have hc : r.controlReset := by
    rcases hr with rfl | ⟨s, t, v, h, hv, hstep⟩
    · exact State.controlReset_resetFor _
    · rw [step_softReset h hv] at hstep
      cases hstep
      exact t.controlReset_softReset _
  have hidle : r.phase ≠ .busy := by rw [hc.phase]; nofun
  refine ⟨rfl, rfl, rfl, ?_, ?_, ?_, ?_, hc.phase, hc.status, fun ht => ?_⟩
  · rw [hostRead, hc.latched]
  · rw [hostRead, if_neg hidle, hc.subkeys]; rfl
  · rw [hostRead, hc.lenIn]; rfl
  · rw [hostRead, if_neg hidle, hc.lenOut]; rfl
  · rw [hostRead, hc.status, hc.phase, ht, tablesOk_defaultTables]; rfl

/-- Settles O53: FAULT is the negated check, and the check is that of each table. -/
theorem tableCheckAtReset : Obligations.TableCheckAtReset := by
  refine ⟨?_, (State.resetFor_fault_eq_false_iff _).2 tablesOk_defaultTables⟩
  rintro c s rfl
  rw [State.resetFor_fault_eq_false_iff, tablesOk_iff, shapeOk_iff, shapeOk_iff, shapeOk_iff, shapeOk_iff, sboxOk_iff,
    sboxOk_iff]
  exact ⟨Iff.rfl, rfl⟩

/-- Settles O55: a reset has the invariant under every legal capacity, so under the default one. -/
theorem resetHasTheInvariant : Obligations.ResetHasTheInvariant := State.resetFor_inv (by decide)

end

section
/-! Runs of a finite list of turns: a latched command is performed within the turns to come, and how a run ends
(R314). -/

namespace Sys2Proof.Machine

variable {s t u : State}

/-! ## The turns to come -/

theorem step_not_refused (s : State) (r : Refusal) : step s ≠ .refused r := (step_readsExactly s).not_refused r

theorem State.nextMove_turns (s : State) : s.nextMove.2.turns = s.turns.tail := by
  unfold State.nextMove
  split <;> rename_i h <;> simp [h]

/-- A step takes one turn. -/
theorem step_turns (h : step s = .next t) : t.turns = s.turns.tail := by
  rw [← s.nextMove_turns]
  unfold step at h
  split at h <;> rename_i hm <;> rw [hm]
  · obtain ⟨_, hturns, _⟩ := coreStep_keeps h; exact hturns
  · obtain ⟨hturns, _⟩ := hostAccess_keeps h; exact hturns
  · cases h; rfl

/-- With no turn left a step performs the latched command, or rests. -/
theorem step_idle_of_no_turns (hs : s.turns = []) (h : step s = .next t) : t.phase = .idle := by
  rcases step_cases s with ⟨u, _, hstep⟩ | ⟨a, u, ⟨rest, hturns, _⟩, _⟩ | ⟨hp, _, hstep⟩
  · obtain ⟨hidle, _⟩ := coreStep_keeps (hstep ▸ h); exact hidle
  · rw [hs] at hturns; cases hturns
  · rw [hstep] at h; cases h; exact hp

/-- A run of one step more goes on from a next state. -/
theorem next_of_run {n : Nat} (h : Sys2Proof.core.run (n + 1) s = .next t) :
    ∃ u, step s = .next u ∧ Sys2Proof.core.run n u = .next t := by
  cases hs : step s with
  | next u => exact ⟨u, rfl, (run_of_next (M := Sys2Proof.core) n hs).symm.trans h⟩
  | fault f => cases (run_of_fault (M := Sys2Proof.core) n hs).symm.trans h
  | refused r => exact absurd hs (step_not_refused s r)

/-- The turns used up and one step more (R314). -/
theorem run_uses_turns {ts : List Turn} (hs : s.turns = ts) (h : Sys2Proof.core.run (ts.length + 1) s = .next t) :
    t.turns = [] ∧ t.phase = .idle := by
  induction ts generalizing s with
  | nil =>
    obtain ⟨u, hstep, hrun⟩ := next_of_run h
    cases hrun
    exact ⟨by rw [step_turns hstep, hs]; rfl, step_idle_of_no_turns hs hstep⟩
  | cons e ts ih =>
    obtain ⟨u, hstep, hrun⟩ := next_of_run h
    exact ih (by rw [step_turns hstep, hs]; rfl) hrun

/-! ## A latched command within the turns to come -/

/-- The core comes to perform the word `s` has latched after at most `k` steps, or a step before that stops. -/
def State.comesToPerform (s : State) (k : Nat) : Prop :=
  (∃ n t u, n ≤ k ∧ Sys2Proof.core.run n s = .next t ∧ t.coreTurn u ∧ u.latched = s.latched) ∨
  (∃ n f, n ≤ k ∧ Sys2Proof.core.run n s = .fault f)

theorem State.coreTurn.comesToPerform {k : Nat} (h : s.coreTurn u) : s.comesToPerform k := by
  refine .inl ⟨0, s, u, Nat.zero_le k, rfl, h, ?_⟩
  obtain ⟨_, ⟨_, rfl⟩ | ⟨_, _, rfl⟩⟩ := h <;> rfl

theorem State.comesToPerform.before {k : Nat} (hs : step s = .next t) (hl : t.latched = s.latched)
    (h : t.comesToPerform k) : s.comesToPerform (k + 1) := by
  have hrun : ∀ n, Sys2Proof.core.run (n + 1) s = Sys2Proof.core.run n t :=
    fun n => run_of_next (M := Sys2Proof.core) n hs
  rcases h with ⟨n, u, v, hn, hu, hturn, hv⟩ | ⟨n, f, hn, hf⟩
  · exact .inl ⟨n + 1, u, v, Nat.succ_le_succ hn, (hrun n).trans hu, hturn, hv.trans hl⟩
  · exact .inr ⟨n + 1, f, Nat.succ_le_succ hn, (hrun n).trans hf⟩

/-- Host accesses that are no soft reset leave the block BUSY with its word, up to the core's turn. -/
theorem State.comesToPerform_of_busy {ts : List Turn} (hs : s.turns = ts) (hp : s.phase = .busy)
    (hr : ∀ v : Word, v.getLsbD 0 = true → .host (writeAt 0x008 v) ∉ ts) : s.comesToPerform ts.length := by
  induction ts generalizing s with
  | nil => exact State.coreTurn.comesToPerform ⟨hp, .inl ⟨hs, rfl⟩⟩
  | cons e ts ih =>
    cases e with
    | core => exact State.coreTurn.comesToPerform ⟨hp, .inr ⟨ts, hs, rfl⟩⟩
    | host a =>
      have hturn : s.hostTurn a { s with turns := ts } := ⟨ts, hs, rfl⟩
      cases hnext : step s with
      | next t =>
        have haccess := (step_of_hostTurn hturn).symm.trans hnext
        rcases hostAccess_busy (s := { s with turns := ts }) hp haccess with ⟨hbusy, hl⟩ | ⟨v, hv, rfl⟩
        · exact .before hnext hl (ih (by rw [step_turns hnext, hs]; rfl) hbusy
            fun v hv hmem => hr v hv (List.mem_cons_of_mem _ hmem))
        · exact absurd List.mem_cons_self (hr v hv)
      | fault f => exact .inr ⟨1, f, Nat.succ_le_succ (Nat.zero_le _), run_of_fault (M := Sys2Proof.core) 0 hnext⟩
      | refused r => exact absurd hnext (step_not_refused s r)

/-! ## Runs of `modelStep` -/

/-- A model's step that leaves no fault is the machine's. -/
theorem step_of_modelStep (h : (modelStep s).modelFault = none) : step s = .next (modelStep s) := by
  have hs : s.modelFault = none := by
    by_contra hne
    rw [modelStep_of_faulted hne] at h
    exact hne h
  cases hstep : step s with
  | next t =>
    cases ht : t.modelFault with
    | none => rw [modelStep_of_next hs hstep ht]
    | some f => rw [modelStep_of_recorded hs hstep ht] at h; cases h
  | fault f => rw [modelStep_of_fault hs hstep] at h; cases h
  | refused r => exact absurd hstep (step_not_refused s r)

/-- A faulted model stays as it is. -/
theorem modelRun_of_faulted (h : s.modelFault ≠ none) (n : Nat) : modelRun n s = s :=
  modelRun_of_fixed (modelStep_of_faulted h) n

/-- A model's run that leaves no fault is the machine's. -/
theorem run_of_modelRun {n : Nat} (h : (modelRun n s).modelFault = none) :
    Sys2Proof.core.run n s = .next (modelRun n s) := by
  induction n generalizing s with
  | zero => rfl
  | succ n ih =>
    have hstep : (modelStep s).modelFault = none := by
      by_contra hne
      rw [modelRun, modelRun_of_faulted hne] at h
      exact hne h
    exact (run_of_next (M := Sys2Proof.core) n (step_of_modelStep hstep)).trans (ih h)

theorem modelRun_of_ended (h : s.ended) (n : Nat) : modelRun n s = s := modelRun_of_fixed (modelStep_of_ended h) n

/-- The turns used up and one step more, without a fault, are a run that has ended (R314). -/
theorem State.runEnds_of_no_fault (h : (modelRun (s.turns.length + 1) s).modelFault = none) :
    s.runEnds (modelRun (s.turns.length + 1) s) := by
  obtain ⟨hturns, hidle⟩ := run_uses_turns rfl (run_of_modelRun h)
  exact ⟨_, rfl, hturns, hidle, h⟩

/-- The longer of two runs rests where the shorter one has ended. -/
theorem modelRun_eq_of_ended {m n : Nat} (hmn : m ≤ n) (h : (modelRun m s).ended) : modelRun n s = modelRun m s := by
  obtain ⟨k, rfl⟩ := Nat.exists_eq_add_of_le hmn
  rw [modelRun_add, modelRun_of_ended h]

theorem State.runEnds_unique (ht : s.runEnds t) (hu : s.runEnds u) : t = u := by
  obtain ⟨m, rfl, hm⟩ := ht
  obtain ⟨n, rfl, hn⟩ := hu
  rcases Nat.le_total m n with h | h
  · exact (modelRun_eq_of_ended h hm).symm
  · exact modelRun_eq_of_ended h hn

end Sys2Proof.Machine

open Sys2Proof Sys2Proof.Machine

/-- Settles O57: by induction on the turns to come for the machine's run, which `run_of_modelRun` makes the model's run
while no fault is set. -/
theorem everyLatchedCommandIsPerformed : Obligations.EveryLatchedCommandIsPerformed := by
  refine ⟨fun s hp hr => State.comesToPerform_of_busy rfl hp hr, fun s t h => run_uses_turns rfl h, fun s => ?_, ?_,
    fun s t u => State.runEnds_unique⟩
  · by_cases h : (modelRun (s.turns.length + 1) s).modelFault = none
    · exact .inl ⟨_, State.runEnds_of_no_fault h⟩
    · exact .inr ⟨_, h⟩
  · rintro s t hs ⟨n, rfl, _, _, hnone⟩
    rw [modelRun_of_faulted hs] at hnone
    exact hs hnone

end

section
/-! Executions without end (R80): with weak fairness of the core's step a BUSY block comes to perform its command and
every `wait` ends (R112, R312), and without it a host can poll a BUSY block for ever. -/

namespace Sys2Proof.Machine

variable {s t : State} {state : Nat → State} {event : Nat → Turn} {n : Nat}

/-! ## One poll -/

/-- `s` after a host read of STATUS (R40). -/
def State.polled (s : State) : State := { s with response := some (.data (statusWord s.phase s.status)) }

theorem step_poll (s : State) : step (s.withTurn (.host (readAt 0x00C))) = .next s.polled := by
  rw [step_withTurn_host, hostAccess_read_of (l := .status) rfl rfl rfl]
  rfl

/-! ## One event of an execution -/

/-- At event `n` the pending command is performed by the core, or abandoned by a soft reset (R294). -/
def endsBusy (state : Nat → State) (event : Nat → Turn) (n : Nat) : Prop :=
  (state (n + 1)).phase = .idle ∧
  ((event n = .core ∧ coreStep (state n) = .next (state (n + 1))) ∨
   ∃ v : Word, v.getLsbD 0 = true ∧ event n = .host (writeAt 0x008 v))

theorem endsBusy_of_core (h : isExecution state event) (hp : (state n).phase = .busy) (he : event n = .core) :
    endsBusy state event n := by
  have hstep := h n
  rw [he, step_withTurn_core hp] at hstep
  obtain ⟨hidle, _⟩ := coreStep_keeps hstep
  exact ⟨hidle, .inl ⟨he, hstep⟩⟩

theorem endsBusy_of_softReset (h : isExecution state event) {v : Word} (hv : v.getLsbD 0 = true)
    (he : event n = .host (writeAt 0x008 v)) : endsBusy state event n := by
  have hstep := h n
  rw [he, step_withTurn_host, hostAccess_write_of (l := .ctrl) v rfl rfl, hostWrite, if_pos rfl, if_pos hv] at hstep
  refine ⟨?_, .inr ⟨v, hv, he⟩⟩
  rw [← Host.Outcome.next.inj hstep]
  rfl

/-- An event of a BUSY block leaves its command pending, or ends it. -/
theorem busy_event (h : isExecution state event) (hp : (state n).phase = .busy) :
    ((state (n + 1)).phase = .busy ∧ (state (n + 1)).latched = (state n).latched) ∨ endsBusy state event n := by
  cases he : event n with
  | core => exact .inr (endsBusy_of_core h hp he)
  | host a =>
    have hstep := h n
    rw [he, step_withTurn_host] at hstep
    rcases hostAccess_busy hp hstep with hbusy | ⟨v, hv, rfl⟩
    · exact .inl hbusy
    · exact .inr (endsBusy_of_softReset h hv he)

/-- An Idle block stays Idle over core turns and polls. -/
theorem idle_event (h : isExecution state event) (hp : (state n).phase = .idle)
    (he : event n = .core ∨ event n = .host (readAt 0x00C)) : (state (n + 1)).phase = .idle := by
  have hstep := h n
  rcases he with he | he
  · rw [he, step_withTurn_core_idle hp] at hstep
    rw [← Host.Outcome.next.inj hstep, hp]
  · rw [he, step_poll] at hstep
    rw [← Host.Outcome.next.inj hstep]
    exact hp

/-! ## Fair executions -/

/-- With weak fairness a BUSY block is Idle at some later time (R312). -/
theorem exists_idle (h : isExecution state event) (hfair : weaklyFair state event) (n : Nat) :
    ∃ d, (state (n + d)).phase = .idle := by
  by_contra hnone
  have hbusy : ∀ m, n ≤ m → (state m).phase = .busy := by
    intro m hm
    obtain ⟨d, rfl⟩ := Nat.exists_eq_add_of_le hm
    cases hp : (state (n + d)).phase with
    | busy => rfl
    | idle => exact absurd ⟨d, hp⟩ hnone
  obtain ⟨m, hm, he⟩ := hfair n hbusy
  obtain ⟨hidle, _⟩ := endsBusy_of_core h (hbusy m hm) he
  rw [hbusy (m + 1) (Nat.le_succ_of_le hm)] at hidle
  cases hidle

/-- Up to a time at which it is Idle, a BUSY block keeps its word until the event that ends it. -/
theorem busy_until_ended (h : isExecution state event) {d : Nat} (hp : (state n).phase = .busy)
    (hd : (state (n + d)).phase = .idle) :
    ∃ m, n ≤ m ∧ (∀ k, n ≤ k → k ≤ m → (state k).phase = .busy ∧ (state k).latched = (state n).latched) ∧
      endsBusy state event m := by
  induction d generalizing n with
  | zero => cases hp.symm.trans hd
  | succ d ih =>
    rcases busy_event h hp with ⟨hbusy, hl⟩ | hend
    · obtain ⟨m, hm, hkeep, hend⟩ := ih hbusy (by rwa [Nat.succ_add_eq_add_succ])
      refine ⟨m, Nat.le_of_succ_le hm, fun k hk hkm => ?_, hend⟩
      rcases Nat.eq_or_lt_of_le hk with rfl | hlt
      · exact ⟨hp, rfl⟩
      · obtain ⟨hkp, hkl⟩ := hkeep k hlt hkm
        exact ⟨hkp, hkl.trans hl⟩
    · refine ⟨n, Nat.le_refl n, fun k hk hkn => ?_, hend⟩
      obtain rfl := Nat.le_antisymm hkn hk
      exact ⟨hp, rfl⟩

/-- A host that only polls leaves an Idle block Idle. -/
theorem idle_for_ever (h : isExecution state event) (hp : (state n).phase = .idle)
    (he : ∀ m, n ≤ m → event m = .core ∨ event m = .host (readAt 0x00C)) : ∀ m, n ≤ m → (state m).phase = .idle :=
  Nat.le_induction hp fun m hm ih => idle_event h ih (he m hm)

/-- A poll of an Idle block reads BUSY = 0. -/
theorem poll_of_idle (h : isExecution state event) (hp : (state n).phase = .idle)
    (he : event n = .host (readAt 0x00C)) :
    ∃ v, (state (n + 1)).response = some (.data v) ∧ v.getLsbD 0 = false := by
  have hstep := h n
  rw [he, step_poll] at hstep
  obtain ⟨hbit, _⟩ := statusWord_bits (state n).phase (state n).status
  refine ⟨_, by rw [← Host.Outcome.next.inj hstep]; rfl, ?_⟩
  rw [← Bool.not_eq_true, hbit, hp]
  nofun

/-! ## An execution that is not fair -/

/-- `s` polled for ever. -/
def pollStates (s : State) : Nat → State
  | 0 => s
  | n + 1 => (pollStates s n).polled

theorem isExecution_pollStates (s : State) : isExecution (pollStates s) fun _ => .host (readAt 0x00C) :=
  fun n => step_poll (pollStates s n)

theorem pollStates_phase (s : State) : ∀ n, (pollStates s n).phase = s.phase
  | 0 => rfl
  | n + 1 => pollStates_phase s n

end Sys2Proof.Machine

open Sys2Proof Sys2Proof.Machine

/-- Settles O60: fairness gives a time at which a BUSY block is Idle; the pending command ends before it, and a poll
after it reads BUSY = 0. The unfair execution is `pollStates`. -/
theorem fairExecutionsPerformEveryCommand : Obligations.FairExecutionsPerformEveryCommand := by
  refine ⟨fun state event h hfair n hp => ?_, fun state event h hfair n honly hpolls => ?_, fun s hp => ?_⟩
  · obtain ⟨d, hd⟩ := exists_idle h hfair n
    exact busy_until_ended h hp hd
  · obtain ⟨d, hd⟩ := exists_idle h hfair n
    obtain ⟨m, hm, he⟩ := hpolls (n + d)
    have hidle := idle_for_ever h hd (fun k hk => honly k (Nat.le_of_add_right_le hk)) m hm
    obtain ⟨v, hv, hbit⟩ := poll_of_idle h hidle he
    exact ⟨m, v, Nat.le_of_add_right_le hm, he, hv, hbit⟩
  · exact ⟨pollStates s, fun _ => .host (readAt 0x00C), rfl, isExecution_pollStates s,
      fun n => ⟨rfl, (pollStates_phase s n).trans hp⟩⟩

end
